-- ==== Sys2Proof/Word.lean ====
section
/-! DEFINITION. The widths of the SimpleComm frame core (00_scope.md rules R18 and R19). -/

namespace Sys2Proof

/-- One byte: every field of a frame and every element of a buffer (R18). -/
abbrev Byte := BitVec 8

/-- A 32-bit command word (30_encoding.md rule R100). -/
abbrev CmdWord := BitVec 32

/-- A 64-bit scalar operand or result (R19). -/
abbrev Scalar := BitVec 64

/-- A packet buffer index, the `pb` field of the command word (R100, R102). -/
abbrev PbIndex := BitVec 4

/-- A channel index, the `ch` field of the command word (R100, R102). -/
abbrev ChIndex := BitVec 4

/-- A count answered by a transport, `0 .. 511` (20_memory.md rule R69). -/
abbrev WriteCount := BitVec 9

end Sys2Proof
end

