-- ==== Sys2Proof/Config.lean ====
section
/-! DEFINITION. The protocol constants, the build parameters and the free values of the SimpleComm frame core
(00_scope.md rules R9 to R13, 93_implementation_defined.md U1 to U5, U10, U13). -/

namespace Sys2Proof

/-- `CSUM_FN` as plain data: the default additive sum of 41_checksum.md rule R181, or another function, which the
model leaves uninterpreted (R183; log 11). -/
inductive CsumFn where
  | additive
  | other (k : Nat)
deriving DecidableEq, Repr

/-- The build parameters of one core (00_scope.md rules R10, R12, R13), with the spec's defaults. The model carries
them in `State`, where no step changes them, so that a claim about every state is a claim about every build (log 2). -/
structure Config where
  /-- `MAX_DATA_LEN` (R10). -/
  maxDataLen : Nat := 128
  /-- `CSUM_FN` (R12). -/
  csum : CsumFn := .additive
  /-- `N_PB` (R13). -/
  nPb : Nat := 2
  /-- `N_CH` (R13). -/
  nCh : Nat := 1
deriving DecidableEq, Repr

namespace Config

/-- The synchronization marker, first byte of every frame (R9). -/
abbrev syn : Byte := 0x02#8
/-- Bytes of the SYN field (R9). -/
abbrev synLen : Nat := 1
/-- Bytes of the LEN field (R9). -/
abbrev lenLen : Nat := 1
/-- Bytes of the header DST, SRC, TYPE (R9). -/
abbrev hdrLen : Nat := 3
/-- Bytes of the checksum field (R9). -/
abbrev crcLen : Nat := 1
/-- The destination every receiver accepts (R9). -/
abbrev broadcast : Byte := 0x00#8
/-- The local address that accepts every destination (R9). -/
abbrev promiscuous : Byte := 0x00#8

/-- The configuration every vector of 95_test_vectors.md uses. -/
def default : Config := {}

/-- The legal ranges of the parameters (R10: `0 .. 251`; R13: `1 .. 16` each). -/
abbrev Legal (c : Config) : Prop :=
  c.maxDataLen ≤ 251 ∧ 1 ≤ c.nPb ∧ c.nPb ≤ 16 ∧ 1 ≤ c.nCh ∧ c.nCh ≤ 16

/-- `unspecified_8()` (00_scope.md rule R19): the value of the `k`-th free byte drawn. No body: nothing constrains it
(log 8). -/
opaque freeByte : Nat → Byte

/-- The count a transport answers to a write request when the environment lists no answer (20_memory.md rule R69: any
value in `0 .. 511`). No body: nothing constrains it (log 9). -/
opaque freeCount : Nat → WriteCount

/-- A replaced `CSUM_FN` (41_checksum.md rule R183: a pure total function to one byte). No body (log 11). -/
opaque otherCsum : Nat → List Byte → Byte

end Config
end Sys2Proof
end

