-- ==== Sys2Proof/Machine/Flags.lean ====
section
/-! DEFINITION. What the core computes on bytes: the derived lengths, the checksum, the LEN range check, the destination
filter (00_scope.md rule R11, 41_checksum.md, 43_receive.md rules R217 and R222). The core keeps no condition codes
(10_state.md rule R33). -/

namespace Sys2Proof.Machine

/-- `LEN_MIN = HDR_LEN + CRC_LEN` (00_scope.md rule R11). -/
def lenMin : Nat := Config.hdrLen + Config.crcLen

/-- `LEN_MAX = HDR_LEN + MAX_DATA_LEN + CRC_LEN` (R11). -/
def lenMax (c : Config) : Nat := Config.hdrLen + c.maxDataLen + Config.crcLen

/-- `FRAME_MIN` (R11). -/
def frameMin : Nat := Config.synLen + Config.lenLen + lenMin

/-- `FRAME_MAX` (R11). -/
def frameMax (c : Config) : Nat := Config.synLen + Config.lenLen + lenMax c

/-- `SCRATCH_CAP`: the bytes the accumulation buffer holds (R11, 10_state.md rule R28). -/
def scratchCap (c : Config) : Nat := frameMax c

/-- The default `CSUM_FN`: the sum of the bytes modulo 256 (41_checksum.md rule R181). -/
def additiveSum (s : List Byte) : Byte := s.foldl (fun acc b => acc + b) 0

/-- `CSUM(s)`: the build's `CSUM_FN` applied to `s` (41_checksum.md rules R180, R183). -/
def csumOf (c : Config) (s : List Byte) : Byte :=
  match c.csum with
  | .additive => additiveSum s
  | .other k => Config.otherCsum k s

/-- The LEN range check of 43_receive.md rule R217, unsigned, both ends legal. -/
def lenLegal (c : Config) (b : Byte) : Bool := lenMin ≤ b.toNat && b.toNat ≤ lenMax c

/-- The destination filter of 43_receive.md rule R222: promiscuous, broadcast or addressed to this core. -/
def filterPasses (localAddr dst : Byte) : Bool :=
  localAddr == Config.promiscuous || dst == Config.broadcast || dst == localAddr

end Sys2Proof.Machine
end

