-- ==== Sys2Proof/Syntax.lean ====
section
/-! DEFINITION. The instructions: one constructor per row of spec/opcode_table.json (30_encoding.md rules R90, R101). -/

namespace Sys2Proof

/-- The header field selector `f` of PB.RDHDR and PB.WRHDR (30_encoding.md rule R102); the code 3 is reserved and has no
constructor. -/
inductive HdrField where
  | dst
  | src
  | typ
deriving DecidableEq, Repr

/-- A host command with its operands (30_encoding.md rules R101, R102), or bytes handed over by a transport (the FRAME
row, R90). `p` is the packet buffer, `ch` the channel, `wdata` the whole 64-bit scalar operand, `span` the input
span, whose length is the operand `n`. -/
inductive Instr where
  | pbClear (p : PbIndex)
  | pbLength (p : PbIndex)
  | pbRaw (p : PbIndex)
  | pbRdhdr (p : PbIndex) (f : HdrField)
  | pbWrhdr (p : PbIndex) (f : HdrField) (v : Byte)
  | pbSetB (p : PbIndex) (wdata : Scalar)
  | pbSetH (p : PbIndex) (wdata : Scalar)
  | pbSetW (p : PbIndex) (wdata : Scalar)
  | pbSetD (p : PbIndex) (wdata : Scalar)
  | pbSetBytes (p : PbIndex) (span : List Byte)
  | pbAddB (p : PbIndex) (wdata : Scalar)
  | pbAddH (p : PbIndex) (wdata : Scalar)
  | pbAddW (p : PbIndex) (wdata : Scalar)
  | pbAddD (p : PbIndex) (wdata : Scalar)
  | pbAddBytes (p : PbIndex) (span : List Byte)
  | pbGetUb (p : PbIndex)
  | pbGetUh (p : PbIndex)
  | pbGetUw (p : PbIndex)
  | pbGetD (p : PbIndex)
  | pbGetSb (p : PbIndex)
  | pbGetSh (p : PbIndex)
  | pbGetSw (p : PbIndex)
  | pbGetBytes (p : PbIndex) (n : Byte)
  | csum (span : List Byte)
  | send (p : PbIndex) (ch : ChIndex) (dst : Byte)
  | sendT (p : PbIndex) (ch : ChIndex) (dst : Byte) (typ : Byte)
  | receive (p : PbIndex) (ch : ChIndex)
  | rxReset (ch : ChIndex)
  | cfgWraddr (addr : Byte)
  | cfgRdaddr
  | sysReset
  | frame (ch : ChIndex) (bytes : List Byte)
deriving DecidableEq, Repr

namespace Instr

/-- The packet buffer an instruction names, if it names one (the `pb` column of R101). -/
def pbIndex : Instr → Option PbIndex
  | pbClear p | pbLength p | pbRaw p | pbRdhdr p _ | pbWrhdr p _ _ => some p
  | pbSetB p _ | pbSetH p _ | pbSetW p _ | pbSetD p _ | pbSetBytes p _ => some p
  | pbAddB p _ | pbAddH p _ | pbAddW p _ | pbAddD p _ | pbAddBytes p _ => some p
  | pbGetUb p | pbGetUh p | pbGetUw p | pbGetD p | pbGetSb p | pbGetSh p | pbGetSw p | pbGetBytes p _ => some p
  | send p _ _ | sendT p _ _ _ | receive p _ => some p
  | csum _ | rxReset _ | cfgWraddr _ | cfgRdaddr | sysReset | frame _ _ => none

/-- The channel an instruction names, if it names one (the `ch` column of R101; the wire a frame arrives on). -/
def chIndex : Instr → Option ChIndex
  | send _ ch _ | sendT _ ch _ _ | receive _ ch | rxReset ch | frame ch _ => some ch
  | pbClear _ | pbLength _ | pbRaw _ | pbRdhdr _ _ | pbWrhdr _ _ _ => none
  | pbSetB _ _ | pbSetH _ _ | pbSetW _ _ | pbSetD _ _ | pbSetBytes _ _ => none
  | pbAddB _ _ | pbAddH _ _ | pbAddW _ _ | pbAddD _ _ | pbAddBytes _ _ => none
  | pbGetUb _ | pbGetUh _ | pbGetUw _ | pbGetD _ | pbGetSb _ | pbGetSh _ | pbGetSw _ | pbGetBytes _ _ => none
  | csum _ | cfgWraddr _ | cfgRdaddr | sysReset => none

/-- The input span of an instruction that takes one (`si` in R101). -/
def inSpan : Instr → Option (List Byte)
  | pbSetBytes _ s | pbAddBytes _ s | csum s => some s
  | pbClear _ | pbLength _ | pbRaw _ | pbRdhdr _ _ | pbWrhdr _ _ _ => none
  | pbSetB _ _ | pbSetH _ _ | pbSetW _ _ | pbSetD _ _ => none
  | pbAddB _ _ | pbAddH _ _ | pbAddW _ _ | pbAddD _ _ => none
  | pbGetUb _ | pbGetUh _ | pbGetUw _ | pbGetD _ | pbGetSb _ | pbGetSh _ | pbGetSw _ | pbGetBytes _ _ => none
  | send _ _ _ | sendT _ _ _ _ | receive _ _ | rxReset _ | cfgWraddr _ | cfgRdaddr | sysReset | frame _ _ => none

/-- Whether an instruction is a host command (30_encoding.md rule R101) and not wire bytes (R90). -/
def isCommand : Instr → Bool
  | frame _ _ => false
  | _ => true

end Instr
end Sys2Proof
end

