-- ==== Sys2Proof/WellFormed.lean ====
section
/-! DEFINITION. When an instruction is well formed for a configuration (30_encoding.md rules R90, R102, R103). -/

namespace Sys2Proof

/-- A byte sequence is a legal frame: SYN first, a LEN in range that counts the bytes after itself, and the checksum of
the region DST .. DATA last (30_encoding.md rules R90, R92). -/
def frameWellFormed (c : Config) (bytes : List Byte) : Bool :=
  bytes.head? == some Config.syn
    && Machine.lenLegal c (bytes.getD 1 0)
    && bytes.length == (bytes.getD 1 0).toNat + 2
    && bytes.getD ((bytes.getD 1 0).toNat + 1) 0
        == Machine.csumOf c ((bytes.drop 2).take ((bytes.getD 1 0).toNat - 1))

namespace Instr

/-- The indices of a command exist: `p < N_PB`, `ch < N_CH` (30_encoding.md rule R103). -/
def indicesLegal (c : Config) (i : Instr) : Bool :=
  (match i.pbIndex with
    | some p => decide (p.toNat < c.nPb)
    | none => true)
  && (match i.chIndex with
    | some ch => decide (ch.toNat < c.nCh)
    | none => true)

/-- The input span has a length the field `a` can hold, `0 .. 255` (R102). -/
def spanFits (i : Instr) : Bool :=
  match i.inSpan with
  | some s => decide (s.length ≤ 255)
  | none => true

/-- Wire bytes are a legal frame (R90). -/
def wireLegal (c : Config) : Instr → Bool
  | frame _ bytes => frameWellFormed c bytes
  | _ => true

/-- A well-formed instruction of a core built with configuration `c`. -/
def wellFormed (c : Config) (i : Instr) : Bool :=
  i.indicesLegal c && i.spanFits && i.wireLegal c

end Instr
end Sys2Proof
end

