-- ==== Sys2Proof/Decode.lean ====
section
/-! DEFINITION. Decoding and encoding: the command word of 30_encoding.md rules R100 to R103 and the wire frame of R90.
The decoder is total and rejects by name; the encoder is written from the same opcode map. Whether an index exists
(`p < N_PB`, `ch < N_CH`) depends on the build and is checked by the meanings (log 18). -/

namespace Sys2Proof

/-- What the core is handed in one transaction (00_scope.md rule R15): a command word with its scalar operand and its
input span, or bytes on the wire of a channel. -/
inductive Transaction where
  | command (word : CmdWord) (wdata : Scalar) (span : List Byte)
  | wire (ch : ChIndex) (bytes : List Byte)
deriving DecidableEq, Repr

/-- Why a transaction is no instruction. -/
inductive DecodeError where
  /-- `op` is not in the table of rule R101. -/
  | unknownOp
  /-- A field marked unused in the row is not zero (R103). -/
  | unusedFieldNotZero
  /-- Header selector `f = 3` (R103). -/
  | reservedSelector
  /-- The input span does not have the length the word asks for (R102, R114). -/
  | spanLength
  /-- Wire bytes that do not begin with SYN: no frame (R90, R94 a). -/
  | notSyn
deriving DecidableEq, Repr

/-- Field `op`, bits 31:24 (R100). -/
def opField (w : CmdWord) : BitVec 8 := w.extractLsb' 24 8
/-- Field `pb`, bits 23:20 (R100). -/
def pbField (w : CmdWord) : PbIndex := w.extractLsb' 20 4
/-- Field `ch`, bits 19:16 (R100). -/
def chField (w : CmdWord) : ChIndex := w.extractLsb' 16 4
/-- Field `a`, bits 15:8 (R100). -/
def aField (w : CmdWord) : Byte := w.extractLsb' 8 8
/-- Field `b`, bits 7:0 (R100). -/
def bField (w : CmdWord) : Byte := w.extractLsb' 0 8

/-- A command word put together from its fields (R100). -/
def mkWord (op : BitVec 8) (pb : PbIndex) (ch : ChIndex) (a b : Byte) : CmdWord :=
  op.setWidth 32 <<< 24 ||| pb.setWidth 32 <<< 20 ||| ch.setWidth 32 <<< 16 ||| a.setWidth 32 <<< 8 ||| b.setWidth 32

/-- The 31 operations of the opcode map (R101). -/
inductive Op where
  | pbClear | pbLength | pbRaw | pbRdhdr | pbWrhdr
  | pbSetB | pbSetH | pbSetW | pbSetD | pbSetBytes
  | pbAddB | pbAddH | pbAddW | pbAddD | pbAddBytes
  | pbGetUb | pbGetUh | pbGetUw | pbGetD | pbGetSb | pbGetSh | pbGetSw | pbGetBytes
  | csum | send | sendT | receive | rxReset | cfgWraddr | cfgRdaddr | sysReset
deriving DecidableEq, Repr

/-- The `op` column of R101. -/
def Op.code : Op → BitVec 8
  | .pbClear => 0x10#8
  | .pbLength => 0x11#8
  | .pbRaw => 0x12#8
  | .pbRdhdr => 0x13#8
  | .pbWrhdr => 0x14#8
  | .pbSetB => 0x20#8
  | .pbSetH => 0x21#8
  | .pbSetW => 0x22#8
  | .pbSetD => 0x23#8
  | .pbSetBytes => 0x24#8
  | .pbAddB => 0x28#8
  | .pbAddH => 0x29#8
  | .pbAddW => 0x2A#8
  | .pbAddD => 0x2B#8
  | .pbAddBytes => 0x2C#8
  | .pbGetUb => 0x30#8
  | .pbGetUh => 0x31#8
  | .pbGetUw => 0x32#8
  | .pbGetD => 0x33#8
  | .pbGetSb => 0x34#8
  | .pbGetSh => 0x35#8
  | .pbGetSw => 0x36#8
  | .pbGetBytes => 0x38#8
  | .csum => 0x40#8
  | .send => 0x50#8
  | .sendT => 0x51#8
  | .receive => 0x60#8
  | .rxReset => 0x61#8
  | .cfgWraddr => 0x70#8
  | .cfgRdaddr => 0x71#8
  | .sysReset => 0x7F#8

/-- The row of R101 with a given `op`, if there is one. -/
def opOf (op : BitVec 8) : Option Op :=
  match op with
  | 0x10#8 => some .pbClear
  | 0x11#8 => some .pbLength
  | 0x12#8 => some .pbRaw
  | 0x13#8 => some .pbRdhdr
  | 0x14#8 => some .pbWrhdr
  | 0x20#8 => some .pbSetB
  | 0x21#8 => some .pbSetH
  | 0x22#8 => some .pbSetW
  | 0x23#8 => some .pbSetD
  | 0x24#8 => some .pbSetBytes
  | 0x28#8 => some .pbAddB
  | 0x29#8 => some .pbAddH
  | 0x2A#8 => some .pbAddW
  | 0x2B#8 => some .pbAddD
  | 0x2C#8 => some .pbAddBytes
  | 0x30#8 => some .pbGetUb
  | 0x31#8 => some .pbGetUh
  | 0x32#8 => some .pbGetUw
  | 0x33#8 => some .pbGetD
  | 0x34#8 => some .pbGetSb
  | 0x35#8 => some .pbGetSh
  | 0x36#8 => some .pbGetSw
  | 0x38#8 => some .pbGetBytes
  | 0x40#8 => some .csum
  | 0x50#8 => some .send
  | 0x51#8 => some .sendT
  | 0x60#8 => some .receive
  | 0x61#8 => some .rxReset
  | 0x70#8 => some .cfgWraddr
  | 0x71#8 => some .cfgRdaddr
  | 0x7F#8 => some .sysReset
  | _ => none

/-- The `pb` column of R101: the row uses the field. -/
def Op.usesPb : Op → Bool
  | .csum | .rxReset | .cfgWraddr | .cfgRdaddr | .sysReset => false
  | .pbClear | .pbLength | .pbRaw | .pbRdhdr | .pbWrhdr => true
  | .pbSetB | .pbSetH | .pbSetW | .pbSetD | .pbSetBytes => true
  | .pbAddB | .pbAddH | .pbAddW | .pbAddD | .pbAddBytes => true
  | .pbGetUb | .pbGetUh | .pbGetUw | .pbGetD | .pbGetSb | .pbGetSh | .pbGetSw | .pbGetBytes => true
  | .send | .sendT | .receive => true

/-- The `ch` column of R101. -/
def Op.usesCh : Op → Bool
  | .send | .sendT | .receive | .rxReset => true
  | .pbClear | .pbLength | .pbRaw | .pbRdhdr | .pbWrhdr => false
  | .pbSetB | .pbSetH | .pbSetW | .pbSetD | .pbSetBytes => false
  | .pbAddB | .pbAddH | .pbAddW | .pbAddD | .pbAddBytes => false
  | .pbGetUb | .pbGetUh | .pbGetUw | .pbGetD | .pbGetSb | .pbGetSh | .pbGetSw | .pbGetBytes => false
  | .csum | .cfgWraddr | .cfgRdaddr | .sysReset => false

/-- The `a` column of R101. -/
def Op.usesA : Op → Bool
  | .pbWrhdr | .pbSetBytes | .pbAddBytes | .pbGetBytes | .csum | .send | .sendT | .cfgWraddr => true
  | .pbClear | .pbLength | .pbRaw | .pbRdhdr => false
  | .pbSetB | .pbSetH | .pbSetW | .pbSetD | .pbAddB | .pbAddH | .pbAddW | .pbAddD => false
  | .pbGetUb | .pbGetUh | .pbGetUw | .pbGetD | .pbGetSb | .pbGetSh | .pbGetSw => false
  | .receive | .rxReset | .cfgRdaddr | .sysReset => false

/-- The bits of `b` a row leaves unused, which must be zero: none for SEND.T's type, bits 7:2 for a header selector, all
eight otherwise (R101, R102, R103). -/
def Op.bUnused : Op → Byte
  | .sendT => 0x00#8
  | .pbRdhdr | .pbWrhdr => 0xFC#8
  | .pbClear | .pbLength | .pbRaw => 0xFF#8
  | .pbSetB | .pbSetH | .pbSetW | .pbSetD | .pbSetBytes => 0xFF#8
  | .pbAddB | .pbAddH | .pbAddW | .pbAddD | .pbAddBytes => 0xFF#8
  | .pbGetUb | .pbGetUh | .pbGetUw | .pbGetD | .pbGetSb | .pbGetSh | .pbGetSw | .pbGetBytes => 0xFF#8
  | .csum | .send | .receive | .rxReset | .cfgWraddr | .cfgRdaddr | .sysReset => 0xFF#8

/-- The row takes an input span of `a` bytes (`si` in R101). -/
def Op.takesSpan : Op → Bool
  | .pbSetBytes | .pbAddBytes | .csum => true
  | .pbClear | .pbLength | .pbRaw | .pbRdhdr | .pbWrhdr => false
  | .pbSetB | .pbSetH | .pbSetW | .pbSetD | .pbAddB | .pbAddH | .pbAddW | .pbAddD => false
  | .pbGetUb | .pbGetUh | .pbGetUw | .pbGetD | .pbGetSb | .pbGetSh | .pbGetSw | .pbGetBytes => false
  | .send | .sendT | .receive | .rxReset | .cfgWraddr | .cfgRdaddr | .sysReset => false

/-- Every field the row leaves unused is zero (R103). -/
def unusedFieldsZero (o : Op) (w : CmdWord) : Bool :=
  (o.usesPb || pbField w == 0) && (o.usesCh || chField w == 0) && (o.usesA || aField w == 0)
    && bField w &&& o.bUnused == 0

/-- How many input span bytes the core accepts with a command word: `a` when `op` is `0x24`, `0x2C` or `0x40`, whether or
not the word is otherwise legal, and none for any other word (R114). -/
def spanNeed (w : CmdWord) : Nat :=
  match opOf (opField w) with
  | some o => if o.takesSpan then (aField w).toNat else 0
  | none => 0

/-- The header selector in bits 1:0 of `b` (R102). -/
def hdrFieldOf (b : Byte) : Option HdrField :=
  match b.extractLsb' 0 2 with
  | 0#2 => some .dst
  | 1#2 => some .src
  | 2#2 => some .typ
  | _ => none

/-- The code of a header selector (R102). -/
def HdrField.code : HdrField → Byte
  | .dst => 0#8
  | .src => 1#8
  | .typ => 2#8

/-- The instruction of a row with its operands assembled (R102). -/
def buildInstr (o : Op) (w : CmdWord) (wdata : Scalar) (span : List Byte) : Except DecodeError Instr :=
  match o with
  | .pbClear => .ok (.pbClear (pbField w))
  | .pbLength => .ok (.pbLength (pbField w))
  | .pbRaw => .ok (.pbRaw (pbField w))
  | .pbRdhdr =>
    match hdrFieldOf (bField w) with
    | some f => .ok (.pbRdhdr (pbField w) f)
    | none => .error .reservedSelector
  | .pbWrhdr =>
    match hdrFieldOf (bField w) with
    | some f => .ok (.pbWrhdr (pbField w) f (aField w))
    | none => .error .reservedSelector
  | .pbSetB => .ok (.pbSetB (pbField w) wdata)
  | .pbSetH => .ok (.pbSetH (pbField w) wdata)
  | .pbSetW => .ok (.pbSetW (pbField w) wdata)
  | .pbSetD => .ok (.pbSetD (pbField w) wdata)
  | .pbSetBytes => .ok (.pbSetBytes (pbField w) span)
  | .pbAddB => .ok (.pbAddB (pbField w) wdata)
  | .pbAddH => .ok (.pbAddH (pbField w) wdata)
  | .pbAddW => .ok (.pbAddW (pbField w) wdata)
  | .pbAddD => .ok (.pbAddD (pbField w) wdata)
  | .pbAddBytes => .ok (.pbAddBytes (pbField w) span)
  | .pbGetUb => .ok (.pbGetUb (pbField w))
  | .pbGetUh => .ok (.pbGetUh (pbField w))
  | .pbGetUw => .ok (.pbGetUw (pbField w))
  | .pbGetD => .ok (.pbGetD (pbField w))
  | .pbGetSb => .ok (.pbGetSb (pbField w))
  | .pbGetSh => .ok (.pbGetSh (pbField w))
  | .pbGetSw => .ok (.pbGetSw (pbField w))
  | .pbGetBytes => .ok (.pbGetBytes (pbField w) (aField w))
  | .csum => .ok (.csum span)
  | .send => .ok (.send (pbField w) (chField w) (aField w))
  | .sendT => .ok (.sendT (pbField w) (chField w) (aField w) (bField w))
  | .receive => .ok (.receive (pbField w) (chField w))
  | .rxReset => .ok (.rxReset (chField w))
  | .cfgWraddr => .ok (.cfgWraddr (aField w))
  | .cfgRdaddr => .ok .cfgRdaddr
  | .sysReset => .ok .sysReset

/-- Decoding a command word: the row by `op`, then the unused fields, then the selector (R101 to R103). -/
def decodeCommand (w : CmdWord) (wdata : Scalar) (span : List Byte) : Except DecodeError Instr :=
  match opOf (opField w) with
  | none => .error .unknownOp
  | some o =>
    if unusedFieldsZero o w then
      if span.length = spanNeed w then buildInstr o w wdata span else .error .spanLength
    else .error .unusedFieldNotZero

/-- Decoding wire bytes: the FRAME row's match and mask apply to byte 0 only (spec/opcode_table.json); everything after it
is judged by the parser (R94, 43_receive.md). -/
def decodeWire (ch : ChIndex) (bytes : List Byte) : Except DecodeError Instr :=
  match bytes with
  | [] => .error .notSyn
  | b :: _ => if b = Config.syn then .ok (.frame ch bytes) else .error .notSyn

/-- The decoder: total on any transaction. -/
def decode : Transaction → Except DecodeError Instr
  | .command w wdata span => decodeCommand w wdata span
  | .wire ch bytes => decodeWire ch bytes

/-- A command without an input span. -/
def plain (w : CmdWord) : Transaction := .command w 0 []

/-- A command with an input span: the field `a` is the span's length (R102). -/
def withSpan (o : Op) (p : PbIndex) (span : List Byte) : Transaction :=
  .command (mkWord o.code p 0 (BitVec.ofNat 8 span.length) 0) 0 span

/-- The transaction of an instruction: its word, its scalar operand and its span, or its bytes on the wire. -/
def encode : Instr → Transaction
  | .pbClear p => plain (mkWord Op.pbClear.code p 0 0 0)
  | .pbLength p => plain (mkWord Op.pbLength.code p 0 0 0)
  | .pbRaw p => plain (mkWord Op.pbRaw.code p 0 0 0)
  | .pbRdhdr p f => plain (mkWord Op.pbRdhdr.code p 0 0 f.code)
  | .pbWrhdr p f v => plain (mkWord Op.pbWrhdr.code p 0 v f.code)
  | .pbSetB p d => .command (mkWord Op.pbSetB.code p 0 0 0) d []
  | .pbSetH p d => .command (mkWord Op.pbSetH.code p 0 0 0) d []
  | .pbSetW p d => .command (mkWord Op.pbSetW.code p 0 0 0) d []
  | .pbSetD p d => .command (mkWord Op.pbSetD.code p 0 0 0) d []
  | .pbSetBytes p s => withSpan .pbSetBytes p s
  | .pbAddB p d => .command (mkWord Op.pbAddB.code p 0 0 0) d []
  | .pbAddH p d => .command (mkWord Op.pbAddH.code p 0 0 0) d []
  | .pbAddW p d => .command (mkWord Op.pbAddW.code p 0 0 0) d []
  | .pbAddD p d => .command (mkWord Op.pbAddD.code p 0 0 0) d []
  | .pbAddBytes p s => withSpan .pbAddBytes p s
  | .pbGetUb p => plain (mkWord Op.pbGetUb.code p 0 0 0)
  | .pbGetUh p => plain (mkWord Op.pbGetUh.code p 0 0 0)
  | .pbGetUw p => plain (mkWord Op.pbGetUw.code p 0 0 0)
  | .pbGetD p => plain (mkWord Op.pbGetD.code p 0 0 0)
  | .pbGetSb p => plain (mkWord Op.pbGetSb.code p 0 0 0)
  | .pbGetSh p => plain (mkWord Op.pbGetSh.code p 0 0 0)
  | .pbGetSw p => plain (mkWord Op.pbGetSw.code p 0 0 0)
  | .pbGetBytes p n => plain (mkWord Op.pbGetBytes.code p 0 n 0)
  | .csum s => withSpan .csum 0 s
  | .send p ch dst => plain (mkWord Op.send.code p ch dst 0)
  | .sendT p ch dst typ => plain (mkWord Op.sendT.code p ch dst typ)
  | .receive p ch => plain (mkWord Op.receive.code p ch 0 0)
  | .rxReset ch => plain (mkWord Op.rxReset.code 0 ch 0 0)
  | .cfgWraddr a => plain (mkWord Op.cfgWraddr.code 0 0 a 0)
  | .cfgRdaddr => plain (mkWord Op.cfgRdaddr.code 0 0 0 0)
  | .sysReset => plain (mkWord Op.sysReset.code 0 0 0 0)
  | .frame ch bytes => .wire ch bytes

/-- One command-word row of spec/opcode_table.json: a word `w` is the row's command when `w AND mask = match`. -/
structure TableRow where
  op : Op
  mtch : CmdWord
  mask : CmdWord
deriving DecidableEq, Repr

/-- The `match` and `mask` of a row, as spec/opcode_table.json gives them. -/
def tableRow : Op → TableRow
  | .pbClear => ⟨.pbClear, 0x10000000#32, 0xFF0FFFFF#32⟩
  | .pbLength => ⟨.pbLength, 0x11000000#32, 0xFF0FFFFF#32⟩
  | .pbRaw => ⟨.pbRaw, 0x12000000#32, 0xFF0FFFFF#32⟩
  | .pbRdhdr => ⟨.pbRdhdr, 0x13000000#32, 0xFF0FFFFC#32⟩
  | .pbWrhdr => ⟨.pbWrhdr, 0x14000000#32, 0xFF0F00FC#32⟩
  | .pbSetB => ⟨.pbSetB, 0x20000000#32, 0xFF0FFFFF#32⟩
  | .pbSetH => ⟨.pbSetH, 0x21000000#32, 0xFF0FFFFF#32⟩
  | .pbSetW => ⟨.pbSetW, 0x22000000#32, 0xFF0FFFFF#32⟩
  | .pbSetD => ⟨.pbSetD, 0x23000000#32, 0xFF0FFFFF#32⟩
  | .pbSetBytes => ⟨.pbSetBytes, 0x24000000#32, 0xFF0F00FF#32⟩
  | .pbAddB => ⟨.pbAddB, 0x28000000#32, 0xFF0FFFFF#32⟩
  | .pbAddH => ⟨.pbAddH, 0x29000000#32, 0xFF0FFFFF#32⟩
  | .pbAddW => ⟨.pbAddW, 0x2A000000#32, 0xFF0FFFFF#32⟩
  | .pbAddD => ⟨.pbAddD, 0x2B000000#32, 0xFF0FFFFF#32⟩
  | .pbAddBytes => ⟨.pbAddBytes, 0x2C000000#32, 0xFF0F00FF#32⟩
  | .pbGetUb => ⟨.pbGetUb, 0x30000000#32, 0xFF0FFFFF#32⟩
  | .pbGetUh => ⟨.pbGetUh, 0x31000000#32, 0xFF0FFFFF#32⟩
  | .pbGetUw => ⟨.pbGetUw, 0x32000000#32, 0xFF0FFFFF#32⟩
  | .pbGetD => ⟨.pbGetD, 0x33000000#32, 0xFF0FFFFF#32⟩
  | .pbGetSb => ⟨.pbGetSb, 0x34000000#32, 0xFF0FFFFF#32⟩
  | .pbGetSh => ⟨.pbGetSh, 0x35000000#32, 0xFF0FFFFF#32⟩
  | .pbGetSw => ⟨.pbGetSw, 0x36000000#32, 0xFF0FFFFF#32⟩
  | .pbGetBytes => ⟨.pbGetBytes, 0x38000000#32, 0xFF0F00FF#32⟩
  | .csum => ⟨.csum, 0x40000000#32, 0xFFFF00FF#32⟩
  | .send => ⟨.send, 0x50000000#32, 0xFF0000FF#32⟩
  | .sendT => ⟨.sendT, 0x51000000#32, 0xFF000000#32⟩
  | .receive => ⟨.receive, 0x60000000#32, 0xFF00FFFF#32⟩
  | .rxReset => ⟨.rxReset, 0x61000000#32, 0xFFF0FFFF#32⟩
  | .cfgWraddr => ⟨.cfgWraddr, 0x70000000#32, 0xFFFF00FF#32⟩
  | .cfgRdaddr => ⟨.cfgRdaddr, 0x71000000#32, 0xFFFFFFFF#32⟩
  | .sysReset => ⟨.sysReset, 0x7F000000#32, 0xFFFFFFFF#32⟩

/-- The bytes of a frame numbered as a table word numbers them (bits 7:0 first on the wire): a SYN and a legal LEN of
value `L` are followed by exactly `L` more bytes (30_encoding.md rule R93); an illegal LEN byte ends the attempt
(43_receive.md rule R217). Bytes above the word are 0. -/
def wireBytesOf (w : Nat) : List Byte :=
  let len := BitVec.ofNat 8 (w / 256)
  let n := if Machine.lenLegal Config.default len then len.toNat + 2 else 2
  (List.range n).map (fun i => BitVec.ofNat 8 (w / 256 ^ i))

/-- The instruction read from a table word: 32 bits are a command word, whose scalar operand and span bytes are zero; any
other width is the wire frame's, arriving on channel 0. -/
def decodeTableWord (nbits w : Nat) : Option Instr :=
  let t : Transaction :=
    if nbits = 32 then .command (BitVec.ofNat 32 w) 0 (List.replicate (spanNeed (BitVec.ofNat 32 w)) 0)
    else .wire 0 (wireBytesOf w)
  match decode t with
  | .ok i => some i
  | .error _ => none

end Sys2Proof
end

