-- ==== Sys2Proof/Machine/State.lean ====
section
/-! DEFINITION. The state of the SimpleComm frame core and of its environment (10_state.md rules R20 to R37), its reset value
and the reasons a step can stop. Plain data throughout. -/

namespace Sys2Proof.Machine

/-- One packet buffer `PB[p]` (10_state.md rule R22). `LEN` is the length of `payload`, which holds exactly the bytes with
a specified value (R24; log 6). -/
structure PacketBuffer where
  dst : Byte
  src : Byte
  typ : Byte
  payload : List Byte
deriving DecidableEq, Repr

/-- A packet buffer after reset (R37): an empty packet with header bytes 0. -/
def PacketBuffer.empty : PacketBuffer := ⟨0, 0, 0, []⟩

/-- The status of a response (30_encoding.md rule R106). -/
inductive Status where
  | ok
  | payloadTooLarge
  | partialWrite
  | illegalCommand
deriving DecidableEq, Repr

/-- The event label of a byte step (60_exceptions.md rule R290). -/
inductive Event where
  | appended
  | discarded
  | lengthOutOfRange
  | checksumMismatch
  | addressMismatch
  | accepted
deriving DecidableEq, Repr

/-- The response to a command (30_encoding.md rule R106). A result the command does not have is 0, false or empty; `rlen`
is the length of `rspan`. -/
structure Response where
  status : Status
  flag : Bool := false
  rdata : Scalar := 0
  rspan : List Byte := []
deriving DecidableEq, Repr

/-- What a transport's send side does with one write request (20_memory.md rule R69, 70_reset_and_hazards.md rule R331):
it answers a count, or it never answers. -/
inductive WriteAnswer where
  | count (w : WriteCount)
  | silent
deriving DecidableEq, Repr

/-- The transport of one channel: environment state (10_state.md rule R21). `rxq` is `RXQ[ch]`, head first (20_memory.md rule
R66); `answers` what it will do with the next write requests; `writes` its record of the requests made, oldest first. -/
structure Transport where
  rxq : List Byte
  answers : List WriteAnswer
  writes : List (List Byte)
deriving DecidableEq, Repr

/-- A host command not yet taken: what stands on the command port (30_encoding.md rules R100, R111). -/
structure HostCommand where
  word : CmdWord
  wdata : Scalar
deriving DecidableEq, Repr

/-- Who moves next (00_scope.md rule R16; log 3): the core, the receive side of a channel's transport, which adds
bytes to its queue, or the reset pin (30_encoding.md rule R110). -/
inductive Turn where
  | core
  | deliver (ch : ChIndex) (bytes : List Byte)
  | resetPin
deriving DecidableEq, Repr

/-- A command in progress between two steps: a RECEIVE between two passes of its loop (43_receive.md rule R226), or a SEND
whose write request the transport has not answered (70_reset_and_hazards.md rule R331). -/
inductive Job where
  | receive (p : PbIndex) (ch : ChIndex)
  | awaitWrite
deriving DecidableEq, Repr

/-- The whole state. -/
structure State where
  /-- The build parameters; no step changes them (00_scope.md rule R16; log 2). -/
  cfg : Config
  /-- `PB[0] .. PB[N_PB-1]` (10_state.md rule R22). -/
  buffers : List PacketBuffer
  /-- `LOCAL_ADDR` (R31). -/
  localAddr : Byte
  /-- Per channel `SCRATCH[ch]`: the bytes below the cursor; `CURSOR[ch]` is the list's length (R26, R28; log 7). -/
  parsers : List (List Byte)
  /-- The command in progress, if any (20_memory.md rule R70, 70_reset_and_hazards.md rule R331). -/
  job : Option Job
  /-- Environment: the transport of each channel (R21). -/
  transports : List Transport
  /-- Environment: the commands the host has yet to issue, next first. -/
  commands : List HostCommand
  /-- Environment: the input span bytes the host has yet to hand over (30_encoding.md rule R114). -/
  spanIn : List Byte
  /-- Environment: who moves next; when empty, the core (log 3). -/
  turns : List Turn
  /-- Observation: the responses given, oldest first; no rule reads them (60_exceptions.md rule R271; log 12). -/
  responses : List Response
  /-- Observation: the event labels emitted, oldest first; no rule reads them (R290; log 12). -/
  events : List (ChIndex × Event)
  /-- The model's own: how many free values have been drawn (log 8). -/
  draws : Nat
deriving DecidableEq, Repr

/-- Why the machine stops with a fault. -/
inductive Fault where
  /-- Raised by `execFrame` when bytes are handed over on a channel the machine does not have (`ch ≥ N_CH`): there is no
  such wire. Safe: the model stops and no claim about a next state follows (log 14). -/
  | absentChannel
deriving DecidableEq, Repr

/-- Why an instruction has no meaning. -/
inductive Refusal where
  /-- Raised by `exec` for an instruction that has no meaning yet; no arm does. Safe: the model stops. -/
  | notModelled (mnemonic : String)
deriving DecidableEq, Repr

/-- What a meaning answers. -/
abbrev Out := Host.Outcome State Fault Refusal

/-- The machine with configuration `c` right after reset (10_state.md rule R37), with an idle environment (log 15). -/
def State.initial (c : Config) : State where
  cfg := c
  buffers := List.replicate c.nPb PacketBuffer.empty
  localAddr := 0x00#8
  parsers := List.replicate c.nCh []
  job := none
  transports := List.replicate c.nCh ⟨[], [], []⟩
  commands := []
  spanIn := []
  turns := []
  responses := []
  events := []
  draws := 0

/-- The machine with the default configuration right after reset. -/
def State.reset : State := State.initial Config.default

end Sys2Proof.Machine
end

