-- ==== Sys2Proof/Machine/Operands.lean ====
section
/-! DEFINITION. Operand and result forms: scalars as payload bytes, extension of results, status and event codes
(00_scope.md rule R19, 40_packet_buffer.md rule R132, 30_encoding.md rules R102 and R106). -/

namespace Sys2Proof.Machine

/-- `le_bytes_N(v)` for the low `8N` bits of a 64-bit operand, least significant byte first (20_memory.md rule R62); the
bits of the operand above them are ignored (R102). -/
def leBytes (n : Nat) (v : Scalar) : List Byte := (List.range n).map (fun i => v.extractLsb' (8 * i) 8)

/-- `le_val(s)`: the unsigned number whose byte `i` is `s[i]` (R19). -/
def leVal : List Byte → Nat
  | [] => 0
  | b :: s => b.toNat + 256 * leVal s

/-- `zext_64(le_val(s))` (R132). -/
def zextBytes (s : List Byte) : Scalar := BitVec.ofNat 64 (leVal s)

/-- `sext_64(le_val(s))`: sign extension from the `8 * len(s)` bits of `s` (R132). -/
def sextBytes (s : List Byte) : Scalar := (BitVec.ofNat (8 * s.length) (leVal s)).signExtend 64

/-- `zext_64` of a byte. -/
def zextByte (b : Byte) : Scalar := b.zeroExtend 64

/-- The status codes of R106. -/
def Status.code : Status → BitVec 4
  | .ok => 0#4
  | .payloadTooLarge => 1#4
  | .partialWrite => 2#4
  | .illegalCommand => 3#4

/-- The source's single signal: `ok = (status = 0)` (R106). -/
def Response.isOk (r : Response) : Bool := r.status.code == 0

/-- `rlen`: how many bytes the output span has (R106). -/
def Response.rlen (r : Response) : BitVec 8 := BitVec.ofNat 8 r.rspan.length

/-- The event codes of R290. -/
def Event.code : Event → BitVec 3
  | .appended => 0#3
  | .discarded => 1#3
  | .lengthOutOfRange => 2#3
  | .checksumMismatch => 3#3
  | .addressMismatch => 4#3
  | .accepted => 5#3

end Sys2Proof.Machine
end

