-- ==== Sys2Proof/Machine/Ops.lean ====
section
/-! DEFINITION. The named operations every meaning is built from: access to the buffers, parsers and transports, the responses,
`raise`, the index checks, payload reads and stores, the transport primitives, and reset (00_scope.md rule R19). -/

namespace Sys2Proof.Machine

/-- `PB[p].LEN` (10_state.md rules R22, R24). -/
def PacketBuffer.len (b : PacketBuffer) : Nat := b.payload.length

namespace State

/-- `PB[p]`. -/
def pb (s : State) (p : PbIndex) : PacketBuffer := s.buffers.getD p.toNat PacketBuffer.empty

/-- Replace `PB[p]`. -/
def setPb (s : State) (p : PbIndex) (b : PacketBuffer) : State := { s with buffers := s.buffers.set p.toNat b }

/-- `SCRATCH[ch]` below the cursor. -/
def parser (s : State) (ch : ChIndex) : List Byte := s.parsers.getD ch.toNat []

/-- Replace the parser state of a channel. -/
def setParser (s : State) (ch : ChIndex) (sc : List Byte) : State := { s with parsers := s.parsers.set ch.toNat sc }

/-- `CURSOR[ch]` (10_state.md rule R26). -/
def cursor (s : State) (ch : ChIndex) : Nat := (s.parser ch).length

/-- The transport of a channel. -/
def transport (s : State) (ch : ChIndex) : Transport := s.transports.getD ch.toNat ⟨[], [], []⟩

/-- Replace the transport of a channel. -/
def setTransport (s : State) (ch : ChIndex) (t : Transport) : State :=
  { s with transports := s.transports.set ch.toNat t }

/-- `RXQ[ch]` (20_memory.md rule R66). -/
def rxq (s : State) (ch : ChIndex) : List Byte := (s.transport ch).rxq

/-- Replace `RXQ[ch]`. -/
def setRxq (s : State) (ch : ChIndex) (q : List Byte) : State :=
  s.setTransport ch { s.transport ch with rxq := q }

/-- `T.avail(ch)` (20_memory.md rule R67). -/
def avail (s : State) (ch : ChIndex) : Nat := (s.rxq ch).length

/-- The command ends with a response: it is given to the host and nothing of the command is kept
(60_exceptions.md rule R271, 30_encoding.md rule R111). -/
def respond (s : State) (r : Response) : State := { s with responses := s.responses ++ [r], job := none }

/-- `return` of a command whose only result is the status `OK` (00_scope.md rule R19). -/
def done (s : State) : State := s.respond { status := .ok }

/-- `return v` (R19). -/
def answer (s : State) (v : Scalar) : State := s.respond { status := .ok, rdata := v }

/-- A command that returns a span (R106). -/
def answerSpan (s : State) (bytes : List Byte) : State := s.respond { status := .ok, rspan := bytes }

/-- `raise E`: the one way a command fails. The command ends here with status `E`; what was written before stays
written, nothing is saved, no mode changes and control goes nowhere (R19, 60_exceptions.md rule R280). There is no return from it
(R282). -/
def raise (s : State) (e : Status) : State := s.respond { status := e }

/-- An illegal word: no state change, status `IllegalCommand`, every other result 0 (30_encoding.md rule R103). -/
def illegal (s : State) : State := s.raise .illegalCommand

/-- The byte step emits its event label (60_exceptions.md rule R290). -/
def emit (s : State) (ch : ChIndex) (e : Event) : State := { s with events := s.events ++ [(ch, e)] }

/-- Reset of the core (10_state.md rule R37, 70_reset_and_hazards.md rule R311): every cursor 0, `LOCAL_ADDR` 0, every packet
buffer empty with header bytes 0, a command in progress abandoned. The transports are not touched. The configuration is not state, and
the host's lists, the observations and the draw counter are not the core's. -/
def resetCore (s : State) : State :=
  { s with
    buffers := List.replicate s.cfg.nPb PacketBuffer.empty
    localAddr := 0x00#8
    parsers := List.replicate s.cfg.nCh []
    job := none }

end State

/-- The index check of a command that names a packet buffer: `p ≥ N_PB` is an illegal word (30_encoding.md rule R103). -/
def ifBuffer (p : PbIndex) (s : State) (k : Out) : Out :=
  if p.toNat < s.cfg.nPb then k else .next s.illegal

/-- The index check of a command that names a channel: `ch ≥ N_CH` is an illegal word (R103). -/
def ifChannel (ch : ChIndex) (s : State) (k : Out) : Out :=
  if ch.toNat < s.cfg.nCh then k else .next s.illegal

/-- `MemRead(PB[p], 0, n)`: the payload bytes from index 0; each byte at an index at or beyond `LEN` is unspecified, a fresh
free value, the first of them the `d`-th drawn (40_packet_buffer.md rule R133; log 8). -/
def memRead (b : PacketBuffer) (n d : Nat) : List Byte :=
  b.payload.take n ++ (List.range (n - b.len)).map (fun k => Config.freeByte (d + k))

/-- `MemWrite(PB[p], a, len(s), s)` followed by `PB[p].LEN <- a + len(s)`: bytes below `a` stay, the header stays
(00_scope.md rule R19, 10_state.md rule R25). -/
def PacketBuffer.store (b : PacketBuffer) (a : Nat) (s : List Byte) : PacketBuffer :=
  { b with payload := b.payload.take a ++ s }

/-- The common pseudocode of the sets (40_packet_buffer.md sections 4, rules R134, R138 to R142). -/
def setPayload (p : PbIndex) (bytes : List Byte) (s : State) : Out :=
  ifBuffer p s <|
    .next (if bytes.length > s.cfg.maxDataLen then s.raise .payloadTooLarge
      else (s.setPb p ((s.pb p).store 0 bytes)).done)

/-- The common pseudocode of the adds (40_packet_buffer.md section 5, rules R135, R143 to R147); the capacity sum does not wrap. -/
def addPayload (p : PbIndex) (bytes : List Byte) (s : State) : Out :=
  ifBuffer p s <|
    .next (if (s.pb p).len + bytes.length > s.cfg.maxDataLen then s.raise .payloadTooLarge
      else (s.setPb p ((s.pb p).store (s.pb p).len bytes)).done)

/-- A read of `n` payload bytes from index 0, whose response is made from the bytes; the free values it draws are counted
(40_packet_buffer.md section 6, rule R133). -/
def getPayload (p : PbIndex) (n : Nat) (result : List Byte → Response) (s : State) : Out :=
  ifBuffer p s <|
    .next ({ s with draws := s.draws + (n - (s.pb p).len) }.respond (result (memRead (s.pb p) n s.draws)))

/-- The unsigned scalar get of `n` bytes (R148 to R151). -/
def getUnsigned (p : PbIndex) (n : Nat) (s : State) : Out :=
  getPayload p n (fun bytes => { status := .ok, rdata := zextBytes bytes }) s

/-- The signed scalar get of `n` bytes (R152 to R154). -/
def getSigned (p : PbIndex) (n : Nat) (s : State) : Out :=
  getPayload p n (fun bytes => { status := .ok, rdata := sextBytes bytes }) s

/-- What a transport answers to its next write request, if it answers: the count the environment lists; nothing when it lists
silence; a free count, the `d`-th value drawn, when it lists nothing (20_memory.md rule R69; log 9, log 10). -/
def writeAnswer (t : Transport) (d : Nat) : Option WriteCount :=
  match t.answers with
  | [] => some (Config.freeCount d)
  | .count w :: _ => some w
  | .silent :: _ => none

/-- `T.write(ch, F)` as the state sees it: the request is recorded, the listed answer is used up, and a free count, if one was
drawn, is counted (R69). -/
def State.writeRequest (s : State) (ch : ChIndex) (frame : List Byte) : State :=
  let t := s.transport ch
  { s.setTransport ch { t with answers := t.answers.tail, writes := t.writes ++ [frame] } with
    draws := s.draws + (if t.answers.isEmpty then 1 else 0) }

/-- The link adds bytes at the tail of `RXQ[ch]` (20_memory.md rule R66). -/
def State.deliver (s : State) (ch : ChIndex) (bytes : List Byte) : State := s.setRxq ch (s.rxq ch ++ bytes)

end Sys2Proof.Machine
end

