-- ==== Sys2Proof/Machine/Checksum.lean ====
section
/-! DEFINITION. The checksum command (41_checksum.md). -/

namespace Sys2Proof.Machine

/-- CSUM (rule R184): reads and writes no state of the core. -/
def execCsum (span : List Byte) (s : State) : Out := .next (s.answer (zextByte (csumOf s.cfg span)))

end Sys2Proof.Machine
end

