-- ==== Sys2Proof/Machine/PacketBuffer.lean ====
section
/-! DEFINITION. The packet buffer commands (40_packet_buffer.md). -/

namespace Sys2Proof.Machine

/-- PB.CLEAR (rule R136): the length becomes 0, the header registers stay. -/
def execPbClear (p : PbIndex) (s : State) : Out :=
  ifBuffer p s <| .next (s.setPb p ((s.pb p).store 0 [])).done

/-- PB.LENGTH (R137). -/
def execPbLength (p : PbIndex) (s : State) : Out :=
  ifBuffer p s <| .next (s.answer (BitVec.ofNat 64 (s.pb p).len))

/-- PB.RAW (R156): the payload bytes, none beyond the length. -/
def execPbRaw (p : PbIndex) (s : State) : Out :=
  ifBuffer p s <| .next (s.answerSpan (s.pb p).payload)

/-- The header register a selector names (R157). -/
def readHdr (b : PacketBuffer) : HdrField → Byte
  | .dst => b.dst
  | .src => b.src
  | .typ => b.typ

/-- Write the header register a selector names (R158). -/
def writeHdr (b : PacketBuffer) (f : HdrField) (v : Byte) : PacketBuffer :=
  match f with
  | .dst => { b with dst := v }
  | .src => { b with src := v }
  | .typ => { b with typ := v }

/-- PB.RDHDR (R157). -/
def execPbRdhdr (p : PbIndex) (f : HdrField) (s : State) : Out :=
  ifBuffer p s <| .next (s.answer (zextByte (readHdr (s.pb p) f)))

/-- PB.WRHDR (R158). -/
def execPbWrhdr (p : PbIndex) (f : HdrField) (v : Byte) (s : State) : Out :=
  ifBuffer p s <| .next (s.setPb p (writeHdr (s.pb p) f v)).done

/-- PB.SET.B (R138). -/
def execPbSetB (p : PbIndex) (wdata : Scalar) (s : State) : Out := setPayload p (leBytes 1 wdata) s

/-- PB.SET.H (R139). -/
def execPbSetH (p : PbIndex) (wdata : Scalar) (s : State) : Out := setPayload p (leBytes 2 wdata) s

/-- PB.SET.W (R140). -/
def execPbSetW (p : PbIndex) (wdata : Scalar) (s : State) : Out := setPayload p (leBytes 4 wdata) s

/-- PB.SET.D (R141). -/
def execPbSetD (p : PbIndex) (wdata : Scalar) (s : State) : Out := setPayload p (leBytes 8 wdata) s

/-- PB.SET.BYTES (R142). -/
def execPbSetBytes (p : PbIndex) (span : List Byte) (s : State) : Out := setPayload p span s

/-- PB.ADD.B (R143). -/
def execPbAddB (p : PbIndex) (wdata : Scalar) (s : State) : Out := addPayload p (leBytes 1 wdata) s

/-- PB.ADD.H (R144). -/
def execPbAddH (p : PbIndex) (wdata : Scalar) (s : State) : Out := addPayload p (leBytes 2 wdata) s

/-- PB.ADD.W (R145). -/
def execPbAddW (p : PbIndex) (wdata : Scalar) (s : State) : Out := addPayload p (leBytes 4 wdata) s

/-- PB.ADD.D (R146). -/
def execPbAddD (p : PbIndex) (wdata : Scalar) (s : State) : Out := addPayload p (leBytes 8 wdata) s

/-- PB.ADD.BYTES (R147). -/
def execPbAddBytes (p : PbIndex) (span : List Byte) (s : State) : Out := addPayload p span s

/-- PB.GET.UB (R148). -/
def execPbGetUb (p : PbIndex) (s : State) : Out := getUnsigned p 1 s

/-- PB.GET.UH (R149). -/
def execPbGetUh (p : PbIndex) (s : State) : Out := getUnsigned p 2 s

/-- PB.GET.UW (R150). -/
def execPbGetUw (p : PbIndex) (s : State) : Out := getUnsigned p 4 s

/-- PB.GET.D (R151). -/
def execPbGetD (p : PbIndex) (s : State) : Out := getUnsigned p 8 s

/-- PB.GET.SB (R152). -/
def execPbGetSb (p : PbIndex) (s : State) : Out := getSigned p 1 s

/-- PB.GET.SH (R153). -/
def execPbGetSh (p : PbIndex) (s : State) : Out := getSigned p 2 s

/-- PB.GET.SW (R154). -/
def execPbGetSw (p : PbIndex) (s : State) : Out := getSigned p 4 s

/-- PB.GET.BYTES (R155). -/
def execPbGetBytes (p : PbIndex) (n : Byte) (s : State) : Out :=
  getPayload p n.toNat (fun bytes => { status := .ok, rspan := bytes }) s

end Sys2Proof.Machine
end

