-- ==== Sys2Proof/Machine/Receive.lean ====
section
/-! DEFINITION. Receive: the frame synchronizer and parser, its byte step, RECEIVE and RX.RESET (43_receive.md). -/

namespace Sys2Proof.Machine

/-- What a byte step leaves: the scratch bytes below the new cursor, the one event label, and the packet of an accepted
frame (43_receive.md rule R212). -/
structure RxResult where
  scratch : List Byte
  event : Event
  packet : Option PacketBuffer
deriving DecidableEq, Repr

/-- Byte step in Idle (R216): SYN detection. -/
def rxIdle (b : Byte) : RxResult :=
  if b = Config.syn then ⟨[b], .appended, none⟩ else ⟨[], .discarded, none⟩

/-- Byte step in LengthPending (R217, R224): an illegal LEN is not stored and not looked at again. -/
def rxLength (c : Config) (sc : List Byte) (b : Byte) : RxResult :=
  if lenLegal c b then ⟨sc ++ [b], .appended, none⟩ else ⟨[], .lengthOutOfRange, none⟩

/-- The packet of a complete frame (R223): DST, SRC, TYPE and the `L - 4` payload bytes. -/
def rxPacket (sc : List Byte) : PacketBuffer :=
  { dst := sc.getD 2 0
    src := sc.getD 3 0
    typ := sc.getD 4 0
    payload := (sc.drop 5).take ((sc.getD 1 0).toNat - 4) }

/-- A structurally complete frame (R220): first the checksum over scratch indices `2 .. L` against index `L + 1` (R221), then
the destination filter (R222), then acceptance (R223). The cursor is 0 afterwards in every case. -/
def rxComplete (c : Config) (localAddr : Byte) (sc : List Byte) : RxResult :=
  let l := (sc.getD 1 0).toNat
  if csumOf c ((sc.drop 2).take (l - 1)) ≠ sc.getD (l + 1) 0 then ⟨[], .checksumMismatch, none⟩
  else if filterPasses localAddr (sc.getD 2 0) then ⟨[], .accepted, some (rxPacket sc)⟩
  else ⟨[], .addressMismatch, none⟩

/-- Byte step in Accumulating (R218, R219): append whatever the byte's value, then test for completion. -/
def rxAccumulate (c : Config) (localAddr : Byte) (sc : List Byte) (b : Byte) : RxResult :=
  let sc' := sc ++ [b]
  if sc'.length > Config.synLen + Config.lenLen + Config.hdrLen
      ∧ sc'.length = Config.synLen + Config.lenLen + (sc.getD 1 0).toNat then
    rxComplete c localAddr sc'
  else ⟨sc', .appended, none⟩

/-- The byte step of a parser (R211, R212): it dispatches on the cursor, and depends on the parser state, `LOCAL_ADDR` and the
byte alone (R230). -/
def rxByte (c : Config) (localAddr : Byte) (sc : List Byte) (b : Byte) : RxResult :=
  match sc.length with
  | 0 => rxIdle b
  | 1 => rxLength c sc b
  | _ => rxAccumulate c localAddr sc b

/-- Copy an accepted packet into `PB[p]`; nothing when there is none (R223). -/
def State.takePacket (s : State) (p : PbIndex) : Option PacketBuffer → State
  | none => s
  | some pkt => s.setPb p pkt

/-- `RXSTEP(ch, p, b)` on the state (R212): the parser of `ch` moves, one event is emitted, and `PB[p]` is written on
acceptance only. -/
def State.rxStep (s : State) (p : PbIndex) (ch : ChIndex) (b : Byte) : State :=
  let r := rxByte s.cfg s.localAddr (s.parser ch) b
  ((s.setParser ch r.scratch).emit ch r.event).takePacket p r.packet

/-- `accepted` of the byte step (R212). -/
def State.rxAccepts (s : State) (ch : ChIndex) (b : Byte) : Bool :=
  (rxByte s.cfg s.localAddr (s.parser ch) b).packet.isSome

/-- The response of a RECEIVE (30_encoding.md rule R106): the flag is 1 when a packet is ready. -/
def receiveResponse (ready : Bool) : Response := { status := .ok, flag := ready }

/-- RECEIVE (R226): one pass of its loop. Nothing available ends the command with "not yet"; otherwise one byte is
consumed and stepped, and acceptance ends the command at once (R227); otherwise the command stays in progress and its next pass is
the core's next move. -/
def execReceive (p : PbIndex) (ch : ChIndex) (s : State) : Out :=
  ifBuffer p s <| ifChannel ch s <|
    .next (match s.rxq ch with
      | [] => s.respond (receiveResponse false)
      | b :: rest =>
        let s1 := (s.setRxq ch rest).rxStep p ch b
        if s.rxAccepts ch b then s1.respond (receiveResponse true)
        else { s1 with job := some (.receive p ch) })

/-- The byte steps of a RECEIVE `ch`, `p` over the bytes now available, until one is accepted or none is left. -/
def drain (p : PbIndex) (ch : ChIndex) : List Byte → State → State
  | [], s => s.setRxq ch []
  | b :: rest, s =>
    if s.rxAccepts ch b then ((s.rxStep p ch b).setRxq ch rest).respond (receiveResponse true)
    else drain p ch rest (s.rxStep p ch b)

/-- A whole RECEIVE `ch`, `p` when no byte arrives while it runs (R226): the available bytes are stepped until one is
accepted; if none is, the answer is "not yet". The core runs RECEIVE pass by pass (`execReceive`); this is the whole command at once. -/
def receiveAll (p : PbIndex) (ch : ChIndex) (s : State) : State :=
  let t := drain p ch (s.rxq ch) { s with job := some (.receive p ch) }
  if t.job.isNone then t else t.respond (receiveResponse false)

/-- RX.RESET (R229): the channel's cursor becomes 0; the transport's queue is left as it is. -/
def execRxReset (ch : ChIndex) (s : State) : Out :=
  ifChannel ch s <| .next (s.setParser ch []).done

end Sys2Proof.Machine
end

