-- ==== Sys2Proof/Machine/Send.lean ====
section
/-! DEFINITION. The send commands: the one-shot frame encoder (42_send.md). -/

namespace Sys2Proof.Machine

/-- The checksum region of an outgoing frame: DST, SRC, TYPE, DATA (41_checksum.md rule R182). -/
def sendRegion (b : PacketBuffer) : List Byte := [b.dst, b.src, b.typ] ++ b.payload

/-- Steps 3 and 4 (42_send.md rules R195, R196): SYN, `LEN = 3 + n + 1`, the region, and the checksum of the region. -/
def frameOf (c : Config) (b : PacketBuffer) : List Byte :=
  [Config.syn, BitVec.ofNat 8 (Config.hdrLen + b.len + Config.crcLen)] ++ sendRegion b ++ [csumOf c (sendRegion b)]

/-- Step 1, stamping: the packet buffer itself is changed (R193). SEND leaves TYPE as it is (R191), SEND.T writes it (R192). -/
def stamp (b : PacketBuffer) (localAddr dst : Byte) (typ : Option Byte) : PacketBuffer :=
  { b with src := localAddr, dst := dst, typ := typ.getD b.typ }

/-- Step 5 (R197): one write request with the whole frame; `OK` exactly when the count answered is the frame length, else
`PartialWrite`, with no retry. A transport that never answers leaves the command in progress (70_reset_and_hazards.md rule R331). -/
def sendWrite (ch : ChIndex) (frame : List Byte) (s : State) : State :=
  match writeAnswer (s.transport ch) s.draws with
  | some w => (s.writeRequest ch frame).respond
      { status := if w.toNat = frame.length then .ok else .partialWrite }
  | none => { s.writeRequest ch frame with job := some .awaitWrite }

/-- The five steps of `send` (R190, R191): stamp, check the length, serialise, checksum, write. The stamping stays when the
check fails (R194). -/
def sendPacket (p : PbIndex) (ch : ChIndex) (dst : Byte) (typ : Option Byte) (s : State) : Out :=
  ifBuffer p s <| ifChannel ch s <|
    let b := stamp (s.pb p) s.localAddr dst typ
    let s1 := s.setPb p b
    .next (if b.len > s.cfg.maxDataLen then s1.raise .payloadTooLarge
      else sendWrite ch (frameOf s.cfg b) s1)

/-- SEND (R191). -/
def execSend (p : PbIndex) (ch : ChIndex) (dst : Byte) (s : State) : Out := sendPacket p ch dst none s

/-- SEND.T (R192). -/
def execSendT (p : PbIndex) (ch : ChIndex) (dst typ : Byte) (s : State) : Out := sendPacket p ch dst (some typ) s

end Sys2Proof.Machine
end

