-- ==== Sys2Proof/Machine/System.lean ====
section
/-! DEFINITION. The configuration and system commands (44_system.md). -/

namespace Sys2Proof.Machine

/-- CFG.WRADDR (rule R250): writes `LOCAL_ADDR` and nothing else. -/
def execCfgWraddr (addr : Byte) (s : State) : Out := .next { s with localAddr := addr }.done

/-- CFG.RDADDR (R251). -/
def execCfgRdaddr (s : State) : Out := .next (s.answer (zextByte s.localAddr))

/-- SYS.RESET (R252): the effect of the reset pin, then the response. -/
def execSysReset (s : State) : Out := .next s.resetCore.done

end Sys2Proof.Machine
end

