-- ==== Sys2Proof/Machine/Wire.lean ====
section
/-! DEFINITION. The wire frame: bytes handed over by the transport of a channel (30_encoding.md rule R90). -/

namespace Sys2Proof.Machine

/-- FRAME: the bytes arrive, that is, they join the tail of `RXQ[ch]` (20_memory.md rule R66), whatever the core is doing. The core
takes them from there by the byte steps of a RECEIVE, each a move of its own (00_scope.md rule R16, 43_receive.md rules R216 to R223 and
R226; log 13). A channel the machine does not have has no wire (log 14). -/
def execFrame (ch : ChIndex) (bytes : List Byte) (s : State) : Out :=
  if ch.toNat < s.cfg.nCh then .next (s.deliver ch bytes) else .fault .absentChannel

end Sys2Proof.Machine
end

