-- ==== Sys2Proof/Machine/Dispatch.lean ====
section
/-! DEFINITION. The meaning of every instruction: one arm per constructor of Instr. -/

namespace Sys2Proof.Machine

def exec (i : Instr) (s : State) : Host.Outcome State Fault Refusal :=
  match i with
  | .pbClear p => Sys2Proof.Machine.execPbClear p s
  | .pbLength p => Sys2Proof.Machine.execPbLength p s
  | .pbRaw p => Sys2Proof.Machine.execPbRaw p s
  | .pbRdhdr p f => Sys2Proof.Machine.execPbRdhdr p f s
  | .pbWrhdr p f v => Sys2Proof.Machine.execPbWrhdr p f v s
  | .pbSetB p wdata => Sys2Proof.Machine.execPbSetB p wdata s
  | .pbSetH p wdata => Sys2Proof.Machine.execPbSetH p wdata s
  | .pbSetW p wdata => Sys2Proof.Machine.execPbSetW p wdata s
  | .pbSetD p wdata => Sys2Proof.Machine.execPbSetD p wdata s
  | .pbSetBytes p span => Sys2Proof.Machine.execPbSetBytes p span s
  | .pbAddB p wdata => Sys2Proof.Machine.execPbAddB p wdata s
  | .pbAddH p wdata => Sys2Proof.Machine.execPbAddH p wdata s
  | .pbAddW p wdata => Sys2Proof.Machine.execPbAddW p wdata s
  | .pbAddD p wdata => Sys2Proof.Machine.execPbAddD p wdata s
  | .pbAddBytes p span => Sys2Proof.Machine.execPbAddBytes p span s
  | .pbGetUb p => Sys2Proof.Machine.execPbGetUb p s
  | .pbGetUh p => Sys2Proof.Machine.execPbGetUh p s
  | .pbGetUw p => Sys2Proof.Machine.execPbGetUw p s
  | .pbGetD p => Sys2Proof.Machine.execPbGetD p s
  | .pbGetSb p => Sys2Proof.Machine.execPbGetSb p s
  | .pbGetSh p => Sys2Proof.Machine.execPbGetSh p s
  | .pbGetSw p => Sys2Proof.Machine.execPbGetSw p s
  | .pbGetBytes p n => Sys2Proof.Machine.execPbGetBytes p n s
  | .csum span => Sys2Proof.Machine.execCsum span s
  | .send p ch dst => Sys2Proof.Machine.execSend p ch dst s
  | .sendT p ch dst typ => Sys2Proof.Machine.execSendT p ch dst typ s
  | .receive p ch => Sys2Proof.Machine.execReceive p ch s
  | .rxReset ch => Sys2Proof.Machine.execRxReset ch s
  | .cfgWraddr addr => Sys2Proof.Machine.execCfgWraddr addr s
  | .cfgRdaddr => Sys2Proof.Machine.execCfgRdaddr s
  | .sysReset => Sys2Proof.Machine.execSysReset s
  | .frame ch bytes => Sys2Proof.Machine.execFrame ch bytes s

end Sys2Proof.Machine
end

