-- ==== Sys2Proof/Machine/Fetch.lean ====
section
/-! DEFINITION. What the machine does next: whose turn it is, which command is taken, what it decodes to (00_scope.md rules R15
and R16, 30_encoding.md rules R103, R111, R114). -/

namespace Sys2Proof.Machine

/-- The next move: run an instruction on a state, or settle in a state without running one. -/
inductive Move where
  | run (i : Instr) (s : State)
  | settle (s : State)
deriving DecidableEq, Repr

/-- The input span bytes a command word takes from the host's stream (R114). -/
def State.spanOf (s : State) (w : CmdWord) : List Byte := s.spanIn.take (spanNeed w)

/-- The state after a command is taken: the word and its span bytes are consumed (R111, R114). -/
def State.taken (s : State) (w : CmdWord) (rest : List HostCommand) : State :=
  { s with commands := rest, spanIn := s.spanIn.drop (spanNeed w) }

/-- The core with no command in progress and a command on the port. It waits until the host has handed over the whole span,
then takes the command; an illegal word is answered `IllegalCommand` with its span bytes dropped (R103, R114; 60_exceptions.md rule
R279: decoded first, nothing else is looked at). -/
def takeCommand (s : State) (c : HostCommand) (rest : List HostCommand) : Move :=
  if s.spanIn.length < spanNeed c.word then .settle s
  else
    match decode (.command c.word c.wdata (s.spanOf c.word)) with
    | .ok i => .run i (s.taken c.word rest)
    | .error _ => .settle (s.taken c.word rest).illegal

/-- The core's move. A RECEIVE in progress takes its next pass (43_receive.md rule R226); an unanswered write waits
(70_reset_and_hazards.md rule R331); otherwise the next command is taken, and with none the core waits (R311). -/
def coreMove (s : State) : Move :=
  match s.job with
  | some (.receive p ch) => .run (.receive p ch) s
  | some .awaitWrite => .settle s
  | none =>
    match s.commands with
    | [] => .settle s
    | c :: rest => takeCommand s c rest

/-- The next move of the machine: the head of `turns` says who moves; with none listed, the core (log 3). -/
def fetch (s : State) : Move :=
  match s.turns with
  | [] => coreMove s
  | .core :: ts => coreMove { s with turns := ts }
  | .deliver ch bytes :: ts => .run (.frame ch bytes) { s with turns := ts }
  | .resetPin :: ts => .settle { s with turns := ts }.resetCore

/-- A command word placed on the command port before the host's other commands, with a zero scalar operand and zero span bytes,
no command in progress, and the core to move. -/
def State.placeCommand (s : State) (w : CmdWord) : State :=
  { s with
    job := none
    turns := .core :: s.turns
    commands := ⟨w, 0⟩ :: s.commands
    spanIn := List.replicate (spanNeed w) 0 ++ s.spanIn }

/-- Wire bytes placed on channel 0, the transport to move. -/
def State.placeWire (s : State) (bytes : List Byte) : State := { s with turns := .deliver 0 bytes :: s.turns }

end Sys2Proof.Machine
end

