-- ==== Sys2Proof/Machine/Step.lean ====
section
/-! DEFINITION. One step of the machine, and the placing of an instruction where the next step takes it from (log 16). -/

namespace Sys2Proof.Machine

/-- One step: the next move, run. -/
def step (s : State) : Host.Outcome State Fault Refusal :=
  match fetch s with
  | .run i t => exec i t
  | .settle t => .next t

/-- `s` with the instruction of a table word placed where the next step takes it from: a command word on the command port,
wire bytes at the transport of channel 0. -/
def State.withFetchWord (s : State) (nbits w : Nat) : State :=
  if nbits = 32 then s.placeCommand (BitVec.ofNat 32 w) else s.placeWire (wireBytesOf w)

end Sys2Proof.Machine
end

