-- ==== Sys2Proof/Safety.lean ====
section
/-! DEFINITION. What counts as a good state of the core: the invariants of 10_state.md rules R22, R23, R26 and R29, and the
canonical form of its byte storage (log 22). -/

namespace Sys2Proof.Machine

/-- The byte storage is in canonical form: every payload is exactly its `LEN` bytes, within the capacity (R23, R24), and no
scratch buffer holds more than `SCRATCH_CAP` bytes (R28). -/
abbrev Memory.wf (s : State) : Prop :=
  (∀ b ∈ s.buffers, b.payload.length ≤ s.cfg.maxDataLen) ∧ (∀ sc ∈ s.parsers, sc.length ≤ scratchCap s.cfg)

/-- R29 for one parser: SYN at index 0, a legal LEN `L` at index 1, and a cursor of at most `L + 1`. -/
def parserWf (c : Config) : List Byte → Bool
  | [] => true
  | [a] => a == Config.syn
  | a :: l :: rest => a == Config.syn && lenLegal c l && decide (rest.length + 2 ≤ l.toNat + 1)

/-- A command in progress names what exists. -/
def jobWf (c : Config) : Option Job → Bool
  | some (.receive p ch) => decide (p.toNat < c.nPb) && decide (ch.toNat < c.nCh)
  | some .awaitWrite => true
  | none => true

/-- The invariant of the core between steps. -/
structure State.Inv (s : State) : Prop where
  /-- The build is legal (00_scope.md rules R10, R13). -/
  cfg_legal : s.cfg.Legal
  /-- There are `N_PB` packet buffers (R22). -/
  n_buffers : s.buffers.length = s.cfg.nPb
  /-- There is one parser state per channel (R20). -/
  n_parsers : s.parsers.length = s.cfg.nCh
  /-- There is one transport per channel (00_scope.md rule R13). -/
  n_transports : s.transports.length = s.cfg.nCh
  /-- `PB[p].LEN <= MAX_DATA_LEN` (R23). -/
  len_le : ∀ b ∈ s.buffers, b.payload.length ≤ s.cfg.maxDataLen
  /-- R29, for every channel. -/
  parsers_wf : ∀ sc ∈ s.parsers, parserWf s.cfg sc = true
  /-- The command in progress, if any, names what exists. -/
  job_wf : jobWf s.cfg s.job = true

/-- `k` steps, stopping at the first that does not answer a next state. -/
def steps : Nat → State → Out
  | 0, s => .next s
  | k + 1, s =>
    match step s with
    | .next t => steps k t
    | .fault f => .fault f
    | .refused r => .refused r

/-! The terms in which claims say what an instruction leaves alone. -/

/-- The build, and what belongs to the host and the environment's schedule, is as before. -/
structure SameOutside (s t : State) : Prop where
  cfg : t.cfg = s.cfg
  commands : t.commands = s.commands
  spanIn : t.spanIn = s.spanIn
  turns : t.turns = s.turns

/-- No packet buffer but `PB[p]` differs: every header register, length and payload byte of every other one is as before. -/
structure OnlyPb (p : PbIndex) (s t : State) : Prop where
  count : t.buffers.length = s.buffers.length
  others : ∀ q : PbIndex, q ≠ p → t.pb q = s.pb q

/-- Nothing but `PB[p]`, the responses and the command in progress differs. -/
structure PacketFrame (p : PbIndex) (s t : State) : Prop where
  outside : SameOutside s t
  only : OnlyPb p s t
  localAddr : t.localAddr = s.localAddr
  parsers : t.parsers = s.parsers
  transports : t.transports = s.transports
  events : t.events = s.events
  draws : t.draws = s.draws

/-- Nothing but the responses, the command in progress and the model's draw counter differs: the command writes nothing. -/
structure ReadFrame (s t : State) : Prop where
  outside : SameOutside s t
  buffers : t.buffers = s.buffers
  localAddr : t.localAddr = s.localAddr
  parsers : t.parsers = s.parsers
  transports : t.transports = s.transports
  events : t.events = s.events

/-- Nothing but `PB[p]`, channel `ch` (its parser and its transport), the responses, the events, the command in progress and the
model's draw counter differs. -/
structure ChannelFrame (p : PbIndex) (ch : ChIndex) (s t : State) : Prop where
  outside : SameOutside s t
  only : OnlyPb p s t
  localAddr : t.localAddr = s.localAddr
  nParsers : t.parsers.length = s.parsers.length
  parsers : ∀ c : ChIndex, c ≠ ch → t.parser c = s.parser c
  nTransports : t.transports.length = s.transports.length
  transports : ∀ c : ChIndex, c ≠ ch → t.transport c = s.transport c

/-- The command has ended with the one response `r`. -/
structure Answers (r : Response) (s t : State) : Prop where
  responses : t.responses = s.responses ++ [r]
  job : t.job = none

end Sys2Proof.Machine
end

