-- ==== Sys2Proof/Certificates/Slice0/Obligations.lean ====
section
/-! DEFINITION. The statements for the provers, each from the numbered rules of spec/ its docstring names. -/

namespace Sys2Proof.Machine

/-- Payload byte `i` as a get reads it: the stored byte below `LEN`, a free value at or beyond it, whatever it is
(40_packet_buffer.md rule R133). -/
def payloadByte (s : State) (p : PbIndex) (i : Nat) : Byte :=
  (s.pb p).payload.getD i (Config.freeByte (s.draws + (i - (s.pb p).payload.length)))

/-- What a set of the bytes `bs` leaves (R134, R138 to R142): the payload is the bytes when they fit, else the buffer
is unchanged and the status says so. -/
def SetOutcome (p : PbIndex) (bs : List Byte) (s : State) (o : Out) : Prop :=
  ∃ t, o = .next t ∧ PacketFrame p s t ∧
    (bs.length ≤ s.cfg.maxDataLen →
      t.pb p = { s.pb p with payload := bs } ∧ Answers { status := .ok } s t) ∧
    (s.cfg.maxDataLen < bs.length → t.buffers = s.buffers ∧ Answers { status := .payloadTooLarge } s t)

/-- What an add of the bytes `bs` leaves (R135, R143 to R147). -/
def AddOutcome (p : PbIndex) (bs : List Byte) (s : State) (o : Out) : Prop :=
  ∃ t, o = .next t ∧ PacketFrame p s t ∧
    ((s.pb p).payload.length + bs.length ≤ s.cfg.maxDataLen →
      t.pb p = { s.pb p with payload := (s.pb p).payload ++ bs } ∧ Answers { status := .ok } s t) ∧
    (s.cfg.maxDataLen < (s.pb p).payload.length + bs.length →
      t.buffers = s.buffers ∧ Answers { status := .payloadTooLarge } s t)

/-- What a read that returns `r` and draws `k` free values leaves. -/
def ReadOutcome (r : Response) (k : Nat) (s : State) (o : Out) : Prop :=
  ∃ t, o = .next t ∧ ReadFrame s t ∧ Answers r s t ∧ t.draws = s.draws + k

/-- How many bytes of an `n`-byte get lie at or beyond the length. -/
def beyond (s : State) (p : PbIndex) (n : Nat) : Nat := n - (s.pb p).payload.length

/-- The frame of 30_encoding.md rule R90 for a packet. -/
def wireFrame (c : Config) (dst src typ : Byte) (data : List Byte) : List Byte :=
  [0x02#8, BitVec.ofNat 8 (data.length + 4), dst, src, typ] ++ data ++ [csumOf c ([dst, src, typ] ++ data)]

/-- What a send of the stamped packet `b` on `ch` does to the machine, whatever its status (42_send.md rules R193, R195 to R197): the
packet buffer stamped, one write request of the whole frame; no other buffer, transport, parser or event, not `LOCAL_ADDR`, and not the
channel's receive queue. -/
def HandsOver (p : PbIndex) (ch : ChIndex) (b : PacketBuffer) (s t : State) : Prop :=
  SameOutside s t ∧ OnlyPb p s t ∧ t.pb p = b ∧ t.localAddr = s.localAddr ∧ t.parsers = s.parsers ∧
    t.events = s.events ∧ t.transports.length = s.transports.length ∧
    (∀ c : ChIndex, c ≠ ch → t.transport c = s.transport c) ∧
    t.rxq ch = s.rxq ch ∧
    (t.transport ch).writes = (s.transport ch).writes ++ [wireFrame s.cfg b.dst b.src b.typ b.payload]

/-- What it leaves when the transport's answer is the count `w` (R197): the status by the count. -/
def SentOutcome (p : PbIndex) (ch : ChIndex) (b : PacketBuffer) (w : WriteCount) (s t : State) : Prop :=
  HandsOver p ch b s t ∧
    (w.toNat = b.payload.length + 6 → Answers { status := .ok } s t) ∧
    (w.toNat ≠ b.payload.length + 6 → Answers { status := .partialWrite } s t)

/-- What it leaves when the transport never answers (70_reset_and_hazards.md rule R331): no response and no other answer used up,
and with no other agent moving the core waits for ever. -/
def WaitingOutcome (p : PbIndex) (ch : ChIndex) (b : PacketBuffer) (rest : List WriteAnswer) (s t : State) : Prop :=
  HandsOver p ch b s t ∧ (t.transport ch).answers = rest ∧ t.draws = s.draws ∧ t.responses = s.responses ∧
    t.job = some .awaitWrite ∧ ∀ k, steps k t = .next t

/-- The destination filter of 43_receive.md rule R222. -/
def Passes (localAddr dst : Byte) : Prop := localAddr = 0 ∨ dst = 0 ∨ dst = localAddr

/-- The response of a RECEIVE (30_encoding.md rule R106). -/
def receiveFlag (b : Bool) : Response := { status := .ok, flag := b, rdata := 0, rspan := [] }

end Sys2Proof.Machine

open Sys2Proof Sys2Proof.Machine

/-! ## Encoding -/

/-- Words written out from 30_encoding.md rule R101 and the DEC vectors of 95_test_vectors.md decode as they say. -/
def Obligations.SpecWordsDecode : Prop :=
  decode (.command 0x50000900#32 0 []) = .ok (.send 0 0 9) ∧
  decode (.command 0x51100501#32 0 []) = .ok (.sendT 1 0 5 1) ∧
  decode (.command 0x60100000#32 0 []) = .ok (.receive 1 0) ∧
  decode (.command 0x61000000#32 0 []) = .ok (.rxReset 0) ∧
  decode (.command 0x24100400#32 0 [0x50#8, 0x4F#8, 0x4E#8, 0x47#8]) = .ok (.pbSetBytes 1 [0x50#8, 0x4F#8, 0x4E#8, 0x47#8]) ∧
  decode (.command 0x13100001#32 0 []) = .ok (.pbRdhdr 1 .src) ∧
  decode (.command 0x14004102#32 0 []) = .ok (.pbWrhdr 0 .typ 0x41) ∧
  decode (.command 0x20000000#32 0xFFFFFFFFFFFFFF80#64 []) = .ok (.pbSetB 0 0xFFFFFFFFFFFFFF80#64) ∧
  decode (.command 0x2A000000#32 0xDEADBEEF#64 []) = .ok (.pbAddW 0 0xDEADBEEF#64) ∧
  decode (.command 0x35000000#32 0 []) = .ok (.pbGetSh 0) ∧
  decode (.command 0x38100600#32 0 []) = .ok (.pbGetBytes 1 6) ∧
  decode (.command 0x40000000#32 0 []) = .ok (.csum []) ∧
  decode (.command 0x70000900#32 0 []) = .ok (.cfgWraddr 9) ∧
  decode (.command 0x71000000#32 0 []) = .ok .cfgRdaddr ∧
  decode (.command 0x7F000000#32 0 []) = .ok .sysReset ∧
  decode (.wire 0 [0x02#8, 0x04#8, 0x09#8, 0x05#8, 0x00#8, 0x0E#8])
    = .ok (.frame 0 [0x02#8, 0x04#8, 0x09#8, 0x05#8, 0x00#8, 0x0E#8]) ∧
  decode (.command 0x00000000#32 0 []) = .error .unknownOp ∧
  decode (.command 0x50000901#32 0 []) = .error .unusedFieldNotZero ∧
  decode (.command 0x13000003#32 0 []) = .error .reservedSelector ∧
  decode (.command 0x13000004#32 0 []) = .error .unusedFieldNotZero ∧
  decode (.command 0x10010000#32 0 []) = .error .unusedFieldNotZero ∧
  decode (.command 0x62000000#32 0 []) = .error .unknownOp

/-- Decoding the encoding of a well-formed instruction gives it back, for every instruction and every operand. -/
def Obligations.DecodeEncodeRoundTrip : Prop :=
  ∀ (c : Config) (i : Instr), i.wellFormed c = true → decode (encode i) = .ok i

/-- Encoding what a transaction decodes to gives its word and its span back (the scalar operand too, where the command takes one):
no two words mean the same command and no bit is dropped. -/
def Obligations.EncodeDecodeRoundTrip : Prop :=
  (∀ (w : CmdWord) (d : Scalar) (span : List Byte) (i : Instr), decode (.command w d span) = .ok i →
    ∃ d', encode i = .command w d' span ∧ (d' = d ∨ d' = 0)) ∧
  (∀ (ch : ChIndex) (bytes : List Byte) (i : Instr), decode (.wire ch bytes) = .ok i → encode i = .wire ch bytes)

/-- A word is a command exactly when it lies in a row of the opcode table by `w AND mask = match` and does not carry the reserved
header selector (30_encoding.md rules R101, R103). -/
def Obligations.DecodableExactlyWhenInTable : Prop :=
  ∀ (w : CmdWord) (d : Scalar) (span : List Byte), span.length = spanNeed w →
    ((∃ i, decode (.command w d span) = .ok i) ↔
      ∃ o : Op, w &&& (tableRow o).mask = (tableRow o).mtch ∧
        (o = .pbRdhdr ∨ o = .pbWrhdr → w.extractLsb' 0 2 ≠ 3#2))

/-- The codes of the statuses (30_encoding.md rule R106) and of the event labels (60_exceptions.md rule R290), and the source's
single signal. -/
def Obligations.StatusAndEventCodes : Prop :=
  Status.ok.code = 0#4 ∧ Status.payloadTooLarge.code = 1#4 ∧ Status.partialWrite.code = 2#4 ∧ Status.illegalCommand.code = 3#4 ∧
  Event.appended.code = 0#3 ∧ Event.discarded.code = 1#3 ∧ Event.lengthOutOfRange.code = 2#3 ∧
  Event.checksumMismatch.code = 3#3 ∧ Event.addressMismatch.code = 4#3 ∧ Event.accepted.code = 5#3 ∧
  ∀ r : Response, r.isOk = true ↔ r.status = .ok

/-! ## The step -/

/-- A command word placed where the next step takes its instruction from runs as the meaning of what it decodes to (the model's own:
log 16). -/
def Obligations.PlacedWordRuns : Prop :=
  ∀ (s : State) (w : CmdWord) (i : Instr), decode (.command w 0 (List.replicate (spanNeed w) 0)) = .ok i →
    step (s.withFetchWord 32 w.toNat) = exec i { s with job := none }

/-- When the core is to move, no command is in progress, and the next command word with its span decodes, the step is the meaning
of the decoded instruction on the state with the word, its span and the turn consumed (the lists of turns, commands and span bytes are
the model's form of the environment: logs 3, 4 and 5). -/
def Obligations.StepRunsDecodedInstruction : Prop :=
  ∀ (s : State) (c : HostCommand) (rest : List HostCommand) (i : Instr),
    s.job = none → s.commands = c :: rest → (s.turns = [] ∨ ∃ ts, s.turns = .core :: ts) →
    spanNeed c.word ≤ s.spanIn.length →
    decode (.command c.word c.wdata (s.spanIn.take (spanNeed c.word))) = .ok i →
    step s = exec i { s with
      turns := s.turns.tail, commands := rest, spanIn := s.spanIn.drop (spanNeed c.word) }

/-- An illegal word is answered `IllegalCommand` with every other result 0; only the word, its span bytes and the turn are
consumed (30_encoding.md rules R103, R114; the lists are the model's, logs 3, 4 and 5). -/
def Obligations.StepAnswersIllegalWord : Prop :=
  ∀ (s : State) (c : HostCommand) (rest : List HostCommand) (e : DecodeError),
    s.job = none → s.commands = c :: rest → (s.turns = [] ∨ ∃ ts, s.turns = .core :: ts) →
    spanNeed c.word ≤ s.spanIn.length →
    decode (.command c.word c.wdata (s.spanIn.take (spanNeed c.word))) = .error e →
    step s = .next { s with
      turns := s.turns.tail, commands := rest, spanIn := s.spanIn.drop (spanNeed c.word)
      responses := s.responses ++ [{ status := .illegalCommand, flag := false, rdata := 0, rspan := [] }] }

/-- A command whose index does not exist, `p ≥ N_PB` or `ch ≥ N_CH`, is an illegal word: nothing changes but the response
(30_encoding.md rule R103). -/
def Obligations.IllegalIndexAnswersIllegalCommand : Prop :=
  ∀ (i : Instr) (s : State), i.isCommand = true → i.indicesLegal s.cfg = false →
    exec i s = .next { s with
      responses := s.responses ++ [{ status := .illegalCommand, flag := false, rdata := 0, rspan := [] }], job := none }

/-- Every other move of the machine: a RECEIVE in progress takes its next pass; an unanswered write waits; with no command, or
without the whole span, the core waits; a delivery runs the bytes on their channel (the model's own: logs 3, 4, 5, 10, 13 and
19). -/
def Obligations.StepOtherMoves : Prop :=
  (∀ (s : State) (p : PbIndex) (ch : ChIndex), (s.turns = [] ∨ ∃ ts, s.turns = .core :: ts) →
    s.job = some (.receive p ch) → step s = exec (.receive p ch) { s with turns := s.turns.tail }) ∧
  (∀ (s : State), (s.turns = [] ∨ ∃ ts, s.turns = .core :: ts) →
    s.job = some .awaitWrite → step s = .next { s with turns := s.turns.tail }) ∧
  (∀ (s : State), (s.turns = [] ∨ ∃ ts, s.turns = .core :: ts) →
    s.job = none → s.commands = [] → step s = .next { s with turns := s.turns.tail }) ∧
  (∀ (s : State) (c : HostCommand) (rest : List HostCommand), (s.turns = [] ∨ ∃ ts, s.turns = .core :: ts) →
    s.job = none → s.commands = c :: rest → s.spanIn.length < spanNeed c.word →
    step s = .next { s with turns := s.turns.tail }) ∧
  (∀ (s : State) (ch : ChIndex) (bytes : List Byte) (ts : List Turn), s.turns = .deliver ch bytes :: ts →
    step s = exec (.frame ch bytes) { s with turns := ts })

/-- Every command, and every delivery on a channel that exists, answers a next state from every state; a delivery on an absent
channel stops by name (the model's own: log 14). -/
def Obligations.ExecAnswersNext : Prop :=
  ∀ (i : Instr) (s : State),
    (i.isCommand = true → ∃ t, exec i s = .next t) ∧
    (∀ ch bytes, i = .frame ch bytes → ch.toNat < s.cfg.nCh → ∃ t, exec i s = .next t) ∧
    (∀ ch bytes, i = .frame ch bytes → ¬ ch.toNat < s.cfg.nCh → exec i s = .fault .absentChannel)

/-! ## Reset and the invariant -/

/-- The reset values of 10_state.md rule R37 for every legal build, and the default build at State.reset. -/
def Obligations.ResetValues : Prop :=
  State.reset = State.initial {} ∧
  ∀ c : Config, c.Legal →
    (∀ p : PbIndex, p.toNat < c.nPb →
      ((State.initial c).pb p).dst = 0x00#8 ∧ ((State.initial c).pb p).src = 0x00#8 ∧
      ((State.initial c).pb p).typ = 0x00#8 ∧ ((State.initial c).pb p).payload.length = 0) ∧
    (State.initial c).buffers.length = c.nPb ∧
    (∀ ch : ChIndex, ch.toNat < c.nCh → (State.initial c).cursor ch = 0) ∧
    (State.initial c).parsers.length = c.nCh ∧
    (State.initial c).localAddr = 0x00#8

/-- The invariant holds after reset, for every legal build. -/
def Obligations.ResetMeetsInvariant : Prop := ∀ c : Config, c.Legal → (State.initial c).Inv

/-- Every step keeps the invariant: the lengths of the payloads (10_state.md rule R23), the parser invariants (R29), the number of
buffers, parsers and transports, and the legal build. -/
def Obligations.StepKeepsInvariant : Prop := ∀ s t : State, s.Inv → step s = .next t → t.Inv

/-- From any state a step stops only on a delivery for an absent channel (the model's own: log 14). -/
def Obligations.StepStopsOnlyOnAbsentChannel : Prop :=
  ∀ s : State, (∀ ch bytes ts, s.turns = .deliver ch bytes :: ts → ch.toNat < s.cfg.nCh) → ∃ t, step s = .next t

/-- The configuration is not state: no step changes it (00_scope.md rule R16). -/
def Obligations.StepKeepsConfig : Prop := ∀ s t : State, step s = .next t → t.cfg = s.cfg

/-- SYS.RESET gives every piece of the core's state its reset value and leaves the transports alone (44_system.md rule R252). -/
def Obligations.SysResetGivesResetValues : Prop :=
  decode (.command (mkWord 0x7F#8 0 0 0 0) 0 []) = .ok .sysReset ∧
  ∀ s : State, ∃ t, exec .sysReset s = .next t ∧
    t.buffers = (State.initial s.cfg).buffers ∧ t.parsers = (State.initial s.cfg).parsers ∧
    t.localAddr = 0x00#8 ∧ t.transports = s.transports ∧ t.events = s.events ∧ t.draws = s.draws ∧
    SameOutside s t ∧ Answers { status := .ok } s t

/-- The reset pin, raised between any two steps, gives the same state; a command in progress is abandoned without a response
and the transports are not touched (70_reset_and_hazards.md rules R310, R311). So bytes that arrived just before it, also during a
RECEIVE, still wait in their queue afterwards: no byte step comes between the two turns (00_scope.md rule R16; the list of turns is the
model's form, log 3). -/
def Obligations.ResetPinAbandonsCommand : Prop :=
  (∀ (s : State) (ts : List Turn), s.turns = .resetPin :: ts →
    step s = .next { s with
      turns := ts
      buffers := (State.initial s.cfg).buffers
      parsers := (State.initial s.cfg).parsers
      localAddr := 0x00#8
      job := none }) ∧
  (∀ (s : State) (ch : ChIndex) (bytes : List Byte) (ts : List Turn), s.Inv → ch.toNat < s.cfg.nCh →
    s.turns = .deliver ch bytes :: .resetPin :: ts →
    ∃ t, steps 2 s = .next t ∧ t.rxq ch = s.rxq ch ++ bytes ∧ t.responses = s.responses ∧ t.events = s.events ∧ t.job = none ∧
      t.turns = ts)

/-! ## Packet buffers -/

/-- PB.CLEAR (40_packet_buffer.md rule R136): the length becomes 0 and nothing else of the machine changes. -/
def Obligations.PbClearEmptiesPayload : Prop :=
  (∀ p : PbIndex, decode (.command (mkWord 0x10#8 p 0 0 0) 0 []) = .ok (.pbClear p)) ∧
  ∀ (s : State) (p : PbIndex), s.Inv → p.toNat < s.cfg.nPb →
    ∃ t, exec (.pbClear p) s = .next t ∧ t.pb p = { s.pb p with payload := [] } ∧ PacketFrame p s t ∧
      Answers { status := .ok } s t

/-- PB.LENGTH (R137): the length, in `0 .. MAX_DATA_LEN`; nothing is written. -/
def Obligations.PbLengthReturnsLength : Prop :=
  (∀ p : PbIndex, decode (.command (mkWord 0x11#8 p 0 0 0) 0 []) = .ok (.pbLength p)) ∧
  ∀ (s : State) (p : PbIndex), s.Inv → p.toNat < s.cfg.nPb →
    (s.pb p).payload.length ≤ s.cfg.maxDataLen ∧
    ∃ r, ReadOutcome { status := .ok, rdata := r } 0 s (exec (.pbLength p) s) ∧ r.toNat = (s.pb p).payload.length

/-- PB.RAW (R156): the payload bytes in index order, none beyond the length; nothing is written. -/
def Obligations.PbRawReturnsPayload : Prop :=
  (∀ p : PbIndex, decode (.command (mkWord 0x12#8 p 0 0 0) 0 []) = .ok (.pbRaw p)) ∧
  ∀ (s : State) (p : PbIndex), s.Inv → p.toNat < s.cfg.nPb →
    ∃ r : Response, ReadOutcome r 0 s (exec (.pbRaw p) s) ∧ r.status = .ok ∧ r.flag = false ∧ r.rdata = 0 ∧
      r.rspan = (s.pb p).payload ∧ r.rlen.toNat = (s.pb p).payload.length

/-- PB.RDHDR (R157): the selectors 0, 1 and 2 name DST, SRC and TYPE; the header register named is returned and nothing is
written; selector 3, or a set bit among `b[7:2]`, is an illegal word. -/
def Obligations.PbRdhdrReturnsHeader : Prop :=
  (∀ p : PbIndex,
    decode (.command (mkWord 0x13#8 p 0 0 0#8) 0 []) = .ok (.pbRdhdr p .dst) ∧
    decode (.command (mkWord 0x13#8 p 0 0 1#8) 0 []) = .ok (.pbRdhdr p .src) ∧
    decode (.command (mkWord 0x13#8 p 0 0 2#8) 0 []) = .ok (.pbRdhdr p .typ)) ∧
  (∀ (p : PbIndex) (b : Byte), b.extractLsb' 0 2 = 3#2 ∨ b.extractLsb' 2 6 ≠ 0#6 →
    ∃ e, decode (.command (mkWord 0x13#8 p 0 0 b) 0 []) = .error e) ∧
  ∀ (s : State) (p : PbIndex), p.toNat < s.cfg.nPb →
    ReadOutcome { status := .ok, rdata := (s.pb p).dst.zeroExtend 64 } 0 s (exec (.pbRdhdr p .dst) s) ∧
    ReadOutcome { status := .ok, rdata := (s.pb p).src.zeroExtend 64 } 0 s (exec (.pbRdhdr p .src) s) ∧
    ReadOutcome { status := .ok, rdata := (s.pb p).typ.zeroExtend 64 } 0 s (exec (.pbRdhdr p .typ) s)

/-- PB.WRHDR (R158): the header register the selector names becomes `v`; the payload, its length and everything else stay. -/
def Obligations.PbWrhdrWritesHeader : Prop :=
  ∀ (s : State) (p : PbIndex) (f : HdrField) (v : Byte), s.Inv → p.toNat < s.cfg.nPb →
    ∃ t, exec (.pbWrhdr p f v) s = .next t ∧ PacketFrame p s t ∧ Answers { status := .ok } s t ∧
      (f = .dst → t.pb p = { s.pb p with dst := v }) ∧
      (f = .src → t.pb p = { s.pb p with src := v }) ∧
      (f = .typ → t.pb p = { s.pb p with typ := v })

/-- PB.SET.B, .H, .W, .D (R138 to R141, capacity R134): the payload becomes the low bytes of the operand, least significant first,
or the buffer is unchanged when they do not fit. -/
def Obligations.PbSetScalarOverwrites : Prop :=
  (∀ (p : PbIndex) (v : Scalar),
    decode (.command (mkWord 0x20#8 p 0 0 0) v []) = .ok (.pbSetB p v) ∧
    decode (.command (mkWord 0x21#8 p 0 0 0) v []) = .ok (.pbSetH p v) ∧
    decode (.command (mkWord 0x22#8 p 0 0 0) v []) = .ok (.pbSetW p v) ∧
    decode (.command (mkWord 0x23#8 p 0 0 0) v []) = .ok (.pbSetD p v)) ∧
  ∀ (s : State) (p : PbIndex) (v : Scalar), s.Inv → p.toNat < s.cfg.nPb →
    SetOutcome p [v.extractLsb' 0 8] s (exec (.pbSetB p v) s) ∧
    SetOutcome p [v.extractLsb' 0 8, v.extractLsb' 8 8] s (exec (.pbSetH p v) s) ∧
    SetOutcome p [v.extractLsb' 0 8, v.extractLsb' 8 8, v.extractLsb' 16 8, v.extractLsb' 24 8] s (exec (.pbSetW p v) s) ∧
    SetOutcome p [v.extractLsb' 0 8, v.extractLsb' 8 8, v.extractLsb' 16 8, v.extractLsb' 24 8,
      v.extractLsb' 32 8, v.extractLsb' 40 8, v.extractLsb' 48 8, v.extractLsb' 56 8] s (exec (.pbSetD p v) s)

/-- PB.SET.BYTES (R142): the payload becomes the span, or the buffer is unchanged when it does not fit; an empty span leaves
the state PB.CLEAR leaves. -/
def Obligations.PbSetBytesOverwrites : Prop :=
  (∀ (p : PbIndex) (span : List Byte), span.length ≤ 255 →
    decode (.command (mkWord 0x24#8 p 0 (BitVec.ofNat 8 span.length) 0) 0 span) = .ok (.pbSetBytes p span)) ∧
  ∀ (s : State) (p : PbIndex) (span : List Byte), s.Inv → p.toNat < s.cfg.nPb →
    SetOutcome p span s (exec (.pbSetBytes p span) s) ∧ exec (.pbSetBytes p []) s = exec (.pbClear p) s

/-- PB.ADD.B, .H, .W, .D (R143 to R146, capacity R135): the bytes are appended at index `LEN`, or nothing is written at all. -/
def Obligations.PbAddScalarAppends : Prop :=
  (∀ (p : PbIndex) (v : Scalar),
    decode (.command (mkWord 0x28#8 p 0 0 0) v []) = .ok (.pbAddB p v) ∧
    decode (.command (mkWord 0x29#8 p 0 0 0) v []) = .ok (.pbAddH p v) ∧
    decode (.command (mkWord 0x2A#8 p 0 0 0) v []) = .ok (.pbAddW p v) ∧
    decode (.command (mkWord 0x2B#8 p 0 0 0) v []) = .ok (.pbAddD p v)) ∧
  ∀ (s : State) (p : PbIndex) (v : Scalar), s.Inv → p.toNat < s.cfg.nPb →
    AddOutcome p [v.extractLsb' 0 8] s (exec (.pbAddB p v) s) ∧
    AddOutcome p [v.extractLsb' 0 8, v.extractLsb' 8 8] s (exec (.pbAddH p v) s) ∧
    AddOutcome p [v.extractLsb' 0 8, v.extractLsb' 8 8, v.extractLsb' 16 8, v.extractLsb' 24 8] s (exec (.pbAddW p v) s) ∧
    AddOutcome p [v.extractLsb' 0 8, v.extractLsb' 8 8, v.extractLsb' 16 8, v.extractLsb' 24 8,
      v.extractLsb' 32 8, v.extractLsb' 40 8, v.extractLsb' 48 8, v.extractLsb' 56 8] s (exec (.pbAddD p v) s)

/-- PB.ADD.BYTES (R147): the span is appended, or nothing is written; an empty span always succeeds and keeps the buffer. -/
def Obligations.PbAddBytesAppends : Prop :=
  (∀ (p : PbIndex) (span : List Byte), span.length ≤ 255 →
    decode (.command (mkWord 0x2C#8 p 0 (BitVec.ofNat 8 span.length) 0) 0 span) = .ok (.pbAddBytes p span)) ∧
  ∀ (s : State) (p : PbIndex) (span : List Byte), s.Inv → p.toNat < s.cfg.nPb →
    AddOutcome p span s (exec (.pbAddBytes p span) s) ∧
    ∃ t, exec (.pbAddBytes p []) s = .next t ∧ t.pb p = s.pb p ∧ Answers { status := .ok } s t

/-- PB.GET.UB, .UH, .UW, .D (R148 to R151): the bytes from index 0, least significant first, zero-extended; a byte at or beyond the
length is a free value, whatever it is (R133; its form, a constant without a body applied to a counter, is the model's: log 8). -/
def Obligations.PbGetUnsignedZeroExtends : Prop :=
  ∀ (s : State) (p : PbIndex), p.toNat < s.cfg.nPb →
    let b := payloadByte s p
    ReadOutcome { status := .ok, rdata := (b 0).zeroExtend 64 } (beyond s p 1) s (exec (.pbGetUb p) s) ∧
    ReadOutcome { status := .ok, rdata := (b 1 ++ b 0).zeroExtend 64 } (beyond s p 2) s (exec (.pbGetUh p) s) ∧
    ReadOutcome { status := .ok, rdata := (b 3 ++ b 2 ++ b 1 ++ b 0).zeroExtend 64 } (beyond s p 4) s (exec (.pbGetUw p) s) ∧
    ReadOutcome { status := .ok, rdata := (b 7 ++ b 6 ++ b 5 ++ b 4 ++ b 3 ++ b 2 ++ b 1 ++ b 0).zeroExtend 64 }
      (beyond s p 8) s (exec (.pbGetD p) s)

/-- PB.GET.SB, .SH, .SW (R152 to R154): as the unsigned gets, sign-extended from the top bit of the last byte (free values: log 8). -/
def Obligations.PbGetSignedSignExtends : Prop :=
  ∀ (s : State) (p : PbIndex), p.toNat < s.cfg.nPb →
    let b := payloadByte s p
    ReadOutcome { status := .ok, rdata := (b 0).signExtend 64 } (beyond s p 1) s (exec (.pbGetSb p) s) ∧
    ReadOutcome { status := .ok, rdata := (b 1 ++ b 0).signExtend 64 } (beyond s p 2) s (exec (.pbGetSh p) s) ∧
    ReadOutcome { status := .ok, rdata := (b 3 ++ b 2 ++ b 1 ++ b 0).signExtend 64 } (beyond s p 4) s (exec (.pbGetSw p) s)

/-- PB.GET.BYTES (R155): `n` bytes from index 0, each stored below the length and a free value at or beyond it
(log 8). -/
def Obligations.PbGetBytesReturnsSpan : Prop :=
  (∀ (p : PbIndex) (n : Byte), decode (.command (mkWord 0x38#8 p 0 n 0) 0 []) = .ok (.pbGetBytes p n)) ∧
  ∀ (s : State) (p : PbIndex) (n : Byte), p.toNat < s.cfg.nPb →
    ∃ r : Response, ReadOutcome r (beyond s p n.toNat) s (exec (.pbGetBytes p n) s) ∧
      r.status = .ok ∧ r.flag = false ∧ r.rdata = 0 ∧ r.rlen = n ∧ r.rspan.length = n.toNat ∧
      ∀ i, i < n.toNat → r.rspan[i]? = some (payloadByte s p i)

/-- The set and get law (R161, within one core): a set of width `N ≤ MAX_DATA_LEN`, then, whatever happened to the rest of the
machine, the gets of that width give the value zero-extended and sign-extended; PB.SET.BYTES then PB.RAW gives the span. -/
def Obligations.SetThenGetReturnsValue : Prop :=
  ∀ (s t u : State) (p : PbIndex) (v : Scalar), s.Inv → p.toNat < s.cfg.nPb → u.cfg = t.cfg → u.pb p = t.pb p →
    (1 ≤ s.cfg.maxDataLen → exec (.pbSetB p v) s = .next t →
      ReadOutcome { status := .ok, rdata := (v.setWidth 8).zeroExtend 64 } 0 u (exec (.pbGetUb p) u) ∧
      ReadOutcome { status := .ok, rdata := (v.setWidth 8).signExtend 64 } 0 u (exec (.pbGetSb p) u)) ∧
    (2 ≤ s.cfg.maxDataLen → exec (.pbSetH p v) s = .next t →
      ReadOutcome { status := .ok, rdata := (v.setWidth 16).zeroExtend 64 } 0 u (exec (.pbGetUh p) u) ∧
      ReadOutcome { status := .ok, rdata := (v.setWidth 16).signExtend 64 } 0 u (exec (.pbGetSh p) u)) ∧
    (4 ≤ s.cfg.maxDataLen → exec (.pbSetW p v) s = .next t →
      ReadOutcome { status := .ok, rdata := (v.setWidth 32).zeroExtend 64 } 0 u (exec (.pbGetUw p) u) ∧
      ReadOutcome { status := .ok, rdata := (v.setWidth 32).signExtend 64 } 0 u (exec (.pbGetSw p) u)) ∧
    (8 ≤ s.cfg.maxDataLen → exec (.pbSetD p v) s = .next t →
      ReadOutcome { status := .ok, rdata := v } 0 u (exec (.pbGetD p) u)) ∧
    (∀ span : List Byte, span.length ≤ s.cfg.maxDataLen → exec (.pbSetBytes p span) s = .next t →
      ReadOutcome { status := .ok, rspan := span } 0 u (exec (.pbRaw p) u))

/-! ## Checksum -/

/-- CSUM (41_checksum.md rule R184): the checksum of the span, zero-extended; no state of the core is read or written; with the
default function, 0 for no bytes and 1 for 255 bytes of `0xFF`. -/
def Obligations.CsumReturnsChecksum : Prop :=
  (∀ span : List Byte, span.length ≤ 255 →
    decode (.command (mkWord 0x40#8 0 0 (BitVec.ofNat 8 span.length) 0) 0 span) = .ok (.csum span)) ∧
  (∀ (s : State) (span : List Byte),
    ReadOutcome { status := .ok, rdata := (csumOf s.cfg span).zeroExtend 64 } 0 s (exec (.csum span) s)) ∧
  (∀ c : Config, c.csum = .additive → csumOf c [] = 0x00#8 ∧ csumOf c (List.replicate 255 0xFF#8) = 0x01#8)

/-- The default checksum is the sum of the bytes modulo 256 (R181). -/
def Obligations.DefaultChecksumIsSumModulo256 : Prop :=
  ∀ (c : Config) (s : List Byte), c.csum = .additive → (csumOf c s).toNat = (s.map (fun b => b.toNat)).sum % 256

/-- The laws of the default checksum, which R185 derives from R181: order does not matter; it is additive over concatenation; changing one byte changes
it; changes whose differences sum to a multiple of 256 do not; zero bytes do not. -/
def Obligations.DefaultChecksumLaws : Prop :=
  ∀ c : Config, c.csum = .additive →
    (∀ s t : List Byte, s.Perm t → csumOf c s = csumOf c t) ∧
    (∀ s t : List Byte, csumOf c (s ++ t) = csumOf c s + csumOf c t) ∧
    (∀ (s t : List Byte) (x y : Byte), x ≠ y → csumOf c (s ++ x :: t) ≠ csumOf c (s ++ y :: t)) ∧
    (∀ s t : List Byte, s.length = t.length →
      (s.map (fun b => b.toNat)).sum % 256 = (t.map (fun b => b.toNat)).sum % 256 → csumOf c s = csumOf c t) ∧
    (∀ s t : List Byte, csumOf c (s ++ 0x00#8 :: t) = csumOf c (s ++ t))

/-! ## Send -/

/-- SEND and SEND.T when the transport answers the count `w` (42_send.md rules R191 to R193, R195 to R197): SRC and DST (and TYPE)
are stamped whatever the status, the whole frame is handed over in one request, and the status is `OK` exactly when `w = n + 6`. The
list of answers is the model's form of the transport (log 9). -/
def Obligations.SendHandsOverFrame : Prop :=
  ∀ (s : State) (p : PbIndex) (ch : ChIndex) (dst typ : Byte) (w : WriteCount) (rest : List WriteAnswer),
    s.Inv → p.toNat < s.cfg.nPb → ch.toNat < s.cfg.nCh → (s.transport ch).answers = .count w :: rest →
    (∃ t, exec (.send p ch dst) s = .next t ∧
      SentOutcome p ch { s.pb p with dst := dst, src := s.localAddr } w s t ∧
      (t.transport ch).answers = rest ∧ t.draws = s.draws) ∧
    (∃ t, exec (.sendT p ch dst typ) s = .next t ∧
      SentOutcome p ch { s.pb p with dst := dst, src := s.localAddr, typ := typ } w s t ∧
      (t.transport ch).answers = rest ∧ t.draws = s.draws)

/-- SEND and SEND.T when the environment lists no answer: the same for the free count the model draws, a value that nothing fixes
(20_memory.md rule R69; the model's own: log 9). -/
def Obligations.SendWithUnlistedAnswer : Prop :=
  ∀ (s : State) (p : PbIndex) (ch : ChIndex) (dst typ : Byte),
    s.Inv → p.toNat < s.cfg.nPb → ch.toNat < s.cfg.nCh → (s.transport ch).answers = [] →
    (∃ t, exec (.send p ch dst) s = .next t ∧
      SentOutcome p ch { s.pb p with dst := dst, src := s.localAddr } (Config.freeCount s.draws) s t ∧
      (t.transport ch).answers = [] ∧ t.draws = s.draws + 1) ∧
    (∃ t, exec (.sendT p ch dst typ) s = .next t ∧
      SentOutcome p ch { s.pb p with dst := dst, src := s.localAddr, typ := typ } (Config.freeCount s.draws) s t ∧
      (t.transport ch).answers = [] ∧ t.draws = s.draws + 1)

/-- SEND and SEND.T to a transport that never answers (42_send.md rules R191, R192; 70_reset_and_hazards.md rule R331): the stamping
and the one write request are done, nothing else changes, no response is given, and the core waits at every later move of its own (the
model's form: logs 9 and 10). -/
def Obligations.SendWaitsForSilentTransport : Prop :=
  ∀ (s : State) (p : PbIndex) (ch : ChIndex) (dst typ : Byte) (rest : List WriteAnswer),
    s.Inv → p.toNat < s.cfg.nPb → ch.toNat < s.cfg.nCh → (s.transport ch).answers = .silent :: rest → s.turns = [] →
    (∃ t, exec (.send p ch dst) s = .next t ∧
      WaitingOutcome p ch { s.pb p with dst := dst, src := s.localAddr } rest s t) ∧
    (∃ t, exec (.sendT p ch dst typ) s = .next t ∧
      WaitingOutcome p ch { s.pb p with dst := dst, src := s.localAddr, typ := typ } rest s t)

/-- Step 2 of the send (42_send.md rules R194, R198): a payload over the capacity is refused before any write, and the stamping
stays. No command builds such a payload (the invariant excludes it). -/
def Obligations.SendTooLargeKeepsStamps : Prop :=
  ∀ (s : State) (p : PbIndex) (ch : ChIndex) (dst typ : Byte),
    p.toNat < s.cfg.nPb → p.toNat < s.buffers.length → ch.toNat < s.cfg.nCh → s.cfg.maxDataLen < (s.pb p).payload.length →
    (∃ t, exec (.send p ch dst) s = .next t ∧ PacketFrame p s t ∧ Answers { status := .payloadTooLarge } s t ∧
      t.pb p = { s.pb p with dst := dst, src := s.localAddr }) ∧
    (∃ t, exec (.sendT p ch dst typ) s = .next t ∧ PacketFrame p s t ∧ Answers { status := .payloadTooLarge } s t ∧
      t.pb p = { s.pb p with dst := dst, src := s.localAddr, typ := typ })

/-! ## Receive -/

/-- RECEIVE with nothing available (43_receive.md rule R226): "not yet" at once, and nothing else changes. -/
def Obligations.ReceiveOnEmptyQueue : Prop :=
  ∀ (s : State) (p : PbIndex) (ch : ChIndex), p.toNat < s.cfg.nPb → ch.toNat < s.cfg.nCh → s.rxq ch = [] →
    ReadOutcome (receiveFlag false) 0 s (exec (.receive p ch) s)

/-- One pass of RECEIVE over a byte that completes no frame (R216, R217, R218, R224): the byte is consumed, exactly one event is
emitted, no packet buffer is written, no response is given and the command goes on. In Idle a SYN is kept and any other byte
discarded; in LengthPending a legal LEN is kept and an illegal one empties the parser; in Accumulating any byte is appended. One pass is one step
(R226), and how the command is held between passes is the model's form (log 19). -/
def Obligations.ReceivePassBeforeCompletion : Prop :=
  ∀ (s : State) (p : PbIndex) (ch : ChIndex) (b : Byte) (rest : List Byte), s.Inv → p.toNat < s.cfg.nPb →
    ch.toNat < s.cfg.nCh → s.rxq ch = b :: rest →
    (2 ≤ s.cursor ch → s.cursor ch ≠ ((s.parser ch).getD 1 0).toNat + 1) →
    ∃ t, exec (.receive p ch) s = .next t ∧ ChannelFrame p ch s t ∧ t.buffers = s.buffers ∧ t.responses = s.responses ∧
      t.job = some (.receive p ch) ∧ t.draws = s.draws ∧ t.transport ch = { s.transport ch with rxq := rest } ∧
      (s.cursor ch = 0 → b = 0x02#8 → t.parser ch = [b] ∧ t.events = s.events ++ [(ch, .appended)]) ∧
      (s.cursor ch = 0 → b ≠ 0x02#8 → t.parser ch = [] ∧ t.events = s.events ++ [(ch, .discarded)]) ∧
      (s.cursor ch = 1 → 4 ≤ b.toNat ∧ b.toNat ≤ s.cfg.maxDataLen + 4 →
        t.parser ch = [0x02#8, b] ∧ t.events = s.events ++ [(ch, .appended)]) ∧
      (s.cursor ch = 1 → ¬ (4 ≤ b.toNat ∧ b.toNat ≤ s.cfg.maxDataLen + 4) →
        t.parser ch = [] ∧ t.events = s.events ++ [(ch, .lengthOutOfRange)]) ∧
      (2 ≤ s.cursor ch → t.parser ch = s.parser ch ++ [b] ∧ t.events = s.events ++ [(ch, .appended)])

/-- The pass over the last byte of a frame (R220 to R223, R227): first the checksum of the region DST .. DATA against that byte, then
the destination filter, then the copy. The cursor is 0 afterwards in every case; only acceptance writes `PB[p]` and ends the command,
with the remaining bytes left in the queue (R226). How the command is held between passes is the model's form (log 19). -/
def Obligations.ReceiveLastByteDecides : Prop :=
  ∀ (s : State) (p : PbIndex) (ch : ChIndex) (b : Byte) (rest : List Byte), s.Inv → p.toNat < s.cfg.nPb →
    ch.toNat < s.cfg.nCh → s.rxq ch = b :: rest → 2 ≤ s.cursor ch →
    s.cursor ch = ((s.parser ch).getD 1 0).toNat + 1 →
    ∃ t, exec (.receive p ch) s = .next t ∧ ChannelFrame p ch s t ∧ t.parser ch = [] ∧ t.draws = s.draws ∧
      t.transport ch = { s.transport ch with rxq := rest } ∧
      (csumOf s.cfg ((s.parser ch).drop 2) ≠ b →
        t.events = s.events ++ [(ch, .checksumMismatch)] ∧ t.buffers = s.buffers ∧ t.responses = s.responses ∧
        t.job = some (.receive p ch)) ∧
      (csumOf s.cfg ((s.parser ch).drop 2) = b → ¬ Passes s.localAddr ((s.parser ch).getD 2 0) →
        t.events = s.events ++ [(ch, .addressMismatch)] ∧ t.buffers = s.buffers ∧ t.responses = s.responses ∧
        t.job = some (.receive p ch)) ∧
      (csumOf s.cfg ((s.parser ch).drop 2) = b → Passes s.localAddr ((s.parser ch).getD 2 0) →
        t.events = s.events ++ [(ch, .accepted)] ∧ Answers (receiveFlag true) s t ∧
        t.pb p = { dst := (s.parser ch).getD 2 0, src := (s.parser ch).getD 3 0, typ := (s.parser ch).getD 4 0,
                   payload := (s.parser ch).drop 5 })

/-- A second SYN right after a SYN is an illegal LEN, is discarded and does not count as a new SYN; the byte after it is scanned in
Idle (R224, its own example). -/
def Obligations.SecondSynIsNotReinterpreted : Prop :=
  ∀ (s : State) (p : PbIndex) (ch : ChIndex), s.Inv → p.toNat < s.cfg.nPb → ch.toNat < s.cfg.nCh → s.parser ch = [] →
    s.rxq ch = [0x02#8, 0x02#8, 0x08#8] →
    let t := receiveAll p ch s
    t.parser ch = [] ∧ t.rxq ch = [] ∧ t.buffers = s.buffers ∧ Answers (receiveFlag false) s t ∧
      t.events = s.events ++ [(ch, .appended), (ch, .lengthOutOfRange), (ch, .discarded)]

/-- The core runs RECEIVE pass by pass, and the passes end, after at most one per available byte beside the first: with no byte
arriving meanwhile they give exactly the whole command (R226, 70_reset_and_hazards.md rule R331). -/
def Obligations.ReceivePassesGiveWholeCommand : Prop :=
  ∀ (s t : State) (p : PbIndex) (ch : ChIndex), s.Inv → p.toNat < s.cfg.nPb → ch.toNat < s.cfg.nCh → s.turns = [] →
    exec (.receive p ch) s = .next t →
    ∃ k, k ≤ (s.rxq ch).length ∧ steps k t = .next (receiveAll p ch s)

/-- A RECEIVE returns at most one packet, and with "not yet" it leaves every packet buffer as it was (R223, R227). -/
def Obligations.ReceiveNotReadyKeepsBuffers : Prop :=
  ∀ (s : State) (p : PbIndex) (ch : ChIndex),
    (receiveAll p ch s).responses = s.responses ++ [receiveFlag true] ∨
      ((receiveAll p ch s).responses = s.responses ++ [receiveFlag false] ∧ (receiveAll p ch s).buffers = s.buffers ∧
        (ch.toNat < s.transports.length → (receiveAll p ch s).rxq ch = []))

/-- Split delivery (R230): bytes delivered in two parts, with a RECEIVE after each and the first answering "not yet", leave the same
buffers, parsers, transports, events and final response as one delivery and one RECEIVE. -/
def Obligations.SplitDeliveryMakesNoDifference : Prop :=
  ∀ (s : State) (p : PbIndex) (ch : ChIndex) (xs ys : List Byte), s.Inv → p.toNat < s.cfg.nPb → ch.toNat < s.cfg.nCh →
    s.job = none → s.rxq ch = [] →
    let first := receiveAll p ch (s.deliver ch xs)
    let second := receiveAll p ch (first.deliver ch ys)
    let whole := receiveAll p ch (s.deliver ch (xs ++ ys))
    first.responses = s.responses ++ [receiveFlag false] →
    second.buffers = whole.buffers ∧ second.parsers = whole.parsers ∧ second.transports = whole.transports ∧
      second.events = whole.events ∧
      ∃ r, whole.responses = s.responses ++ [r] ∧ second.responses = s.responses ++ [receiveFlag false, r]

/-- RX.RESET (R229): the channel's cursor becomes 0; the queue and everything else stay. -/
def Obligations.RxResetEmptiesParser : Prop :=
  (∀ ch : ChIndex, decode (.command (mkWord 0x61#8 0 ch 0 0) 0 []) = .ok (.rxReset ch)) ∧
  ∀ (s : State) (ch : ChIndex), s.Inv → ch.toNat < s.cfg.nCh →
    ∃ t, exec (.rxReset ch) s = .next t ∧ t.cursor ch = 0 ∧ t.parsers.length = s.parsers.length ∧
      (∀ c : ChIndex, c ≠ ch → t.parser c = s.parser c) ∧ SameOutside s t ∧ t.buffers = s.buffers ∧
      t.localAddr = s.localAddr ∧ t.transports = s.transports ∧ t.events = s.events ∧ t.draws = s.draws ∧
      Answers { status := .ok } s t

/-! ## Frames on the wire -/

/-- Wire bytes that arrive join the tail of their channel's queue, whatever the core is doing, and nothing else changes: also during
a RECEIVE, whose byte steps are moves of their own (00_scope.md rule R16, 20_memory.md rule R66; that the FRAME row is this arrival is
the model's reading: log 13). -/
def Obligations.FrameWaitsInQueue : Prop :=
  ∀ (s : State) (ch : ChIndex) (bytes : List Byte), s.Inv → ch.toNat < s.cfg.nCh →
    ∃ t, exec (.frame ch bytes) s = .next t ∧ t.transport ch = { s.transport ch with rxq := s.rxq ch ++ bytes } ∧
      (∀ c : ChIndex, c ≠ ch → t.transport c = s.transport c) ∧ t.transports.length = s.transports.length ∧
      SameOutside s t ∧ t.buffers = s.buffers ∧ t.localAddr = s.localAddr ∧ t.parsers = s.parsers ∧ t.job = s.job ∧
      t.responses = s.responses ∧ t.events = s.events ∧ t.draws = s.draws

/-- Any bytes that arrive during a RECEIVE of their channel, whatever its parser holds and whatever already waits (a part of a frame,
noise, a bad checksum, several frames): the RECEIVE's own passes then step the waiting bytes and these, in order, until one is accepted
or none is left, and then it answers (43_receive.md rule R226: "a byte that arrives while the command runs is consumed by the same
command"). Arrival and passes as moves of their own are the model's form (logs 13 and 19). -/
def Obligations.BytesDuringReceiveAreConsumed : Prop :=
  ∀ (s : State) (p : PbIndex) (ch : ChIndex) (bytes : List Byte), s.Inv → s.job = some (.receive p ch) → s.turns = [] →
    ∃ t, exec (.frame ch bytes) s = .next t ∧
      let u := drain p ch (s.rxq ch ++ bytes) t
      (u.job = none ∧ u.responses = s.responses ++ [receiveFlag true] ∧
        ∃ k, 1 ≤ k ∧ k ≤ (s.rxq ch).length + bytes.length ∧ steps k t = .next u ∧
          u.rxq ch = (s.rxq ch ++ bytes).drop k) ∨
      (u.job = s.job ∧ u.responses = s.responses ∧ u.buffers = s.buffers ∧ u.rxq ch = [] ∧
        steps ((s.rxq ch).length + bytes.length) t = .next u ∧
        ∃ v, step u = .next v ∧ ReadFrame u v ∧ v.draws = u.draws ∧ Answers (receiveFlag false) u v)

/-- A legal frame that arrives while a RECEIVE is in progress with its parser in Idle and its queue empty (30_encoding.md rule R90,
43_receive.md rules R216 to R223): after one pass for each of its bytes it is accepted into that RECEIVE's packet buffer exactly when the
destination filter passes, and dropped with `AddressMismatch` otherwise, the RECEIVE going on (arrival and passes: logs 13 and
19). -/
def Obligations.FrameIsReceived : Prop :=
  ∀ (s : State) (p : PbIndex) (ch : ChIndex) (dst src typ : Byte) (data : List Byte), s.Inv →
    s.job = some (.receive p ch) → s.turns = [] → s.parser ch = [] → s.rxq ch = [] → data.length ≤ s.cfg.maxDataLen →
    ∃ t u, exec (.frame ch (wireFrame s.cfg dst src typ data)) s = .next t ∧
      t.rxq ch = wireFrame s.cfg dst src typ data ∧ steps (data.length + 6) t = .next u ∧
      ChannelFrame p ch s u ∧ u.parser ch = [] ∧ u.transport ch = s.transport ch ∧ u.draws = s.draws ∧
      (Passes s.localAddr dst →
        u.pb p = ⟨dst, src, typ, data⟩ ∧ Answers (receiveFlag true) s u ∧
        u.events = s.events ++ List.replicate (data.length + 5) (ch, .appended) ++ [(ch, .accepted)]) ∧
      (¬ Passes s.localAddr dst →
        u.buffers = s.buffers ∧ u.responses = s.responses ∧ u.job = s.job ∧
        u.events = s.events ++ List.replicate (data.length + 5) (ch, .appended) ++ [(ch, .addressMismatch)])

/-- What a sent frame is (42_send.md rule R199): the frame SEND.T hands over, received by a core with the same checksum function and
room for it from a parser in Idle, gives back the packet exactly when the receiver's filter passes the destination. R199 derives it from
R191 to R197 and R216 to R223; the listed answer (log 9) and the whole RECEIVE at once (log 19) are the model's forms. -/
def Obligations.SentFrameIsReceivedUnchanged : Prop :=
  ∀ (s : State) (p : PbIndex) (ch : ChIndex) (dst typ : Byte) (w : WriteCount) (rest : List WriteAnswer),
    s.Inv → p.toNat < s.cfg.nPb → ch.toNat < s.cfg.nCh → (s.transport ch).answers = .count w :: rest →
    ∃ t frame, exec (.sendT p ch dst typ) s = .next t ∧
      frame = wireFrame s.cfg dst s.localAddr typ (s.pb p).payload ∧
      (t.transport ch).writes = (s.transport ch).writes ++ [frame] ∧
      ∀ (r : State) (q : PbIndex) (c : ChIndex), r.Inv → q.toNat < r.cfg.nPb → c.toNat < r.cfg.nCh →
        r.cfg.csum = s.cfg.csum → (s.pb p).payload.length ≤ r.cfg.maxDataLen → r.parser c = [] → r.rxq c = frame →
        let u := receiveAll q c r
        u.parser c = [] ∧ u.rxq c = [] ∧
          (Passes r.localAddr dst →
            u.pb q = ⟨dst, s.localAddr, typ, (s.pb p).payload⟩ ∧ Answers (receiveFlag true) r u) ∧
          (¬ Passes r.localAddr dst → u.buffers = r.buffers ∧ Answers (receiveFlag false) r u)

/-- Rejection of a corrupted frame (43_receive.md rule R232 a, b): with the default checksum, a legal frame with exactly one byte of
its header, data or checksum changed is dropped with `ChecksumMismatch` by a parser in Idle. -/
def Obligations.CorruptedByteIsCaught : Prop :=
  ∀ (s : State) (p : PbIndex) (ch : ChIndex) (dst src typ : Byte) (data : List Byte) (i : Nat) (x : Byte), s.Inv →
    p.toNat < s.cfg.nPb → ch.toNat < s.cfg.nCh → s.cfg.csum = .additive → data.length ≤ s.cfg.maxDataLen →
    s.parser ch = [] → 2 ≤ i → i < data.length + 6 → (wireFrame s.cfg dst src typ data)[i]? ≠ some x →
    s.rxq ch = (wireFrame s.cfg dst src typ data).set i x →
    let t := receiveAll p ch s
    t.buffers = s.buffers ∧ Answers (receiveFlag false) s t ∧ t.parser ch = [] ∧
      t.events = s.events ++ List.replicate (data.length + 5) (ch, .appended) ++ [(ch, .checksumMismatch)]

/-- Resynchronisation (R231): a legal frame whose filter passes is accepted whatever bytes come before it, provided stepping those
bytes accepts nothing and ends in Idle; this is so when the parser starts in Idle and none of them is SYN. -/
def Obligations.FrameAfterNoiseIsReceived : Prop :=
  ∀ (s : State) (p : PbIndex) (ch : ChIndex) (noise : List Byte) (dst src typ : Byte) (data : List Byte), s.Inv →
    p.toNat < s.cfg.nPb → ch.toNat < s.cfg.nCh → data.length ≤ s.cfg.maxDataLen → Passes s.localAddr dst →
    s.rxq ch = noise ++ wireFrame s.cfg dst src typ data →
    ((drain p ch noise { s with job := some (.receive p ch) }).job = some (.receive p ch) →
      (drain p ch noise { s with job := some (.receive p ch) }).parser ch = [] →
      (receiveAll p ch s).pb p = ⟨dst, src, typ, data⟩ ∧ Answers (receiveFlag true) s (receiveAll p ch s)) ∧
    (s.parser ch = [] → (∀ b ∈ noise, b ≠ 0x02#8) →
      (receiveAll p ch s).pb p = ⟨dst, src, typ, data⟩ ∧ Answers (receiveFlag true) s (receiveAll p ch s))

/-! ## Configuration -/

/-- CFG.WRADDR (44_system.md rule R250): `LOCAL_ADDR` becomes the operand and nothing else changes. -/
def Obligations.CfgWraddrSetsLocalAddr : Prop :=
  (∀ a : Byte, decode (.command (mkWord 0x70#8 0 0 a 0) 0 []) = .ok (.cfgWraddr a)) ∧
  ∀ (s : State) (a : Byte), ∃ t, exec (.cfgWraddr a) s = .next t ∧ t.localAddr = a ∧ t.buffers = s.buffers ∧
    t.parsers = s.parsers ∧ t.transports = s.transports ∧ t.events = s.events ∧ t.draws = s.draws ∧ SameOutside s t ∧
    Answers { status := .ok } s t

/-- CFG.RDADDR (R251): the local address, zero-extended, 0 after reset; nothing is written. -/
def Obligations.CfgRdaddrReturnsLocalAddr : Prop :=
  decode (.command (mkWord 0x71#8 0 0 0 0) 0 []) = .ok .cfgRdaddr ∧
  (∀ s : State, ReadOutcome { status := .ok, rdata := s.localAddr.zeroExtend 64 } 0 s (exec .cfgRdaddr s)) ∧
  (∀ c : Config, ReadOutcome { status := .ok, rdata := 0 } 0 (State.initial c) (exec .cfgRdaddr (State.initial c)))

/-! ## Rules of the whole machine -/

/-- Only CFG.WRADDR and SYS.RESET change `LOCAL_ADDR` (10_state.md rule R31). -/
def Obligations.LocalAddrWriters : Prop :=
  ∀ (i : Instr) (s t : State), exec i s = .next t → t.localAddr ≠ s.localAddr → (∃ a, i = .cfgWraddr a) ∨ i = .sysReset

/-- Only RECEIVE, RX.RESET and SYS.RESET change a parser state, RECEIVE and RX.RESET only their own channel's; bytes that arrive
change none (10_state.md rule R30). -/
def Obligations.ParserWriters : Prop :=
  ∀ (i : Instr) (s t : State) (c : ChIndex), exec i s = .next t → t.parser c ≠ s.parser c →
    (∃ p, i = .receive p c) ∨ i = .rxReset c ∨ i = .sysReset

/-- A packet buffer is changed only by a command that names it or by SYS.RESET; bytes that arrive change none (10_state.md rule
R22). -/
def Obligations.PacketBufferWriters : Prop :=
  ∀ (i : Instr) (s t : State) (q : PbIndex), exec i s = .next t → t.pb q ≠ s.pb q → i.pbIndex = some q ∨ i = .sysReset

/-- Only SEND and SEND.T hand anything to a transport, only to their own channel's and at most one request; a queue changes only by a
RECEIVE of its channel, which takes the one byte at the head, and by bytes that arrive on it, which join the tail (20_memory.md rules R66,
R68, R69, R71; that the FRAME row is the arrival: log 13). -/
def Obligations.TransportUsers : Prop :=
  ∀ (i : Instr) (s t : State) (c : ChIndex), exec i s = .next t →
    ((t.transport c).writes ≠ (s.transport c).writes →
      ((∃ p dst, i = .send p c dst) ∨ (∃ p dst typ, i = .sendT p c dst typ)) ∧
      ∃ frame, (t.transport c).writes = (s.transport c).writes ++ [frame]) ∧
    (t.rxq c ≠ s.rxq c →
      (∃ p b, i = .receive p c ∧ s.rxq c = b :: t.rxq c) ∨ (∃ bytes, i = .frame c bytes ∧ t.rxq c = s.rxq c ++ bytes))

/-- Which statuses and which flag a command can answer (30_encoding.md rule R106): `PayloadTooLarge` only sets, adds and sends; `PartialWrite` only
sends; `IllegalCommand` exactly when an index does not exist; the flag only RECEIVE. A command gives at most one response, and none
only while it is still in progress: a RECEIVE between two passes (43_receive.md rule R226) or a send whose transport has not answered
(70_reset_and_hazards.md rule R331). That `exec` then answers a state without a response, with the command held in `job`, is the model's
form (logs 10 and 19). -/
def Obligations.ResponsesByCommand : Prop :=
  ∀ (i : Instr) (s t : State), i.isCommand = true → exec i s = .next t →
    (∃ r, Answers r s t ∧
      (r.status = .payloadTooLarge →
        (∃ p v, i = .pbSetB p v ∨ i = .pbSetH p v ∨ i = .pbSetW p v ∨ i = .pbSetD p v ∨
          i = .pbAddB p v ∨ i = .pbAddH p v ∨ i = .pbAddW p v ∨ i = .pbAddD p v) ∨
        (∃ p sp, i = .pbSetBytes p sp ∨ i = .pbAddBytes p sp) ∨
        (∃ p ch dst typ, i = .send p ch dst ∨ i = .sendT p ch dst typ)) ∧
      (r.status = .partialWrite → ∃ p ch dst typ, i = .send p ch dst ∨ i = .sendT p ch dst typ) ∧
      (r.status = .illegalCommand ↔ i.indicesLegal s.cfg = false) ∧
      (r.flag = true → ∃ p ch, i = .receive p ch)) ∨
    (t.responses = s.responses ∧
      ((∃ p ch, i = .receive p ch ∧ t.job = some (.receive p ch)) ∨
        (∃ p ch dst typ, (i = .send p ch dst ∨ i = .sendT p ch dst typ) ∧ t.job = some .awaitWrite)))
end

