-- ==== Sys2Proof/Laws/Decode.lean ====
section
/-! SUPPORT. The small lemmas of the command word's fields (30_encoding.md rule R100). -/

namespace Sys2Proof

@[simp] theorem opField_mkWord (o : BitVec 8) (p c : BitVec 4) (a b : Byte) : opField (mkWord o p c a b) = o := by
  apply BitVec.eq_of_getLsbD_eq
  intro i hi
  simp only [opField, mkWord]
  interval_cases i <;> simp

@[simp] theorem pbField_mkWord (o : BitVec 8) (p c : BitVec 4) (a b : Byte) : pbField (mkWord o p c a b) = p := by
  apply BitVec.eq_of_getLsbD_eq
  intro i hi
  simp only [pbField, mkWord]
  interval_cases i <;> simp

@[simp] theorem chField_mkWord (o : BitVec 8) (p c : BitVec 4) (a b : Byte) : chField (mkWord o p c a b) = c := by
  apply BitVec.eq_of_getLsbD_eq
  intro i hi
  simp only [chField, mkWord]
  interval_cases i <;> simp

@[simp] theorem aField_mkWord (o : BitVec 8) (p c : BitVec 4) (a b : Byte) : aField (mkWord o p c a b) = a := by
  apply BitVec.eq_of_getLsbD_eq
  intro i hi
  simp only [aField, mkWord]
  interval_cases i <;> simp

@[simp] theorem bField_mkWord (o : BitVec 8) (p c : BitVec 4) (a b : Byte) : bField (mkWord o p c a b) = b := by
  apply BitVec.eq_of_getLsbD_eq
  intro i hi
  simp only [bField, mkWord]
  interval_cases i <;> simp

/-- A word is made of its fields: no bit is outside them. -/
theorem mkWord_fields (w : CmdWord) : mkWord (opField w) (pbField w) (chField w) (aField w) (bField w) = w := by
  apply BitVec.eq_of_getLsbD_eq
  intro i hi
  simp only [mkWord, opField, pbField, chField, aField, bField]
  interval_cases i <;> simp

/-- Masking a word masks its fields. -/
theorem mkWord_and (o o' : BitVec 8) (p c p' c' : BitVec 4) (a b a' b' : Byte) :
    mkWord o p c a b &&& mkWord o' p' c' a' b' = mkWord (o &&& o') (p &&& p') (c &&& c') (a &&& a') (b &&& b') := by
  apply BitVec.eq_of_getLsbD_eq
  intro i hi
  simp only [mkWord]
  interval_cases i <;> simp

/-- A row is found by its own code. -/
@[simp] theorem opOf_code (o : Op) : opOf o.code = some o := by cases o <;> rfl

/-- A row found by a code has that code. -/
theorem code_of_opOf {c : BitVec 8} {o : Op} (h : opOf c = some o) : o.code = c := by
  unfold opOf at h
  split at h <;> first | (cases h; rfl) | cases h

@[simp] theorem hdrFieldOf_code (f : HdrField) : hdrFieldOf f.code = some f := by cases f <;> rfl

/-- The span a word asks for, given its row. -/
theorem spanNeed_mkWord (o : Op) (p c : BitVec 4) (a b : Byte) :
    spanNeed (mkWord o.code p c a b) = if o.takesSpan then a.toNat else 0 := by
  simp [spanNeed]

end Sys2Proof
end

