-- ==== Sys2Proof/Laws/State.lean ====
section
/-! SUPPORT. The small lemmas of State: what each named update does to each field, and reading back what was written. -/

namespace Sys2Proof.Machine.State

variable (s : State)

@[simp] theorem setPb_cfg (p : PbIndex) (b : PacketBuffer) : (s.setPb p b).cfg = s.cfg := rfl
@[simp] theorem setPb_buffers (p : PbIndex) (b : PacketBuffer) : (s.setPb p b).buffers = s.buffers.set p.toNat b := rfl
@[simp] theorem setPb_localAddr (p : PbIndex) (b : PacketBuffer) : (s.setPb p b).localAddr = s.localAddr := rfl
@[simp] theorem setPb_parsers (p : PbIndex) (b : PacketBuffer) : (s.setPb p b).parsers = s.parsers := rfl
@[simp] theorem setPb_job (p : PbIndex) (b : PacketBuffer) : (s.setPb p b).job = s.job := rfl
@[simp] theorem setPb_transports (p : PbIndex) (b : PacketBuffer) : (s.setPb p b).transports = s.transports := rfl
@[simp] theorem setPb_commands (p : PbIndex) (b : PacketBuffer) : (s.setPb p b).commands = s.commands := rfl
@[simp] theorem setPb_spanIn (p : PbIndex) (b : PacketBuffer) : (s.setPb p b).spanIn = s.spanIn := rfl
@[simp] theorem setPb_turns (p : PbIndex) (b : PacketBuffer) : (s.setPb p b).turns = s.turns := rfl
@[simp] theorem setPb_responses (p : PbIndex) (b : PacketBuffer) : (s.setPb p b).responses = s.responses := rfl
@[simp] theorem setPb_events (p : PbIndex) (b : PacketBuffer) : (s.setPb p b).events = s.events := rfl
@[simp] theorem setPb_draws (p : PbIndex) (b : PacketBuffer) : (s.setPb p b).draws = s.draws := rfl

@[simp] theorem setParser_cfg (ch : ChIndex) (sc : List Byte) : (s.setParser ch sc).cfg = s.cfg := rfl
@[simp] theorem setParser_buffers (ch : ChIndex) (sc : List Byte) : (s.setParser ch sc).buffers = s.buffers := rfl
@[simp] theorem setParser_localAddr (ch : ChIndex) (sc : List Byte) : (s.setParser ch sc).localAddr = s.localAddr := rfl
@[simp] theorem setParser_parsers (ch : ChIndex) (sc : List Byte) : (s.setParser ch sc).parsers = s.parsers.set ch.toNat sc := rfl
@[simp] theorem setParser_job (ch : ChIndex) (sc : List Byte) : (s.setParser ch sc).job = s.job := rfl
@[simp] theorem setParser_transports (ch : ChIndex) (sc : List Byte) : (s.setParser ch sc).transports = s.transports := rfl
@[simp] theorem setParser_commands (ch : ChIndex) (sc : List Byte) : (s.setParser ch sc).commands = s.commands := rfl
@[simp] theorem setParser_spanIn (ch : ChIndex) (sc : List Byte) : (s.setParser ch sc).spanIn = s.spanIn := rfl
@[simp] theorem setParser_turns (ch : ChIndex) (sc : List Byte) : (s.setParser ch sc).turns = s.turns := rfl
@[simp] theorem setParser_responses (ch : ChIndex) (sc : List Byte) : (s.setParser ch sc).responses = s.responses := rfl
@[simp] theorem setParser_events (ch : ChIndex) (sc : List Byte) : (s.setParser ch sc).events = s.events := rfl
@[simp] theorem setParser_draws (ch : ChIndex) (sc : List Byte) : (s.setParser ch sc).draws = s.draws := rfl

@[simp] theorem setTransport_cfg (ch : ChIndex) (t : Transport) : (s.setTransport ch t).cfg = s.cfg := rfl
@[simp] theorem setTransport_buffers (ch : ChIndex) (t : Transport) : (s.setTransport ch t).buffers = s.buffers := rfl
@[simp] theorem setTransport_localAddr (ch : ChIndex) (t : Transport) : (s.setTransport ch t).localAddr = s.localAddr := rfl
@[simp] theorem setTransport_parsers (ch : ChIndex) (t : Transport) : (s.setTransport ch t).parsers = s.parsers := rfl
@[simp] theorem setTransport_job (ch : ChIndex) (t : Transport) : (s.setTransport ch t).job = s.job := rfl
@[simp] theorem setTransport_transports (ch : ChIndex) (t : Transport) : (s.setTransport ch t).transports = s.transports.set ch.toNat t := rfl
@[simp] theorem setTransport_commands (ch : ChIndex) (t : Transport) : (s.setTransport ch t).commands = s.commands := rfl
@[simp] theorem setTransport_spanIn (ch : ChIndex) (t : Transport) : (s.setTransport ch t).spanIn = s.spanIn := rfl
@[simp] theorem setTransport_turns (ch : ChIndex) (t : Transport) : (s.setTransport ch t).turns = s.turns := rfl
@[simp] theorem setTransport_responses (ch : ChIndex) (t : Transport) : (s.setTransport ch t).responses = s.responses := rfl
@[simp] theorem setTransport_events (ch : ChIndex) (t : Transport) : (s.setTransport ch t).events = s.events := rfl
@[simp] theorem setTransport_draws (ch : ChIndex) (t : Transport) : (s.setTransport ch t).draws = s.draws := rfl

@[simp] theorem respond_cfg (r : Response) : (s.respond r).cfg = s.cfg := rfl
@[simp] theorem respond_buffers (r : Response) : (s.respond r).buffers = s.buffers := rfl
@[simp] theorem respond_localAddr (r : Response) : (s.respond r).localAddr = s.localAddr := rfl
@[simp] theorem respond_parsers (r : Response) : (s.respond r).parsers = s.parsers := rfl
@[simp] theorem respond_job (r : Response) : (s.respond r).job = none := rfl
@[simp] theorem respond_transports (r : Response) : (s.respond r).transports = s.transports := rfl
@[simp] theorem respond_commands (r : Response) : (s.respond r).commands = s.commands := rfl
@[simp] theorem respond_spanIn (r : Response) : (s.respond r).spanIn = s.spanIn := rfl
@[simp] theorem respond_turns (r : Response) : (s.respond r).turns = s.turns := rfl
@[simp] theorem respond_responses (r : Response) : (s.respond r).responses = s.responses ++ [r] := rfl
@[simp] theorem respond_events (r : Response) : (s.respond r).events = s.events := rfl
@[simp] theorem respond_draws (r : Response) : (s.respond r).draws = s.draws := rfl

@[simp] theorem emit_cfg (ch : ChIndex) (e : Event) : (s.emit ch e).cfg = s.cfg := rfl
@[simp] theorem emit_buffers (ch : ChIndex) (e : Event) : (s.emit ch e).buffers = s.buffers := rfl
@[simp] theorem emit_localAddr (ch : ChIndex) (e : Event) : (s.emit ch e).localAddr = s.localAddr := rfl
@[simp] theorem emit_parsers (ch : ChIndex) (e : Event) : (s.emit ch e).parsers = s.parsers := rfl
@[simp] theorem emit_job (ch : ChIndex) (e : Event) : (s.emit ch e).job = s.job := rfl
@[simp] theorem emit_transports (ch : ChIndex) (e : Event) : (s.emit ch e).transports = s.transports := rfl
@[simp] theorem emit_commands (ch : ChIndex) (e : Event) : (s.emit ch e).commands = s.commands := rfl
@[simp] theorem emit_spanIn (ch : ChIndex) (e : Event) : (s.emit ch e).spanIn = s.spanIn := rfl
@[simp] theorem emit_turns (ch : ChIndex) (e : Event) : (s.emit ch e).turns = s.turns := rfl
@[simp] theorem emit_responses (ch : ChIndex) (e : Event) : (s.emit ch e).responses = s.responses := rfl
@[simp] theorem emit_events (ch : ChIndex) (e : Event) : (s.emit ch e).events = s.events ++ [(ch, e)] := rfl
@[simp] theorem emit_draws (ch : ChIndex) (e : Event) : (s.emit ch e).draws = s.draws := rfl

@[simp] theorem resetCore_cfg : (s.resetCore).cfg = s.cfg := rfl
@[simp] theorem resetCore_buffers : (s.resetCore).buffers = List.replicate s.cfg.nPb PacketBuffer.empty := rfl
@[simp] theorem resetCore_localAddr : (s.resetCore).localAddr = 0x00#8 := rfl
@[simp] theorem resetCore_parsers : (s.resetCore).parsers = List.replicate s.cfg.nCh [] := rfl
@[simp] theorem resetCore_job : (s.resetCore).job = none := rfl
@[simp] theorem resetCore_transports : (s.resetCore).transports = s.transports := rfl
@[simp] theorem resetCore_commands : (s.resetCore).commands = s.commands := rfl
@[simp] theorem resetCore_spanIn : (s.resetCore).spanIn = s.spanIn := rfl
@[simp] theorem resetCore_turns : (s.resetCore).turns = s.turns := rfl
@[simp] theorem resetCore_responses : (s.resetCore).responses = s.responses := rfl
@[simp] theorem resetCore_events : (s.resetCore).events = s.events := rfl
@[simp] theorem resetCore_draws : (s.resetCore).draws = s.draws := rfl

@[simp] theorem taken_cfg (w : CmdWord) (rest : List HostCommand) : (s.taken w rest).cfg = s.cfg := rfl
@[simp] theorem taken_buffers (w : CmdWord) (rest : List HostCommand) : (s.taken w rest).buffers = s.buffers := rfl
@[simp] theorem taken_localAddr (w : CmdWord) (rest : List HostCommand) : (s.taken w rest).localAddr = s.localAddr := rfl
@[simp] theorem taken_parsers (w : CmdWord) (rest : List HostCommand) : (s.taken w rest).parsers = s.parsers := rfl
@[simp] theorem taken_job (w : CmdWord) (rest : List HostCommand) : (s.taken w rest).job = s.job := rfl
@[simp] theorem taken_transports (w : CmdWord) (rest : List HostCommand) : (s.taken w rest).transports = s.transports := rfl
@[simp] theorem taken_commands (w : CmdWord) (rest : List HostCommand) : (s.taken w rest).commands = rest := rfl
@[simp] theorem taken_spanIn (w : CmdWord) (rest : List HostCommand) : (s.taken w rest).spanIn = s.spanIn.drop (spanNeed w) := rfl
@[simp] theorem taken_turns (w : CmdWord) (rest : List HostCommand) : (s.taken w rest).turns = s.turns := rfl
@[simp] theorem taken_responses (w : CmdWord) (rest : List HostCommand) : (s.taken w rest).responses = s.responses := rfl
@[simp] theorem taken_events (w : CmdWord) (rest : List HostCommand) : (s.taken w rest).events = s.events := rfl
@[simp] theorem taken_draws (w : CmdWord) (rest : List HostCommand) : (s.taken w rest).draws = s.draws := rfl

/-! A command's end is always one response. -/

@[simp] theorem done_eq : s.done = s.respond { status := .ok } := rfl
@[simp] theorem answer_eq (v : Scalar) : s.answer v = s.respond { status := .ok, rdata := v } := rfl
@[simp] theorem answerSpan_eq (bs : List Byte) : s.answerSpan bs = s.respond { status := .ok, rspan := bs } := rfl
@[simp] theorem raise_eq (e : Status) : s.raise e = s.respond { status := e } := rfl
@[simp] theorem illegal_eq : s.illegal = s.respond { status := .illegalCommand } := rfl

/-! Reading back. -/

variable {s}

theorem pb_setPb_self {p : PbIndex} (h : p.toNat < s.buffers.length) (b : PacketBuffer) : (s.setPb p b).pb p = b := by
  simp [pb, h]

theorem pb_setPb_ne {p q : PbIndex} (h : q ≠ p) (b : PacketBuffer) : (s.setPb p b).pb q = s.pb q := by
  have : p.toNat ≠ q.toNat := fun e => h (BitVec.eq_of_toNat_eq e.symm)
  simp [pb, this]

theorem parser_setParser_self {ch : ChIndex} (h : ch.toNat < s.parsers.length) (sc : List Byte) :
    (s.setParser ch sc).parser ch = sc := by
  simp [parser, h]

theorem parser_setParser_ne {ch c : ChIndex} (h : c ≠ ch) (sc : List Byte) :
    (s.setParser ch sc).parser c = s.parser c := by
  have : ch.toNat ≠ c.toNat := fun e => h (BitVec.eq_of_toNat_eq e.symm)
  simp [parser, this]

theorem transport_setTransport_self {ch : ChIndex} (h : ch.toNat < s.transports.length) (t : Transport) :
    (s.setTransport ch t).transport ch = t := by
  simp [transport, h]

theorem transport_setTransport_ne {ch c : ChIndex} (h : c ≠ ch) (t : Transport) :
    (s.setTransport ch t).transport c = s.transport c := by
  have : ch.toNat ≠ c.toNat := fun e => h (BitVec.eq_of_toNat_eq e.symm)
  simp [transport, this]

theorem rxq_setRxq_self {ch : ChIndex} (h : ch.toNat < s.transports.length) (q : List Byte) :
    (s.setRxq ch q).rxq ch = q := by
  simp [rxq, setRxq, transport_setTransport_self h]

theorem rxq_setRxq_ne {ch c : ChIndex} (h : c ≠ ch) (q : List Byte) : (s.setRxq ch q).rxq c = s.rxq c := by
  simp [rxq, setRxq, transport_setTransport_ne h]

variable (s)

@[simp] theorem pb_respond (r : Response) (p : PbIndex) : (s.respond r).pb p = s.pb p := rfl
@[simp] theorem pb_emit (ch : ChIndex) (e : Event) (p : PbIndex) : (s.emit ch e).pb p = s.pb p := rfl
@[simp] theorem pb_setParser (ch : ChIndex) (sc : List Byte) (p : PbIndex) : (s.setParser ch sc).pb p = s.pb p := rfl
@[simp] theorem pb_setTransport (ch : ChIndex) (t : Transport) (p : PbIndex) : (s.setTransport ch t).pb p = s.pb p := rfl
@[simp] theorem pb_setRxq (ch : ChIndex) (q : List Byte) (p : PbIndex) : (s.setRxq ch q).pb p = s.pb p := rfl
@[simp] theorem parser_respond (r : Response) (ch : ChIndex) : (s.respond r).parser ch = s.parser ch := rfl
@[simp] theorem parser_emit (c : ChIndex) (e : Event) (ch : ChIndex) : (s.emit c e).parser ch = s.parser ch := rfl
@[simp] theorem parser_setPb (p : PbIndex) (b : PacketBuffer) (ch : ChIndex) : (s.setPb p b).parser ch = s.parser ch := rfl
@[simp] theorem parser_setTransport (c : ChIndex) (t : Transport) (ch : ChIndex) :
    (s.setTransport c t).parser ch = s.parser ch := rfl
@[simp] theorem parser_setRxq (c : ChIndex) (q : List Byte) (ch : ChIndex) : (s.setRxq c q).parser ch = s.parser ch := rfl
@[simp] theorem transport_respond (r : Response) (ch : ChIndex) : (s.respond r).transport ch = s.transport ch := rfl
@[simp] theorem transport_emit (c : ChIndex) (e : Event) (ch : ChIndex) : (s.emit c e).transport ch = s.transport ch := rfl
@[simp] theorem transport_setPb (p : PbIndex) (b : PacketBuffer) (ch : ChIndex) :
    (s.setPb p b).transport ch = s.transport ch := rfl
@[simp] theorem transport_setParser (c : ChIndex) (sc : List Byte) (ch : ChIndex) :
    (s.setParser c sc).transport ch = s.transport ch := rfl
@[simp] theorem rxq_respond (r : Response) (ch : ChIndex) : (s.respond r).rxq ch = s.rxq ch := rfl
@[simp] theorem rxq_emit (c : ChIndex) (e : Event) (ch : ChIndex) : (s.emit c e).rxq ch = s.rxq ch := rfl
@[simp] theorem rxq_setPb (p : PbIndex) (b : PacketBuffer) (ch : ChIndex) : (s.setPb p b).rxq ch = s.rxq ch := rfl
@[simp] theorem rxq_setParser (c : ChIndex) (sc : List Byte) (ch : ChIndex) : (s.setParser c sc).rxq ch = s.rxq ch := rfl

end Sys2Proof.Machine.State
end

