-- ==== Sys2Proof/Laws/Ops.lean ====
section
/-! SUPPORT. What each shared operation can do, said once: cite these instead of unfolding the operation. -/

namespace Sys2Proof.Machine

/-! ## Index checks (30_encoding.md rule R103) -/

theorem ifBuffer_of_lt {p : PbIndex} {s : State} {k : Out} (h : p.toNat < s.cfg.nPb) : ifBuffer p s k = k := by
  simp [ifBuffer, h]

theorem ifBuffer_of_not_lt {p : PbIndex} {s : State} {k : Out} (h : ¬ p.toNat < s.cfg.nPb) :
    ifBuffer p s k = .next s.illegal := by
  simp [ifBuffer, h]

theorem ifChannel_of_lt {ch : ChIndex} {s : State} {k : Out} (h : ch.toNat < s.cfg.nCh) : ifChannel ch s k = k := by
  simp [ifChannel, h]

theorem ifChannel_of_not_lt {ch : ChIndex} {s : State} {k : Out} (h : ¬ ch.toNat < s.cfg.nCh) :
    ifChannel ch s k = .next s.illegal := by
  simp [ifChannel, h]

theorem ifBuffer_cases {p : PbIndex} {s t : State} {k : Out} (h : ifBuffer p s k = .next t) :
    (p.toNat < s.cfg.nPb ∧ k = .next t) ∨ (¬ p.toNat < s.cfg.nPb ∧ t = s.illegal) := by
  unfold ifBuffer at h
  split at h
  · exact .inl ⟨‹_›, h⟩
  · cases h; exact .inr ⟨‹_›, rfl⟩

theorem ifChannel_cases {ch : ChIndex} {s t : State} {k : Out} (h : ifChannel ch s k = .next t) :
    (ch.toNat < s.cfg.nCh ∧ k = .next t) ∨ (¬ ch.toNat < s.cfg.nCh ∧ t = s.illegal) := by
  unfold ifChannel at h
  split at h
  · exact .inl ⟨‹_›, h⟩
  · cases h; exact .inr ⟨‹_›, rfl⟩

/-! ## Bytes (40_packet_buffer.md rule R132) -/

@[simp] theorem length_leBytes (n : Nat) (v : Scalar) : (leBytes n v).length = n := by simp [leBytes]

@[simp] theorem leVal_nil : leVal [] = 0 := rfl
@[simp] theorem leVal_cons (b : Byte) (s : List Byte) : leVal (b :: s) = b.toNat + 256 * leVal s := rfl

theorem leVal_lt (s : List Byte) : leVal s < 256 ^ s.length := by
  induction s with
  | nil => simp
  | cons b s ih =>
    have := b.isLt
    simp only [leVal_cons, List.length_cons, Nat.pow_succ]
    omega

/-- A payload read returns as many bytes as it is asked for. -/
@[simp] theorem length_memRead (b : PacketBuffer) (n d : Nat) : (memRead b n d).length = n := by
  simp only [memRead, List.length_append, List.length_take, List.length_map, List.length_range, PacketBuffer.len]
  omega

/-- A read within the length is the stored bytes and draws nothing. -/
theorem memRead_of_le {b : PacketBuffer} {n d : Nat} (h : n ≤ b.payload.length) : memRead b n d = b.payload.take n := by
  simp [memRead, PacketBuffer.len, Nat.sub_eq_zero_of_le h]

/-! ## The header stays, the bytes below the store stay (10_state.md rule R25) -/

@[simp] theorem store_dst (b : PacketBuffer) (a : Nat) (s : List Byte) : (b.store a s).dst = b.dst := rfl
@[simp] theorem store_src (b : PacketBuffer) (a : Nat) (s : List Byte) : (b.store a s).src = b.src := rfl
@[simp] theorem store_typ (b : PacketBuffer) (a : Nat) (s : List Byte) : (b.store a s).typ = b.typ := rfl
@[simp] theorem store_payload (b : PacketBuffer) (a : Nat) (s : List Byte) :
    (b.store a s).payload = b.payload.take a ++ s := rfl

theorem store_below {b : PacketBuffer} {a i : Nat} {s : List Byte} (ha : a ≤ b.payload.length) (hi : i < a) :
    (b.store a s).payload[i]? = b.payload[i]? := by
  rw [store_payload, List.getElem?_append_left (by simp; omega), List.getElem?_take_of_lt hi]

/-! ## Sets, adds and gets -/

theorem setPayload_cases {p : PbIndex} {bytes : List Byte} {s t : State} (h : setPayload p bytes s = .next t) :
    (¬ p.toNat < s.cfg.nPb ∧ t = s.illegal) ∨
    (p.toNat < s.cfg.nPb ∧ s.cfg.maxDataLen < bytes.length ∧ t = s.raise .payloadTooLarge) ∨
    (p.toNat < s.cfg.nPb ∧ bytes.length ≤ s.cfg.maxDataLen ∧ t = (s.setPb p ((s.pb p).store 0 bytes)).done) := by
  rcases ifBuffer_cases h with ⟨hp, h⟩ | h
  · split at h <;> cases h
    · exact .inr (.inl ⟨hp, ‹_›, rfl⟩)
    · exact .inr (.inr ⟨hp, by omega, rfl⟩)
  · exact .inl h

theorem addPayload_cases {p : PbIndex} {bytes : List Byte} {s t : State} (h : addPayload p bytes s = .next t) :
    (¬ p.toNat < s.cfg.nPb ∧ t = s.illegal) ∨
    (p.toNat < s.cfg.nPb ∧ s.cfg.maxDataLen < (s.pb p).len + bytes.length ∧ t = s.raise .payloadTooLarge) ∨
    (p.toNat < s.cfg.nPb ∧ (s.pb p).len + bytes.length ≤ s.cfg.maxDataLen ∧
      t = (s.setPb p ((s.pb p).store (s.pb p).len bytes)).done) := by
  rcases ifBuffer_cases h with ⟨hp, h⟩ | h
  · split at h <;> cases h
    · exact .inr (.inl ⟨hp, ‹_›, rfl⟩)
    · exact .inr (.inr ⟨hp, by omega, rfl⟩)
  · exact .inl h

theorem getPayload_cases {p : PbIndex} {n : Nat} {f : List Byte → Response} {s t : State}
    (h : getPayload p n f s = .next t) :
    (¬ p.toNat < s.cfg.nPb ∧ t = s.illegal) ∨
    (p.toNat < s.cfg.nPb ∧
      t = { s with draws := s.draws + (n - (s.pb p).len) }.respond (f (memRead (s.pb p) n s.draws))) := by
  rcases ifBuffer_cases h with ⟨hp, h⟩ | h
  · cases h; exact .inr ⟨hp, rfl⟩
  · exact .inl h

/-! ## The frame encoder (42_send.md) -/

@[simp] theorem length_sendRegion (b : PacketBuffer) : (sendRegion b).length = b.payload.length + 3 := by
  simp [sendRegion]

/-- The whole frame is `n + 6` bytes (30_encoding.md rule R90). -/
@[simp] theorem length_frameOf (c : Config) (b : PacketBuffer) : (frameOf c b).length = b.payload.length + 6 := by
  simp [frameOf]

@[simp] theorem stamp_dst (b : PacketBuffer) (l d : Byte) (ty : Option Byte) : (stamp b l d ty).dst = d := rfl
@[simp] theorem stamp_src (b : PacketBuffer) (l d : Byte) (ty : Option Byte) : (stamp b l d ty).src = l := rfl
@[simp] theorem stamp_typ (b : PacketBuffer) (l d : Byte) (ty : Option Byte) : (stamp b l d ty).typ = ty.getD b.typ := rfl
@[simp] theorem stamp_payload (b : PacketBuffer) (l d : Byte) (ty : Option Byte) : (stamp b l d ty).payload = b.payload := rfl

/-- Everything a write request can do: one request is recorded, and the answer decides between a response and a wait. -/
theorem sendWrite_cases (ch : ChIndex) (f : List Byte) (s : State) :
    (∃ w, writeAnswer (s.transport ch) s.draws = some w ∧
      sendWrite ch f s = (s.writeRequest ch f).respond
        { status := if w.toNat = f.length then .ok else .partialWrite }) ∨
    (writeAnswer (s.transport ch) s.draws = none ∧
      sendWrite ch f s = { s.writeRequest ch f with job := some .awaitWrite }) := by
  unfold sendWrite
  split
  · exact .inl ⟨_, ‹_›, rfl⟩
  · exact .inr ⟨‹_›, rfl⟩

theorem sendPacket_cases {p : PbIndex} {ch : ChIndex} {dst : Byte} {typ : Option Byte} {s t : State}
    (h : sendPacket p ch dst typ s = .next t) :
    ((¬ p.toNat < s.cfg.nPb ∨ ¬ ch.toNat < s.cfg.nCh) ∧ t = s.illegal) ∨
    (p.toNat < s.cfg.nPb ∧ ch.toNat < s.cfg.nCh ∧
      ((s.cfg.maxDataLen < (s.pb p).len ∧
          t = (s.setPb p (stamp (s.pb p) s.localAddr dst typ)).raise .payloadTooLarge) ∨
        ((s.pb p).len ≤ s.cfg.maxDataLen ∧
          t = sendWrite ch (frameOf s.cfg (stamp (s.pb p) s.localAddr dst typ))
            (s.setPb p (stamp (s.pb p) s.localAddr dst typ))))) := by
  rcases ifBuffer_cases h with ⟨hp, h⟩ | h
  · rcases ifChannel_cases h with ⟨hc, h⟩ | h
    · have e : (stamp (s.pb p) s.localAddr dst typ).len = (s.pb p).len := rfl
      simp only [e] at h
      split at h <;> cases h
      · exact .inr ⟨hp, hc, .inl ⟨‹_›, rfl⟩⟩
      · exact .inr ⟨hp, hc, .inr ⟨by omega, rfl⟩⟩
    · exact .inl ⟨.inr h.1, h.2⟩
  · exact .inl ⟨.inl h.1, h.2⟩

/-! ## The byte step (43_receive.md rule R211) -/

/-- The rows of R211: every byte step is one of these. -/
theorem rxByte_cases (c : Config) (a : Byte) (sc : List Byte) (b : Byte) :
    (sc = [] ∧ rxByte c a sc b = rxIdle b) ∨ (sc.length = 1 ∧ rxByte c a sc b = rxLength c sc b) ∨
      (2 ≤ sc.length ∧ rxByte c a sc b = rxAccumulate c a sc b) := by
  match sc with
  | [] => exact .inl ⟨rfl, rfl⟩
  | [x] => exact .inr (.inl ⟨rfl, rfl⟩)
  | x :: y :: r => exact .inr (.inr ⟨by simp, rfl⟩)

/-- Completion leaves the cursor at 0 whatever its outcome (R220). -/
@[simp] theorem rxComplete_scratch (c : Config) (a : Byte) (sc : List Byte) : (rxComplete c a sc).scratch = [] := by
  unfold rxComplete
  simp only
  split
  · rfl
  · split <;> rfl

@[simp] theorem takePacket_none (s : State) (p : PbIndex) : s.takePacket p none = s := rfl
@[simp] theorem takePacket_some (s : State) (p : PbIndex) (b : PacketBuffer) : s.takePacket p (some b) = s.setPb p b := rfl

variable (s : State) (p : PbIndex)

@[simp] theorem takePacket_cfg (o : Option PacketBuffer) : (s.takePacket p o).cfg = s.cfg := by cases o <;> rfl
@[simp] theorem takePacket_localAddr (o : Option PacketBuffer) : (s.takePacket p o).localAddr = s.localAddr := by cases o <;> rfl
@[simp] theorem takePacket_parsers (o : Option PacketBuffer) : (s.takePacket p o).parsers = s.parsers := by cases o <;> rfl
@[simp] theorem takePacket_job (o : Option PacketBuffer) : (s.takePacket p o).job = s.job := by cases o <;> rfl
@[simp] theorem takePacket_transports (o : Option PacketBuffer) : (s.takePacket p o).transports = s.transports := by cases o <;> rfl
@[simp] theorem takePacket_commands (o : Option PacketBuffer) : (s.takePacket p o).commands = s.commands := by cases o <;> rfl
@[simp] theorem takePacket_spanIn (o : Option PacketBuffer) : (s.takePacket p o).spanIn = s.spanIn := by cases o <;> rfl
@[simp] theorem takePacket_turns (o : Option PacketBuffer) : (s.takePacket p o).turns = s.turns := by cases o <;> rfl
@[simp] theorem takePacket_responses (o : Option PacketBuffer) : (s.takePacket p o).responses = s.responses := by cases o <;> rfl
@[simp] theorem takePacket_events (o : Option PacketBuffer) : (s.takePacket p o).events = s.events := by cases o <;> rfl
@[simp] theorem takePacket_draws (o : Option PacketBuffer) : (s.takePacket p o).draws = s.draws := by cases o <;> rfl

variable (ch : ChIndex) (b : Byte)

/-! The fields a byte step leaves alone (10_state.md rule R30), and those it moves. -/

@[simp] theorem rxStep_cfg :
    (s.rxStep p ch b).cfg = s.cfg := by simp [State.rxStep]
@[simp] theorem rxStep_localAddr :
    (s.rxStep p ch b).localAddr = s.localAddr := by simp [State.rxStep]
@[simp] theorem rxStep_parsers :
    (s.rxStep p ch b).parsers = s.parsers.set ch.toNat (rxByte s.cfg s.localAddr (s.parser ch) b).scratch := by simp [State.rxStep]
@[simp] theorem rxStep_job :
    (s.rxStep p ch b).job = s.job := by simp [State.rxStep]
@[simp] theorem rxStep_transports :
    (s.rxStep p ch b).transports = s.transports := by simp [State.rxStep]
@[simp] theorem rxStep_commands :
    (s.rxStep p ch b).commands = s.commands := by simp [State.rxStep]
@[simp] theorem rxStep_spanIn :
    (s.rxStep p ch b).spanIn = s.spanIn := by simp [State.rxStep]
@[simp] theorem rxStep_turns :
    (s.rxStep p ch b).turns = s.turns := by simp [State.rxStep]
@[simp] theorem rxStep_responses :
    (s.rxStep p ch b).responses = s.responses := by simp [State.rxStep]
@[simp] theorem rxStep_events :
    (s.rxStep p ch b).events = s.events ++ [(ch, (rxByte s.cfg s.localAddr (s.parser ch) b).event)] := by simp [State.rxStep]
@[simp] theorem rxStep_draws :
    (s.rxStep p ch b).draws = s.draws := by simp [State.rxStep]

theorem rxStep_buffers : (s.rxStep p ch b).buffers =
    match (rxByte s.cfg s.localAddr (s.parser ch) b).packet with
    | none => s.buffers
    | some k => s.buffers.set p.toNat k := by
  simp only [State.rxStep]
  cases (rxByte s.cfg s.localAddr (s.parser ch) b).packet <;> rfl

variable {s ch b}

/-- A byte step that does not accept writes no packet buffer (43_receive.md rule R223). -/
theorem rxStep_buffers_of_not_accepts (h : s.rxAccepts ch b = false) : (s.rxStep p ch b).buffers = s.buffers := by
  unfold State.rxAccepts at h
  rw [rxStep_buffers]
  cases hp : (rxByte s.cfg s.localAddr (s.parser ch) b).packet with
  | none => rfl
  | some k => simp [hp] at h

end Sys2Proof.Machine
end

