-- ==== Sys2Proof/Laws/Memory.lean ====
section
/-! SUPPORT. Every operation on the byte storage keeps its canonical form (10_state.md rules R23, R28, R29). -/

namespace Sys2Proof.Machine

/-- Every packet buffer after a write is the written one or an old one. -/
theorem mem_buffers_setPb {s : State} {p : PbIndex} {b x : PacketBuffer} (h : x ∈ (s.setPb p b).buffers) :
    x = b ∨ x ∈ s.buffers := by
  rcases List.mem_or_eq_of_mem_set h with h | h
  · exact .inr h
  · exact .inl h

theorem mem_parsers_setParser {s : State} {ch : ChIndex} {sc x : List Byte} (h : x ∈ (s.setParser ch sc).parsers) :
    x = sc ∨ x ∈ s.parsers := by
  rcases List.mem_or_eq_of_mem_set h with h | h
  · exact .inr h
  · exact .inl h

/-- A write of a packet within the capacity keeps the form. -/
theorem Memory.wf_setPb {s : State} (h : Memory.wf s) (p : PbIndex) {b : PacketBuffer}
    (hb : b.payload.length ≤ s.cfg.maxDataLen) : Memory.wf (s.setPb p b) :=
  ⟨fun x hx => by rcases mem_buffers_setPb hx with rfl | hx <;> [exact hb; exact h.1 x hx], h.2⟩

/-- A write of a parser state within `SCRATCH_CAP` keeps the form. -/
theorem Memory.wf_setParser {s : State} (h : Memory.wf s) (ch : ChIndex) {sc : List Byte}
    (hs : sc.length ≤ scratchCap s.cfg) : Memory.wf (s.setParser ch sc) :=
  ⟨h.1, fun x hx => by rcases mem_parsers_setParser hx with rfl | hx <;> [exact hs; exact h.2 x hx]⟩

/-- The other updates touch no byte storage. -/
theorem Memory.wf_respond {s : State} (h : Memory.wf s) (r : Response) : Memory.wf (s.respond r) := h
theorem Memory.wf_emit {s : State} (h : Memory.wf s) (ch : ChIndex) (e : Event) : Memory.wf (s.emit ch e) := h
theorem Memory.wf_setTransport {s : State} (h : Memory.wf s) (ch : ChIndex) (t : Transport) :
    Memory.wf (s.setTransport ch t) := h

/-- Reset leaves the form (R37). -/
theorem Memory.wf_resetCore (s : State) : Memory.wf s.resetCore := by
  constructor
  · intro b hb
    rw [State.resetCore_buffers] at hb
    rw [List.eq_of_mem_replicate hb]
    exact Nat.zero_le _
  · intro sc hs
    rw [State.resetCore_parsers] at hs
    rw [List.eq_of_mem_replicate hs]
    exact Nat.zero_le _

theorem Memory.wf_reset : Memory.wf State.reset := by decide

/-- What `PB[p]` holds is within the capacity, whether or not `p` exists. -/
theorem len_pb_le {s : State} (h : ∀ b ∈ s.buffers, b.payload.length ≤ s.cfg.maxDataLen) (p : PbIndex) :
    (s.pb p).payload.length ≤ s.cfg.maxDataLen := by
  unfold State.pb
  rw [List.getD_eq_getElem?_getD]
  cases hb : s.buffers[p.toNat]? with
  | none => exact Nat.zero_le _
  | some b => exact h b (List.mem_of_getElem? hb)

/-- A set within the capacity keeps the form. -/
theorem Memory.wf_set {s : State} (h : Memory.wf s) (p : PbIndex) {bytes : List Byte}
    (hb : bytes.length ≤ s.cfg.maxDataLen) : Memory.wf (s.setPb p ((s.pb p).store 0 bytes)) :=
  Memory.wf_setPb h p (by simpa using hb)

/-- An add within the capacity keeps the form. -/
theorem Memory.wf_add {s : State} (h : Memory.wf s) (p : PbIndex) {bytes : List Byte}
    (hb : (s.pb p).len + bytes.length ≤ s.cfg.maxDataLen) :
    Memory.wf (s.setPb p ((s.pb p).store (s.pb p).len bytes)) :=
  Memory.wf_setPb h p (by simpa [PacketBuffer.len] using hb)

/-- R29 bounds the cursor between steps below `SCRATCH_CAP`. -/
theorem parserWf_length {c : Config} {sc : List Byte} (h : parserWf c sc = true) : sc.length ≤ lenMax c + 1 := by
  match sc with
  | [] => exact Nat.zero_le _
  | [_] => exact Nat.succ_le_succ (Nat.zero_le _)
  | a :: l :: r =>
    simp only [parserWf, lenLegal, Bool.and_eq_true, decide_eq_true_eq] at h
    simp only [List.length_cons]
    omega

/-- A byte step keeps R29 for its parser. -/
theorem parserWf_rxByte {c : Config} {a : Byte} {sc : List Byte} (h : parserWf c sc = true) (b : Byte) :
    parserWf c (rxByte c a sc b).scratch = true := by
  match sc with
  | [] =>
    show parserWf c (rxIdle b).scratch = true
    unfold rxIdle
    split
    · simp_all [parserWf]
    · rfl
  | [x] =>
    show parserWf c (rxLength c [x] b).scratch = true
    unfold rxLength
    split
    · have hl := ‹lenLegal c b = true›
      have h4 : lenMin ≤ b.toNat := by
        simp only [lenLegal, Bool.and_eq_true, decide_eq_true_eq] at hl
        exact hl.1
      have : 1 ≤ b.toNat := Nat.le_trans (by decide) h4
      simp_all [parserWf]
    · rfl
  | x :: l :: r =>
    show parserWf c (rxAccumulate c a (x :: l :: r) b).scratch = true
    simp only [parserWf, Bool.and_eq_true, decide_eq_true_eq] at h
    unfold rxAccumulate
    simp only
    split
    · simp [parserWf]
    · rename_i hne
      have h4 : lenMin ≤ l.toNat := by
        have := h.1.2
        simp only [lenLegal, Bool.and_eq_true, decide_eq_true_eq] at this
        exact this.1
      simp only [lenMin, List.length_append, List.length_cons, List.length_nil, List.getD_cons_succ, List.getD_cons_zero] at hne h4
      simp only [List.cons_append, parserWf, h.1.1, h.1.2, Bool.and_eq_true, decide_eq_true_eq, true_and, List.length_append,
        List.length_cons, List.length_nil]
      have h2 := h.2
      simp only [Config.synLen, Config.lenLen, Config.hdrLen, Config.crcLen] at hne h4
      omega

end Sys2Proof.Machine
end

