-- ==== Sys2Proof/Laws/PerInstr.lean ====
section
/-! SUPPORT. Statements for all instructions, one lemma per constructor: EncodesItsRow says that the encoded word of an instruction
lies in its row of spec/opcode_table.json (`w AND mask = match`, 30_encoding.md rule R101), and that wire bytes encode as
themselves. -/

namespace Sys2Proof.Laws.EncodesItsRow

/-- The transaction lies in the row of `o`. -/
def InRow (o : Op) (t : Transaction) : Prop :=
  ∃ w d s, t = .command w d s ∧ w &&& (tableRow o).mask = (tableRow o).mtch

/-- The statement: the encoding of `i` lies in its row. -/
def Statement (i : Instr) : Prop :=
  match i with
  | .pbClear _ => InRow .pbClear (encode i)
  | .pbLength _ => InRow .pbLength (encode i)
  | .pbRaw _ => InRow .pbRaw (encode i)
  | .pbRdhdr _ _ => InRow .pbRdhdr (encode i)
  | .pbWrhdr _ _ _ => InRow .pbWrhdr (encode i)
  | .pbSetB _ _ => InRow .pbSetB (encode i)
  | .pbSetH _ _ => InRow .pbSetH (encode i)
  | .pbSetW _ _ => InRow .pbSetW (encode i)
  | .pbSetD _ _ => InRow .pbSetD (encode i)
  | .pbSetBytes _ _ => InRow .pbSetBytes (encode i)
  | .pbAddB _ _ => InRow .pbAddB (encode i)
  | .pbAddH _ _ => InRow .pbAddH (encode i)
  | .pbAddW _ _ => InRow .pbAddW (encode i)
  | .pbAddD _ _ => InRow .pbAddD (encode i)
  | .pbAddBytes _ _ => InRow .pbAddBytes (encode i)
  | .pbGetUb _ => InRow .pbGetUb (encode i)
  | .pbGetUh _ => InRow .pbGetUh (encode i)
  | .pbGetUw _ => InRow .pbGetUw (encode i)
  | .pbGetD _ => InRow .pbGetD (encode i)
  | .pbGetSb _ => InRow .pbGetSb (encode i)
  | .pbGetSh _ => InRow .pbGetSh (encode i)
  | .pbGetSw _ => InRow .pbGetSw (encode i)
  | .pbGetBytes _ _ => InRow .pbGetBytes (encode i)
  | .csum _ => InRow .csum (encode i)
  | .send _ _ _ => InRow .send (encode i)
  | .sendT _ _ _ _ => InRow .sendT (encode i)
  | .receive _ _ => InRow .receive (encode i)
  | .rxReset _ => InRow .rxReset (encode i)
  | .cfgWraddr _ => InRow .cfgWraddr (encode i)
  | .cfgRdaddr => InRow .cfgRdaddr (encode i)
  | .sysReset => InRow .sysReset (encode i)
  | .frame ch bytes => encode i = .wire ch bytes

/-- A row's mask and match, read as fields. -/
theorem row_fields (o : Op) :
    (tableRow o).mask = mkWord 0xFF#8 (if o.usesPb then 0 else 0xF#4) (if o.usesCh then 0 else 0xF#4)
      (if o.usesA then 0 else 0xFF#8) o.bUnused
    ∧ (tableRow o).mtch = mkWord o.code 0 0 0 0 := by
  cases o <;> decide

/-- A word whose unused fields are zero lies in its row. -/
theorem inRow_mkWord (o : Op) (p : PbIndex) (c : ChIndex) (a b : Byte) (d : Scalar) (s : List Byte)
    (hp : o.usesPb ∨ p = 0) (hc : o.usesCh ∨ c = 0) (ha : o.usesA ∨ a = 0) (hb : b &&& o.bUnused = 0) :
    InRow o (.command (mkWord o.code p c a b) d s) := by
  refine ⟨_, _, _, rfl, ?_⟩
  have hff : ∀ x : BitVec 8, x &&& 0xFF#8 = x := by decide
  rw [(row_fields o).1, (row_fields o).2, mkWord_and, hb, hff]
  congr 1
  · rcases hp with h | h <;> simp [h]
  · rcases hc with h | h <;> simp [h]
  · rcases ha with h | h <;> simp [h]

theorem pbClear (p : PbIndex) : Statement (.pbClear p) :=
  inRow_mkWord .pbClear p 0 0 0 _ _ (.inl rfl) (.inr rfl) (.inr rfl) (by decide)
theorem pbLength (p : PbIndex) : Statement (.pbLength p) :=
  inRow_mkWord .pbLength p 0 0 0 _ _ (.inl rfl) (.inr rfl) (.inr rfl) (by decide)
theorem pbRaw (p : PbIndex) : Statement (.pbRaw p) :=
  inRow_mkWord .pbRaw p 0 0 0 _ _ (.inl rfl) (.inr rfl) (.inr rfl) (by decide)
theorem pbRdhdr (p : PbIndex) (f : HdrField) : Statement (.pbRdhdr p f) :=
  inRow_mkWord .pbRdhdr p 0 0 f.code _ _ (.inl rfl) (.inr rfl) (.inr rfl) (by cases f <;> decide)
theorem pbWrhdr (p : PbIndex) (f : HdrField) (v : Byte) : Statement (.pbWrhdr p f v) :=
  inRow_mkWord .pbWrhdr p 0 v f.code _ _ (.inl rfl) (.inr rfl) (.inl rfl) (by cases f <;> decide)
theorem pbSetB (p : PbIndex) (d : Scalar) : Statement (.pbSetB p d) :=
  inRow_mkWord .pbSetB p 0 0 0 _ _ (.inl rfl) (.inr rfl) (.inr rfl) (by decide)
theorem pbSetH (p : PbIndex) (d : Scalar) : Statement (.pbSetH p d) :=
  inRow_mkWord .pbSetH p 0 0 0 _ _ (.inl rfl) (.inr rfl) (.inr rfl) (by decide)
theorem pbSetW (p : PbIndex) (d : Scalar) : Statement (.pbSetW p d) :=
  inRow_mkWord .pbSetW p 0 0 0 _ _ (.inl rfl) (.inr rfl) (.inr rfl) (by decide)
theorem pbSetD (p : PbIndex) (d : Scalar) : Statement (.pbSetD p d) :=
  inRow_mkWord .pbSetD p 0 0 0 _ _ (.inl rfl) (.inr rfl) (.inr rfl) (by decide)
theorem pbSetBytes (p : PbIndex) (s : List Byte) : Statement (.pbSetBytes p s) :=
  inRow_mkWord .pbSetBytes p 0 _ 0 _ _ (.inl rfl) (.inr rfl) (.inl rfl) (by decide)
theorem pbAddB (p : PbIndex) (d : Scalar) : Statement (.pbAddB p d) :=
  inRow_mkWord .pbAddB p 0 0 0 _ _ (.inl rfl) (.inr rfl) (.inr rfl) (by decide)
theorem pbAddH (p : PbIndex) (d : Scalar) : Statement (.pbAddH p d) :=
  inRow_mkWord .pbAddH p 0 0 0 _ _ (.inl rfl) (.inr rfl) (.inr rfl) (by decide)
theorem pbAddW (p : PbIndex) (d : Scalar) : Statement (.pbAddW p d) :=
  inRow_mkWord .pbAddW p 0 0 0 _ _ (.inl rfl) (.inr rfl) (.inr rfl) (by decide)
theorem pbAddD (p : PbIndex) (d : Scalar) : Statement (.pbAddD p d) :=
  inRow_mkWord .pbAddD p 0 0 0 _ _ (.inl rfl) (.inr rfl) (.inr rfl) (by decide)
theorem pbAddBytes (p : PbIndex) (s : List Byte) : Statement (.pbAddBytes p s) :=
  inRow_mkWord .pbAddBytes p 0 _ 0 _ _ (.inl rfl) (.inr rfl) (.inl rfl) (by decide)
theorem pbGetUb (p : PbIndex) : Statement (.pbGetUb p) :=
  inRow_mkWord .pbGetUb p 0 0 0 _ _ (.inl rfl) (.inr rfl) (.inr rfl) (by decide)
theorem pbGetUh (p : PbIndex) : Statement (.pbGetUh p) :=
  inRow_mkWord .pbGetUh p 0 0 0 _ _ (.inl rfl) (.inr rfl) (.inr rfl) (by decide)
theorem pbGetUw (p : PbIndex) : Statement (.pbGetUw p) :=
  inRow_mkWord .pbGetUw p 0 0 0 _ _ (.inl rfl) (.inr rfl) (.inr rfl) (by decide)
theorem pbGetD (p : PbIndex) : Statement (.pbGetD p) :=
  inRow_mkWord .pbGetD p 0 0 0 _ _ (.inl rfl) (.inr rfl) (.inr rfl) (by decide)
theorem pbGetSb (p : PbIndex) : Statement (.pbGetSb p) :=
  inRow_mkWord .pbGetSb p 0 0 0 _ _ (.inl rfl) (.inr rfl) (.inr rfl) (by decide)
theorem pbGetSh (p : PbIndex) : Statement (.pbGetSh p) :=
  inRow_mkWord .pbGetSh p 0 0 0 _ _ (.inl rfl) (.inr rfl) (.inr rfl) (by decide)
theorem pbGetSw (p : PbIndex) : Statement (.pbGetSw p) :=
  inRow_mkWord .pbGetSw p 0 0 0 _ _ (.inl rfl) (.inr rfl) (.inr rfl) (by decide)
theorem pbGetBytes (p : PbIndex) (n : Byte) : Statement (.pbGetBytes p n) :=
  inRow_mkWord .pbGetBytes p 0 n 0 _ _ (.inl rfl) (.inr rfl) (.inl rfl) (by decide)
theorem csum (s : List Byte) : Statement (.csum s) :=
  inRow_mkWord .csum 0 0 _ 0 _ _ (.inr rfl) (.inr rfl) (.inl rfl) (by decide)
theorem send (p : PbIndex) (ch : ChIndex) (dst : Byte) : Statement (.send p ch dst) :=
  inRow_mkWord .send p ch dst 0 _ _ (.inl rfl) (.inl rfl) (.inl rfl) (by decide)
theorem sendT (p : PbIndex) (ch : ChIndex) (dst typ : Byte) : Statement (.sendT p ch dst typ) :=
  inRow_mkWord .sendT p ch dst typ _ _ (.inl rfl) (.inl rfl) (.inl rfl) (by simp [Op.bUnused])
theorem receive (p : PbIndex) (ch : ChIndex) : Statement (.receive p ch) :=
  inRow_mkWord .receive p ch 0 0 _ _ (.inl rfl) (.inl rfl) (.inr rfl) (by decide)
theorem rxReset (ch : ChIndex) : Statement (.rxReset ch) :=
  inRow_mkWord .rxReset 0 ch 0 0 _ _ (.inr rfl) (.inl rfl) (.inr rfl) (by decide)
theorem cfgWraddr (a : Byte) : Statement (.cfgWraddr a) :=
  inRow_mkWord .cfgWraddr 0 0 a 0 _ _ (.inr rfl) (.inr rfl) (.inl rfl) (by decide)
theorem cfgRdaddr : Statement .cfgRdaddr :=
  inRow_mkWord .cfgRdaddr 0 0 0 0 _ _ (.inr rfl) (.inr rfl) (.inr rfl) (by decide)
theorem sysReset : Statement .sysReset :=
  inRow_mkWord .sysReset 0 0 0 0 _ _ (.inr rfl) (.inr rfl) (.inr rfl) (by decide)
theorem frame (ch : ChIndex) (bytes : List Byte) : Statement (.frame ch bytes) := rfl

end Sys2Proof.Laws.EncodesItsRow
end

