-- ==== Sys2Proof/Laws/Receive.lean ====
section
/-! SUPPORT. What receiving can do, said once: the byte step by cursor, one pass of RECEIVE, the run over the available bytes, and
bytes handed over by a transport (43_receive.md). -/

namespace Sys2Proof.Machine

/-- The LEN range of R217 in numbers. -/
theorem lenLegal_iff {c : Config} {b : Byte} : lenLegal c b = true ↔ 4 ≤ b.toNat ∧ b.toNat ≤ c.maxDataLen + 4 := by
  simp only [lenLegal, Bool.and_eq_true, decide_eq_true_eq]
  simp only [lenMin, lenMax, Config.hdrLen, Config.crcLen]
  omega

/-- The filter of R222 in words. -/
theorem filterPasses_iff {a d : Byte} : filterPasses a d = true ↔ a = 0 ∨ d = 0 ∨ d = a := by
  simp [filterPasses, Config.promiscuous, Config.broadcast, or_assoc]

/-- R29 for the parser of any channel. -/
theorem parserWf_parser {s : State} (h : ∀ sc ∈ s.parsers, parserWf s.cfg sc = true) (ch : ChIndex) :
    parserWf s.cfg (s.parser ch) = true := by
  unfold State.parser
  rw [List.getD_eq_getElem?_getD]
  cases hb : s.parsers[ch.toNat]? with
  | none => rfl
  | some sc => exact h sc (List.mem_of_getElem? hb)

/-- A byte step that does not complete a frame (R216, R217, R218, R224). -/
theorem rxByte_before_completion {c : Config} {a : Byte} {sc : List Byte} (hw : parserWf c sc = true) (b : Byte)
    (h : 2 ≤ sc.length → sc.length ≠ (sc.getD 1 0).toNat + 1) :
    (sc.length = 0 ∧ b = 0x02#8 ∧ rxByte c a sc b = ⟨[b], .appended, none⟩) ∨
    (sc.length = 0 ∧ b ≠ 0x02#8 ∧ rxByte c a sc b = ⟨[], .discarded, none⟩) ∨
    (sc.length = 1 ∧ lenLegal c b = true ∧ rxByte c a sc b = ⟨[0x02#8, b], .appended, none⟩) ∨
    (sc.length = 1 ∧ lenLegal c b = false ∧ rxByte c a sc b = ⟨[], .lengthOutOfRange, none⟩) ∨
    (2 ≤ sc.length ∧ rxByte c a sc b = ⟨sc ++ [b], .appended, none⟩) := by
  rcases rxByte_cases c a sc b with ⟨rfl, e⟩ | ⟨h1, e⟩ | ⟨h2, e⟩ <;> rw [e]
  · unfold rxIdle
    by_cases hb : b = 0x02#8
    · exact .inl ⟨rfl, hb, by rw [if_pos hb]⟩
    · exact .inr (.inl ⟨rfl, hb, by rw [if_neg hb]⟩)
  · match sc with
    | [x] =>
      simp only [parserWf, beq_iff_eq] at hw
      unfold rxLength
      cases hl : lenLegal c b
      · exact .inr (.inr (.inr (.inl ⟨rfl, rfl, by simp⟩)))
      · exact .inr (.inr (.inl ⟨rfl, rfl, by simp [hw]⟩))
  · have := h h2
    refine .inr (.inr (.inr (.inr ⟨h2, ?_⟩)))
    unfold rxAccumulate
    rw [if_neg]
    simp only [Config.synLen, Config.lenLen, List.length_append, List.length_cons, List.length_nil, not_and]
    intro _
    show ¬ (sc.length + 1 = 1 + 1 + (sc.getD 1 0).toNat)
    omega

/-- The byte step that completes a frame (R220 to R223): the checksum, then the filter, then the packet. -/
theorem rxByte_last {c : Config} {a : Byte} {sc : List Byte} (hw : parserWf c sc = true) (b : Byte) (h2 : 2 ≤ sc.length)
    (h : sc.length = (sc.getD 1 0).toNat + 1) :
    rxByte c a sc b =
      if csumOf c (sc.drop 2) ≠ b then ⟨[], .checksumMismatch, none⟩
      else if filterPasses a (sc.getD 2 0) then
        ⟨[], .accepted, some ⟨sc.getD 2 0, sc.getD 3 0, sc.getD 4 0, sc.drop 5⟩⟩
      else ⟨[], .addressMismatch, none⟩ := by
  match sc with
  | x :: l :: r =>
    show rxAccumulate c a (x :: l :: r) b = _
    simp only [parserWf, Bool.and_eq_true, decide_eq_true_eq, beq_iff_eq, lenLegal_iff] at hw
    simp only [List.getD_cons_succ, List.getD_cons_zero, List.length_cons] at h
    have h4 := hw.1.2.1
    have hr : r.length = l.toNat - 1 := by omega
    unfold rxAccumulate
    rw [if_pos (by simp [Config.synLen, Config.lenLen, Config.hdrLen]; omega)]
    unfold rxComplete
    match r, hr with
    | d :: s :: ty :: data, hr =>
      simp only [List.length_cons] at hr h
      have e1 : l.toNat - 4 = data.length := by omega
      have e2 : l.toNat - 1 = data.length + 3 := by omega
      have e3 : l.toNat + 1 = data.length + 5 := by omega
      simp [rxPacket, e1, e2, e3]
    | [], hr => simp at hr; omega
    | [_], hr => simp at hr; omega
    | [_, _], hr => simp at hr; omega

/-- Everything one pass of RECEIVE can do (R226, R227). -/
theorem receive_cases {p : PbIndex} {ch : ChIndex} {s t : State} (h : execReceive p ch s = .next t) :
    ((¬ p.toNat < s.cfg.nPb ∨ ¬ ch.toNat < s.cfg.nCh) ∧ t = s.illegal) ∨
    (p.toNat < s.cfg.nPb ∧ ch.toNat < s.cfg.nCh ∧
      ((s.rxq ch = [] ∧ t = s.respond (receiveResponse false)) ∨
        ∃ b rest, s.rxq ch = b :: rest ∧
          ((s.rxAccepts ch b = true ∧ t = ((s.setRxq ch rest).rxStep p ch b).respond (receiveResponse true)) ∨
            (s.rxAccepts ch b = false ∧ t = { (s.setRxq ch rest).rxStep p ch b with job := some (.receive p ch) })))) := by
  unfold execReceive at h
  rcases ifBuffer_cases h with ⟨hp, h⟩ | h
  · rcases ifChannel_cases h with ⟨hc, h⟩ | h
    · refine .inr ⟨hp, hc, ?_⟩
      cases hq : s.rxq ch with
      | nil => simp only [hq] at h; cases h; exact .inl ⟨rfl, rfl⟩
      | cons b rest =>
        simp only [hq] at h
        refine .inr ⟨b, rest, rfl, ?_⟩
        cases ha : s.rxAccepts ch b <;> simp [ha] at h <;> simp [h]
    · exact .inl ⟨.inr h.1, h.2⟩
  · exact .inl ⟨.inl h.1, h.2⟩

/-- Everything bytes handed over can do (20_memory.md rule R66). -/
theorem frame_cases {ch : ChIndex} {bytes : List Byte} {s t : State} (h : execFrame ch bytes s = .next t) :
    ch.toNat < s.cfg.nCh ∧ t = s.deliver ch bytes := by
  unfold execFrame at h
  split at h
  · exact ⟨‹_›, by cases h; rfl⟩
  · cases h

/-- Bytes handed over on a channel that exists only arrive (00_scope.md rule R16). -/
theorem execFrame_of_lt {ch : ChIndex} {s : State} (h : ch.toNat < s.cfg.nCh) (bytes : List Byte) :
    execFrame ch bytes s = .next (s.deliver ch bytes) := by
  rw [execFrame, if_pos h]

/-- A byte step and a change of the queue do not meet (R230). -/
theorem rxStep_setRxq (s : State) (p : PbIndex) (ch : ChIndex) (b : Byte) (q : List Byte) :
    (s.setRxq ch q).rxStep p ch b = (s.rxStep p ch b).setRxq ch q := by
  have hs : (s.setRxq ch q).parser ch = s.parser ch := rfl
  have hc : (s.setRxq ch q).cfg = s.cfg := rfl
  have ha : (s.setRxq ch q).localAddr = s.localAddr := rfl
  simp only [State.rxStep, hs, hc, ha]
  cases (rxByte s.cfg s.localAddr (s.parser ch) b).packet <;> rfl

/-- A run over the available bytes either accepts, answers and ends, or leaves every packet buffer and response alone and the queue
empty (R223, R226, R227). -/
theorem drain_cases (p : PbIndex) (ch : ChIndex) (q : List Byte) (s : State) :
    ((drain p ch q s).responses = s.responses ++ [receiveResponse true] ∧ (drain p ch q s).job = none) ∨
    ((drain p ch q s).responses = s.responses ∧ (drain p ch q s).job = s.job ∧ (drain p ch q s).buffers = s.buffers) := by
  induction q generalizing s with
  | nil => exact .inr ⟨rfl, rfl, rfl⟩
  | cons b r ih =>
    rw [drain]
    split
    · refine .inl ⟨?_, rfl⟩
      show (s.rxStep p ch b).responses ++ _ = _
      rw [rxStep_responses]
    · rename_i ha
      rcases ih (s.rxStep p ch b) with h | h
      · rw [rxStep_responses] at h; exact .inl h
      · rw [rxStep_responses, rxStep_job, rxStep_buffers_of_not_accepts p (by simpa using ha)] at h
        exact .inr h

end Sys2Proof.Machine
end

