-- ==== Sys2Proof/Tests/Slice0.lean ====
section
/-! SUPPORT. The model's own tests: WellFormed's checks, the decoder on words written out from 30_encoding.md rule R101, single
steps on the vectors of 95_test_vectors.md (named in each comment), and one witness per statement of Obligations.lean. -/

-- One theorem at a time: the tests of this file, checked all at once, would start more threads than check.sh's limit allows.
set_option Elab.async false

namespace Sys2Proof.Tests

open Sys2Proof Sys2Proof.Machine

/-- A packet buffer with header bytes 0. -/
def payload (bytes : List Byte) : PacketBuffer := ⟨0, 0, 0, bytes⟩

/-- A state of the default build: local address, the two packet buffers, the parser and the queue of channel 0, and what its
transport answers. -/
def mk (addr : Byte) (b0 b1 : PacketBuffer) (sc q : List Byte) (ans : List WriteAnswer) : State :=
  { State.reset with localAddr := addr, buffers := [b0, b1], parsers := [sc], transports := [⟨q, ans, []⟩] }

/-- The default build with `PB[0]` holding `bytes`. -/
def holding (bytes : List Byte) : State := mk 5 (payload bytes) (payload []) [] [] []

/-- The default build with `bytes` waiting on channel 0. -/
def waiting (addr : Byte) (sc q : List Byte) : State := mk addr (payload []) (payload []) sc q []

/-- A reading of the next state, if there is one. -/
def after {α : Type} (o : Out) (f : State → α) : Option α :=
  match o with
  | .next t => some (f t)
  | .fault _ => none
  | .refused _ => none

/-- The last response and the payload of `PB[0]`. -/
def seen (t : State) : Option Response × List Byte := (t.responses.getLast?, (t.pb 0).payload)

/-- The only response, given with a scalar. -/
def scalar (v : Scalar) : List Response := [{ status := .ok, rdata := v }]

/-- The last response's status. -/
def lastStatus (t : State) : Option Status := t.responses.getLast?.map (fun r => r.status)

/-- The frame of the source's example S-3. -/
def ping : List Byte := [0x02#8, 0x08#8, 0x09#8, 0x05#8, 0x00#8, 0x50#8, 0x49#8, 0x4E#8, 0x47#8, 0x3C#8]

/-- The payload of the source's example S-3. -/
def pingData : List Byte := [0x50#8, 0x49#8, 0x4E#8, 0x47#8]

theorem mk_inv {addr : Byte} {b0 b1 : PacketBuffer} {sc q : List Byte} {ans : List WriteAnswer}
    (h0 : b0.payload.length ≤ 128) (h1 : b1.payload.length ≤ 128) (hs : parserWf {} sc = true) :
    (mk addr b0 b1 sc q ans).Inv where
  cfg_legal := by show Config.Legal {}; decide
  n_buffers := rfl
  n_parsers := rfl
  n_transports := rfl
  len_le := by
    intro b hb
    simp only [mk, List.mem_cons, List.not_mem_nil, or_false] at hb
    rcases hb with rfl | rfl
    · exact h0
    · exact h1
  parsers_wf := by
    intro x hx
    simp only [mk, List.mem_cons, List.not_mem_nil, or_false] at hx
    rw [hx]
    exact hs
  job_wf := rfl

theorem reset_inv : State.reset.Inv :=
  ⟨by decide +kernel, by decide +kernel, by decide +kernel, by decide +kernel, by decide +kernel, by decide +kernel, by decide +kernel⟩

/-- The smallest payload build: `MAX_DATA_LEN = 0`. -/
theorem tiny_inv : (State.initial { maxDataLen := 0 }).Inv :=
  ⟨by decide +kernel, by decide +kernel, by decide +kernel, by decide +kernel, by decide +kernel, by decide +kernel, by decide +kernel⟩

/-! ## WellFormed: each check refuses an ill-formed term (30_encoding.md rules R90, R102, R103) -/

theorem test_wf_packet_buffer_index :
    (Instr.pbClear 1).wellFormed {} = true ∧ (Instr.pbClear 2).wellFormed {} = false := by decide +kernel

theorem test_wf_channel_index :
    (Instr.receive 0 0).wellFormed {} = true ∧ (Instr.receive 0 1).wellFormed {} = false := by decide +kernel

theorem test_wf_span_length :
    (Instr.csum (List.replicate 255 0)).wellFormed {} = true ∧
      (Instr.csum (List.replicate 256 0)).wellFormed {} = false := by decide +kernel

theorem test_wf_frame :
    (Instr.frame 0 ping).wellFormed {} = true ∧
    (Instr.frame 0 [0x03#8, 0x04#8, 0x09#8, 0x05#8, 0x00#8, 0x0E#8]).wellFormed {} = false ∧
    (Instr.frame 0 [0x02#8, 0x03#8, 0x09#8, 0x05#8, 0x0E#8]).wellFormed {} = false ∧
    (Instr.frame 0 [0x02#8, 0x05#8, 0x09#8, 0x05#8, 0x00#8, 0x0E#8]).wellFormed {} = false ∧
    (Instr.frame 0 [0x02#8, 0x04#8, 0x09#8, 0x05#8, 0x00#8, 0x0F#8]).wellFormed {} = false := by decide +kernel

/-! ## Decode: each row's word, from its op and fields in 30_encoding.md rule R101 (DEC-1 to DEC-5, PB-1 to PB-20) -/

theorem test_decode_manage_words :
    decode (.command 0x10100000#32 0 []) = .ok (.pbClear 1) ∧
    decode (.command 0x11F00000#32 0 []) = .ok (.pbLength 15) ∧
    decode (.command 0x12100000#32 0 []) = .ok (.pbRaw 1) ∧
    decode (.command 0x13100001#32 0 []) = .ok (.pbRdhdr 1 .src) ∧
    decode (.command 0x13000002#32 0 []) = .ok (.pbRdhdr 0 .typ) ∧
    decode (.command 0x14003300#32 0 []) = .ok (.pbWrhdr 0 .dst 0x33#8) ∧
    decode (.command 0x14004102#32 0 []) = .ok (.pbWrhdr 0 .typ 0x41#8) := by decide +kernel

theorem test_decode_set_words :
    decode (.command 0x20100000#32 0x1FF#64 []) = .ok (.pbSetB 1 0x1FF#64) ∧
    decode (.command 0x21100000#32 0x1234#64 []) = .ok (.pbSetH 1 0x1234#64) ∧
    decode (.command 0x22100000#32 5 []) = .ok (.pbSetW 1 5) ∧
    decode (.command 0x23100000#32 6 []) = .ok (.pbSetD 1 6) ∧
    decode (.command 0x24100400#32 0 pingData) = .ok (.pbSetBytes 1 pingData) := by decide +kernel

theorem test_decode_add_words :
    decode (.command 0x28100000#32 1 []) = .ok (.pbAddB 1 1) ∧
    decode (.command 0x29100000#32 2 []) = .ok (.pbAddH 1 2) ∧
    decode (.command 0x2A100000#32 3 []) = .ok (.pbAddW 1 3) ∧
    decode (.command 0x2B100000#32 4 []) = .ok (.pbAddD 1 4) ∧
    decode (.command 0x2C100200#32 0 [0x4E#8, 0x47#8]) = .ok (.pbAddBytes 1 [0x4E#8, 0x47#8]) := by decide +kernel

theorem test_decode_get_words :
    decode (.command 0x30100000#32 0 []) = .ok (.pbGetUb 1) ∧
    decode (.command 0x31100000#32 0 []) = .ok (.pbGetUh 1) ∧
    decode (.command 0x32100000#32 0 []) = .ok (.pbGetUw 1) ∧
    decode (.command 0x33100000#32 0 []) = .ok (.pbGetD 1) ∧
    decode (.command 0x34100000#32 0 []) = .ok (.pbGetSb 1) ∧
    decode (.command 0x35100000#32 0 []) = .ok (.pbGetSh 1) ∧
    decode (.command 0x36100000#32 0 []) = .ok (.pbGetSw 1) ∧
    decode (.command 0x38100600#32 0 []) = .ok (.pbGetBytes 1 6) := by decide +kernel

theorem test_decode_other_words :
    decode (.command 0x40000200#32 0 [0xFF#8, 0x01#8]) = .ok (.csum [0xFF#8, 0x01#8]) ∧
    decode (.command 0x50000900#32 0 []) = .ok (.send 0 0 9) ∧
    decode (.command 0x51130501#32 0 []) = .ok (.sendT 1 3 5 1) ∧
    decode (.command 0x60120000#32 0 []) = .ok (.receive 1 2) ∧
    decode (.command 0x61020000#32 0 []) = .ok (.rxReset 2) ∧
    decode (.command 0x7000FF00#32 0 []) = .ok (.cfgWraddr 0xFF#8) ∧
    decode (.command 0x71000000#32 0 []) = .ok .cfgRdaddr ∧
    decode (.command 0x7F000000#32 0 []) = .ok .sysReset ∧
    decode (.wire 0 ping) = .ok (.frame 0 ping) := by decide +kernel

/-- DEC-6, DEC-7, DEC-10 to DEC-14, and bytes that begin no frame. -/
theorem test_decode_rejects_by_name :
    decode (.command 0x00000000#32 0 []) = .error .unknownOp ∧
    decode (.command 0x50000901#32 0 []) = .error .unusedFieldNotZero ∧
    decode (.command 0x13000003#32 0 []) = .error .reservedSelector ∧
    decode (.command 0x13000004#32 0 []) = .error .unusedFieldNotZero ∧
    decode (.command 0x10010000#32 0 []) = .error .unusedFieldNotZero ∧
    decode (.command 0x71000001#32 0 []) = .error .unusedFieldNotZero ∧
    decode (.command 0x24100400#32 0 [0x50#8]) = .error .spanLength ∧
    decode (.wire 0 [0x55#8, 0xAA#8]) = .error .notSyn ∧
    [0x25000000#32, 0x37000000#32, 0x39000000#32, 0x62000000#32, 0x80000000#32, 0xFF000000#32].all
      (fun w => decide (decode (.command w 0 []) = .error .unknownOp)) = true := by decide +kernel

theorem test_decode_table_words :
    decodeTableWord 32 0x51100501 = some (.sendT 1 0 5 1) ∧
    decodeTableWord 32 0x24000200 = some (.pbSetBytes 0 [0, 0]) ∧
    decodeTableWord 8 0x02 = some (.frame 0 [0x02#8, 0x00#8]) ∧
    decodeTableWord 48 0x0E0005090402 = some (.frame 0 [0x02#8, 0x04#8, 0x09#8, 0x05#8, 0x00#8, 0x0E#8]) ∧
    decodeTableWord 32 0x00000000 = none := by decide +kernel

theorem test_fetch_word_runs :
    after (step (State.reset.withFetchWord 32 0x70000500)) (fun t => (t.localAddr, t.turns, t.commands)) = some (5, [], []) ∧
    after (step (State.reset.withFetchWord 8 0x02)) (fun t => t.rxq 0) = some [0x02#8, 0x00#8] := by decide +kernel

/-! ## Packet buffers (95_test_vectors.md section 2.1) -/

/-- PB-14. -/
theorem test_pb_clear : after (exec (.pbClear 0) (holding pingData)) seen = some (some { status := .ok }, []) := by decide +kernel

/-- PB-14, PB-8. -/
theorem test_pb_length :
    after (exec (.pbLength 0) (holding pingData)) (fun t => t.responses) = some (scalar 4) ∧
    after (exec (.pbLength 0) (holding (List.replicate 128 0))) (fun t => t.responses) = some (scalar 128) := by decide +kernel

/-- PB-12. -/
theorem test_pb_raw :
    after (exec (.pbRaw 0) (holding [0x44#8, 0x33#8, 0x22#8, 0x11#8])) (fun t => t.responses) =
      some [{ status := .ok, rspan := [0x44#8, 0x33#8, 0x22#8, 0x11#8] }] := by decide +kernel

/-- PB-15. -/
theorem test_pb_rdhdr :
    [HdrField.dst, .src, .typ].map (fun f =>
        after (exec (.pbRdhdr 0 f) (mk 0 ⟨0x33#8, 0x77#8, 0x41#8, []⟩ (payload []) [] [] [])) (fun t => t.responses)) =
      [some (scalar 0x33), some (scalar 0x77), some (scalar 0x41)] := by decide +kernel

/-- PB-15. -/
theorem test_pb_wrhdr :
    after (exec (.pbWrhdr 0 .typ 0x41#8) (mk 0 ⟨0x33#8, 0x77#8, 0, pingData⟩ (payload []) [] [] [])) (fun t => t.pb 0) =
      some ⟨0x33#8, 0x77#8, 0x41#8, pingData⟩ := by decide +kernel

/-- PB-1. -/
theorem test_pb_set_b : after (exec (.pbSetB 0 0x1FF#64) (holding pingData)) seen = some (some { status := .ok }, [0xFF#8]) := by
  decide +kernel

/-- PB-2. -/
theorem test_pb_set_h :
    after (exec (.pbSetH 0 0x1234#64) (holding [])) seen = some (some { status := .ok }, [0x34#8, 0x12#8]) := by decide +kernel

/-- PB-3. -/
theorem test_pb_set_w :
    after (exec (.pbSetW 0 0xDEADBEEF#64) (holding [])) seen =
      some (some { status := .ok }, [0xEF#8, 0xBE#8, 0xAD#8, 0xDE#8]) := by decide +kernel

/-- PB-4, PB-17. -/
theorem test_pb_set_d :
    after (exec (.pbSetD 0 0x0102030405060708#64) (holding [])) seen =
      some (some { status := .ok }, [8, 7, 6, 5, 4, 3, 2, 1]) ∧
    after (exec (.pbSetD 0 1) (State.initial { maxDataLen := 4 })) seen = some (some { status := .payloadTooLarge }, []) := by
  decide +kernel

/-- PB-8, PB-9 a. -/
theorem test_pb_set_bytes :
    after (exec (.pbSetBytes 0 (List.replicate 128 7)) (holding pingData)) seen =
      some (some { status := .ok }, List.replicate 128 7) ∧
    after (exec (.pbSetBytes 0 (List.replicate 129 7)) (holding pingData)) seen =
      some (some { status := .payloadTooLarge }, pingData) := by decide +kernel

/-- PB-9 b. -/
theorem test_pb_add_b :
    after (exec (.pbAddB 0 1) (holding (List.replicate 128 7))) seen =
      some (some { status := .payloadTooLarge }, List.replicate 128 7) := by decide +kernel

/-- PB-7, PB-9 e. -/
theorem test_pb_add_h :
    after (exec (.pbAddH 0 0xBEEF#64) (holding [0xAA#8])) seen = some (some { status := .ok }, [0xAA#8, 0xEF#8, 0xBE#8]) ∧
    after (exec (.pbAddH 0 0xBEEF#64) (holding (List.replicate 127 7))) seen =
      some (some { status := .payloadTooLarge }, List.replicate 127 7) := by decide +kernel

/-- PB-6. -/
theorem test_pb_add_w :
    after (exec (.pbAddW 0 0xDEADBEEF#64) (holding [0x34#8, 0x12#8])) seen =
      some (some { status := .ok }, [0x34#8, 0x12#8, 0xEF#8, 0xBE#8, 0xAD#8, 0xDE#8]) := by decide +kernel

/-- PB-9 c, d. -/
theorem test_pb_add_d :
    after (exec (.pbAddD 0 0x0102030405060708#64) (holding (List.replicate 121 7))) seen =
      some (some { status := .payloadTooLarge }, List.replicate 121 7) ∧
    after (exec (.pbAddD 0 0x0102030405060708#64) (holding (List.replicate 120 7))) seen =
      some (some { status := .ok }, List.replicate 120 7 ++ [8, 7, 6, 5, 4, 3, 2, 1]) := by decide +kernel

/-- PB-19, PB-10. -/
theorem test_pb_add_bytes :
    after (exec (.pbAddBytes 0 [0x4E#8, 0x47#8]) (holding [0x50#8, 0x49#8])) seen = some (some { status := .ok }, pingData) ∧
    after (exec (.pbAddBytes 0 []) (holding (List.replicate 128 7))) seen =
      some (some { status := .ok }, List.replicate 128 7) := by decide +kernel

/-- PB-11, PB-12. -/
theorem test_pb_get_ub :
    after (exec (.pbGetUb 0) (holding [0xFF#8])) (fun t => t.responses) = some (scalar 0xFF) ∧
    after (exec (.pbGetUb 0) (holding [0x44#8, 0x33#8])) (fun t => t.responses) = some (scalar 0x44) := by decide +kernel

/-- PB-11. -/
theorem test_pb_get_uh :
    after (exec (.pbGetUh 0) (holding [0x00#8, 0x80#8])) (fun t => t.responses) = some (scalar 0x8000) := by decide +kernel

/-- PB-13: the byte below the length is read whatever the one beyond it is. -/
theorem test_pb_get_uh_beyond :
    ∀ t, exec (.pbGetUh 0) (holding [0x34#8]) = .next t →
      t.responses = scalar ((Config.freeByte 0 ++ 0x34#8).zeroExtend 64) ∧ t.draws = 1 := by
  intro t h
  cases h
  refine ⟨?_, rfl⟩
  show [_] = [_]
  generalize hr : memRead _ _ _ = l
  have hl : l = [0x34#8, Config.freeByte 0] := by rw [← hr]; rfl
  rw [hl]
  generalize Config.freeByte 0 = u
  simp only [zextBytes]
  revert u
  decide

/-- PB-11. -/
theorem test_pb_get_uw :
    after (exec (.pbGetUw 0) (holding [0xEF#8, 0xBE#8, 0xAD#8, 0xDE#8])) (fun t => t.responses) =
      some (scalar 0xDEADBEEF#64) := by decide +kernel

/-- PB-11. -/
theorem test_pb_get_d :
    after (exec (.pbGetD 0) (holding [8, 7, 6, 5, 4, 3, 2, 1])) (fun t => t.responses) =
      some (scalar 0x0102030405060708#64) := by decide +kernel

/-- PB-11. -/
theorem test_pb_get_sb :
    after (exec (.pbGetSb 0) (holding [0xFF#8])) (fun t => t.responses) = some (scalar 0xFFFFFFFFFFFFFFFF#64) ∧
    after (exec (.pbGetSb 0) (holding [0x7F#8])) (fun t => t.responses) = some (scalar 0x7F#64) := by decide +kernel

/-- PB-11. -/
theorem test_pb_get_sh :
    after (exec (.pbGetSh 0) (holding [0x00#8, 0x80#8])) (fun t => t.responses) = some (scalar 0xFFFFFFFFFFFF8000#64) := by
  decide +kernel

/-- PB-11. -/
theorem test_pb_get_sw :
    after (exec (.pbGetSw 0) (holding [0xEF#8, 0xBE#8, 0xAD#8, 0xDE#8])) (fun t => t.responses) =
      some (scalar 0xFFFFFFFFDEADBEEF#64) := by decide +kernel

/-- PB-19, and PB-13: two stored bytes, then whatever is drawn. -/
theorem test_pb_get_bytes :
    after (exec (.pbGetBytes 0 2) (holding pingData)) (fun t => t.responses) =
      some [{ status := .ok, rspan := [0x50#8, 0x49#8] }] ∧
    after (exec (.pbGetBytes 0 4) (holding [0x50#8, 0x49#8])) (fun t => (t.responses, t.draws)) =
      some ([{ status := .ok, rspan := [0x50#8, 0x49#8, Config.freeByte 0, Config.freeByte 1] }], 2) :=
  ⟨by decide +kernel, rfl⟩

/-! ## Checksum (section 2.2) -/

/-- CS-1, CS-2, CS-3, CS-7, CS-9. -/
theorem test_csum :
    [[], [0x09#8, 0x05#8, 0x00#8, 0x50#8, 0x49#8, 0x4E#8, 0x47#8], [0xFF#8, 0x01#8],
      [0x09#8, 0x05#8, 0x00#8, 0x50#8, 0x4E#8, 0x49#8, 0x47#8], [0x09#8, 0x05#8, 0x00#8, 0x50#8, 0x48#8, 0x4E#8, 0x47#8]].map
        (fun sp => after (exec (.csum sp) State.reset) (fun t => t.responses)) =
      [some (scalar 0), some (scalar 0x3C), some (scalar 0), some (scalar 0x3C), some (scalar 0x3B)] := by decide +kernel

/-- CS-6. -/
theorem test_csum_full_region : csumOf {} (List.replicate 131 0xFF#8) = 0x7D#8 := by decide +kernel

/-! ## Send (section 2.3) -/

/-- What a send shows: the requests of channel 0, the packet buffer, the status. -/
def sent (t : State) : List (List Byte) × PacketBuffer × Option Status := ((t.transport 0).writes, t.pb 0, lastStatus t)

/-- TX-1. -/
theorem test_send :
    after (exec (.send 0 0 9) (mk 5 (payload pingData) (payload []) [] [] [.count 10])) sent =
      some ([ping], ⟨9, 5, 0, pingData⟩, some .ok) := by decide +kernel

/-- TX-5 b and a: a short count; the length check before any write. -/
theorem test_send_failures :
    after (exec (.send 0 0 9) (mk 5 (payload pingData) (payload []) [] [] [.count 9])) sent =
      some ([ping], ⟨9, 5, 0, pingData⟩, some .partialWrite) ∧
    after (exec (.send 0 0 9) (mk 5 (payload (List.replicate 129 0)) (payload []) [] [] [.count 9])) sent =
      some ([], ⟨9, 5, 0, List.replicate 129 0⟩, some .payloadTooLarge) := by decide +kernel

/-- TX-3. -/
theorem test_send_t :
    after (exec (.sendT 0 0 0 7) (mk 0x2A#8 (payload [0x34#8, 0x12#8, 0xEF#8, 0xBE#8, 0xAD#8, 0xDE#8]) (payload []) [] []
        [.count 12])) sent =
      some ([[0x02#8, 0x0A#8, 0x00#8, 0x2A#8, 0x07#8, 0x34#8, 0x12#8, 0xEF#8, 0xBE#8, 0xAD#8, 0xDE#8, 0xAF#8]],
        ⟨0, 0x2A#8, 7, [0x34#8, 0x12#8, 0xEF#8, 0xBE#8, 0xAD#8, 0xDE#8]⟩, some .ok) := by decide +kernel

/-- TX-9. -/
theorem test_send_t_all_ones :
    after (exec (.sendT 0 0 0xFF#8 0xFF#8) (mk 0xFF#8 (payload []) (payload []) [] [] [.count 6])) (fun t => (sent t).1) =
      some [[0x02#8, 0x04#8, 0xFF#8, 0xFF#8, 0xFF#8, 0xFD#8]] := by decide +kernel

/-! ## Receive (section 2.4) -/

/-- What a RECEIVE shows: the flag, `PB[1]`, the cursor, the bytes left, the trace. -/
structure Received where
  flag : Option Bool
  packet : PacketBuffer
  cursor : Nat
  left : List Byte
  trace : List Event
deriving DecidableEq, Repr

/-- The reading of a state. -/
def received (t : State) : Received :=
  ⟨t.responses.getLast?.map (fun r => r.flag), t.pb 1, t.cursor 0, t.rxq 0, t.events.map (fun e => e.2)⟩

/-- RX-1: one pass over the last byte accepts. -/
theorem test_receive_last_pass :
    after (exec (.receive 1 0) (waiting 9 (ping.take 9) [0x3C#8])) received =
      some ⟨some true, ⟨9, 5, 0, pingData⟩, 0, [], [.accepted]⟩ := by decide +kernel

/-- RX-20, and RX-1's first pass. -/
theorem test_receive_first_passes :
    after (exec (.receive 1 0) (waiting 9 [] [])) received = some ⟨some false, payload [], 0, [], []⟩ ∧
    after (exec (.receive 1 0) (waiting 9 [] ping)) (fun t => (t.job, t.parser 0, t.rxq 0)) =
      some (some (.receive 1 0), [0x02#8], ping.tail) := by decide +kernel

/-- A trace of `n` kept bytes, then `e`. -/
def kept (n : Nat) (e : Event) : List Event := List.replicate n .appended ++ [e]

/-- RX-1, RX-4, RX-5, RX-7: the whole command. -/
theorem test_receive_all :
    [waiting 9 [] ping, waiting 7 [] ping, waiting 9 [] (ping.set 6 0x48#8), waiting 9 [] (0x02#8 :: ping)].map
        (fun s => received (receiveAll 1 0 s)) =
      [⟨some true, ⟨9, 5, 0, pingData⟩, 0, [], kept 9 .accepted⟩,
        ⟨some false, payload [], 0, [], kept 9 .addressMismatch⟩,
        ⟨some false, payload [], 0, [], kept 9 .checksumMismatch⟩,
        ⟨some false, payload [], 0, [], kept 1 .lengthOutOfRange ++ List.replicate 9 .discarded⟩] := by decide +kernel

/-- RX-9: the LEN range. -/
theorem test_receive_len_range :
    [0x04#8, 0x84#8, 0x00#8, 0x02#8, 0x03#8, 0x85#8, 0xFF#8].map (fun l => (receiveAll 1 0 (waiting 9 [] [0x02#8, l])).cursor 0) =
      [2, 2, 0, 0, 0, 0, 0] := by decide +kernel

/-- RX-8 b, RX-12, RX-17. -/
theorem test_receive_odd_frames :
    [waiting 9 [] ([0x02#8, 0x04#8] ++ ping ++ ping), waiting 0 [] [0x02#8, 0x05#8, 0, 0, 0, 0, 0, 0],
        waiting 9 [] [0x02#8, 0x04#8, 0x09#8, 0x05#8, 0x00#8, 0x0E#8]].map (fun s => received (receiveAll 1 0 s)) =
      [⟨some true, ⟨9, 5, 0, pingData⟩, 0, [],
          kept 5 .checksumMismatch ++ List.replicate 6 .discarded ++ kept 9 .accepted⟩,
        ⟨some true, ⟨0, 0, 0, [0]⟩, 0, [0], kept 6 .accepted⟩,
        ⟨some true, ⟨9, 5, 0, []⟩, 0, [], kept 5 .accepted⟩] := by decide +kernel

/-- RX-18. -/
theorem test_rx_reset :
    after (exec (.rxReset 0) (waiting 9 (ping.take 7) [0x4E#8])) received =
      some ⟨some false, payload [], 0, [0x4E#8], []⟩ := by decide +kernel

/-- R66: bytes on the wire wait. R16: also while a RECEIVE is in progress, which has taken none of them when they have arrived. -/
theorem test_frame :
    after (exec (.frame 0 ping) (waiting 9 [] [0x55#8])) (fun t => (t.rxq 0, t.parser 0, t.events)) =
      some (0x55#8 :: ping, [], []) ∧
    after (exec (.frame 0 ping) { waiting 9 [0x02#8] [0x55#8] with job := some (.receive 1 0) })
        (fun t => (t.rxq 0, t.parser 0, t.job)) =
      some (0x55#8 :: ping, [0x02#8], some (.receive 1 0)) := by decide +kernel

theorem test_frame_absent_channel : exec (.frame 1 ping) State.reset = .fault .absentChannel := rfl

/-! ## System (section 2.5) -/

/-- SYS-1, SYS-4. -/
theorem test_cfg_wraddr :
    after (exec (.cfgWraddr 5) (waiting 0 (ping.take 3) [])) (fun t => (t.localAddr, t.cursor 0, lastStatus t)) =
      some (5, 3, some .ok) := by decide +kernel

/-- SYS-1. -/
theorem test_cfg_rdaddr :
    after (exec .cfgRdaddr State.reset) (fun t => t.responses) = some (scalar 0) ∧
    after (exec .cfgRdaddr (waiting 0xFF#8 [] [])) (fun t => t.responses) = some (scalar 0xFF) := by decide +kernel

/-- SYS-2. -/
theorem test_sys_reset :
    after (exec .sysReset (mk 9 ⟨9, 5, 0, pingData⟩ (payload [1]) (ping.take 7) [0x4E#8, 0x47#8, 0x3C#8] []))
        (fun t => (t.localAddr, t.cursor 0, t.buffers, t.rxq 0, lastStatus t)) =
      some (0, 0, [payload [], payload []], [0x4E#8, 0x47#8, 0x3C#8], some .ok) := by decide +kernel

/-- DEC-8, DEC-9: an index that does not exist. -/
theorem test_illegal_index :
    after (step (State.reset.withFetchWord 32 0x50200900)) (fun t => t.responses) = some [{ status := .illegalCommand }] ∧
    after (step (State.reset.withFetchWord 32 0x60010000)) (fun t => t.responses) = some [{ status := .illegalCommand }] := by
  decide +kernel

/-- DEC-16: the span bytes of an illegal word are dropped. -/
theorem test_illegal_word_drops_its_span :
    after (step { State.reset with commands := [⟨0x24200300#32, 0⟩], spanIn := [1, 2, 3, 4] })
        (fun t => (t.responses, t.spanIn)) = some ([{ status := .illegalCommand }], [4]) := by decide +kernel

/-! ## One witness per statement with hypotheses: a state and operands that meet all of them, at boundary values where a statement
has clauses -/

/-- A full packet buffer, an empty one, and a parser in Idle. -/
def full : State := mk 9 (payload (List.replicate 128 7)) (payload []) [] [] []

theorem full_inv : full.Inv := mk_inv (by decide +kernel) (by decide) (by decide)

/-- A RECEIVE into `PB[1]` in progress. -/
def receiving (addr : Byte) (sc q : List Byte) : State := { waiting addr sc q with job := some (.receive 1 0) }

theorem waiting_inv {addr : Byte} {sc q : List Byte} (h : parserWf {} sc = true) : (waiting addr sc q).Inv :=
  mk_inv (by decide) (by decide) h

theorem receiving_inv {addr : Byte} {sc q : List Byte} (h : parserWf {} sc = true) : (receiving addr sc q).Inv := by
  have h0 := waiting_inv (addr := addr) (q := q) h
  exact ⟨h0.cfg_legal, h0.n_buffers, h0.n_parsers, h0.n_transports, h0.len_le, h0.parsers_wf, by
    show jobWf {} (some (.receive 1 0)) = true
    decide⟩

theorem witness_DecodeEncodeRoundTrip :
    (Instr.pbSetBytes 1 pingData).wellFormed {} = true ∧ (Instr.sendT 1 0 0xFF#8 0xFF#8).wellFormed {} = true ∧
      (Instr.frame 0 ping).wellFormed {} = true := by decide +kernel

theorem witness_EncodeDecodeRoundTrip :
    (∃ i, decode (.command 0x2AF00000#32 7 []) = .ok i) ∧ (∃ i, decode (.wire 0 ping) = .ok i) :=
  ⟨⟨.pbAddW 15 7, by decide +kernel⟩, ⟨.frame 0 ping, by decide +kernel⟩⟩

theorem witness_DecodableExactlyWhenInTable :
    ([] : List Byte).length = spanNeed 0x13000002#32 ∧ ([] : List Byte).length = spanNeed 0x13000003#32 ∧
      pingData.length = spanNeed 0x24000400#32 := by decide +kernel

theorem witness_PlacedWordRuns :
    decode (.command 0x24000200#32 0 (List.replicate (spanNeed 0x24000200#32) 0)) = .ok (.pbSetBytes 0 [0, 0]) := by
  decide +kernel

theorem witness_StepRunsDecodedInstruction :
    let s := { State.reset with commands := [⟨0x24000200#32, 0⟩], spanIn := [1, 2, 3], turns := [.core] }
    s.job = none ∧ s.commands = [⟨0x24000200#32, 0⟩] ∧ (∃ ts, s.turns = .core :: ts) ∧
      spanNeed 0x24000200#32 ≤ s.spanIn.length ∧
      decode (.command 0x24000200#32 0 (s.spanIn.take (spanNeed 0x24000200#32))) = .ok (.pbSetBytes 0 [1, 2]) :=
  ⟨rfl, rfl, ⟨_, rfl⟩, by decide +kernel, by decide +kernel⟩

theorem witness_StepAnswersIllegalWord :
    let s := { State.reset with commands := [⟨0x240002FF#32, 0⟩], spanIn := [1, 2, 3] }
    s.job = none ∧ s.commands = [⟨0x240002FF#32, 0⟩] ∧ s.turns = [] ∧ spanNeed 0x240002FF#32 ≤ s.spanIn.length ∧
      decode (.command 0x240002FF#32 0 (s.spanIn.take (spanNeed 0x240002FF#32))) = .error .unusedFieldNotZero :=
  ⟨rfl, rfl, rfl, by decide +kernel, by decide +kernel⟩

/-- The first index that does not exist, of each kind. -/
theorem witness_IllegalIndexAnswersIllegalCommand :
    (Instr.pbClear 2).isCommand = true ∧ (Instr.pbClear 2).indicesLegal State.reset.cfg = false ∧
      (Instr.rxReset 1).isCommand = true ∧ (Instr.rxReset 1).indicesLegal State.reset.cfg = false := by decide +kernel

theorem witness_StepOtherMoves :
    ((receiving 9 [] []).turns = [] ∧ (receiving 9 [] []).job = some (.receive 1 0)) ∧
    (({ State.reset with job := some .awaitWrite } : State).turns = [] ∧
      ({ State.reset with job := some .awaitWrite } : State).job = some .awaitWrite) ∧
    (State.reset.turns = [] ∧ State.reset.job = none ∧ State.reset.commands = []) ∧
    (({ State.reset with commands := [⟨0x24000200#32, 0⟩], spanIn := [1] } : State).spanIn.length < spanNeed 0x24000200#32) ∧
    ({ State.reset with turns := [.deliver 0 ping] } : State).turns = .deliver 0 ping :: [] :=
  ⟨⟨rfl, rfl⟩, ⟨rfl, rfl⟩, ⟨rfl, rfl, rfl⟩, by decide +kernel, rfl⟩

/-- The last channel that exists and the first that does not. -/
theorem witness_ExecAnswersNext :
    (Instr.send 15 15 0).isCommand = true ∧ (0 : ChIndex).toNat < State.reset.cfg.nCh ∧
      ¬ (1 : ChIndex).toNat < State.reset.cfg.nCh := by decide +kernel

/-- The smallest and the largest legal build. -/
theorem witness_ResetValues :
    Config.Legal { maxDataLen := 0, nPb := 1, nCh := 1 } ∧ Config.Legal { maxDataLen := 251, nPb := 16, nCh := 16 } ∧
      (15 : PbIndex).toNat < 16 ∧ (15 : ChIndex).toNat < 16 := by decide +kernel

theorem witness_ResetMeetsInvariant : Config.Legal { maxDataLen := 251, nPb := 16, nCh := 16 } := by decide +kernel

theorem witness_StepKeepsInvariant : ∃ s t : State, s.Inv ∧ step s = .next t ∧ t ≠ s :=
  ⟨receiving 9 (ping.take 9) [0x3C#8], _, receiving_inv (by decide +kernel), rfl, by decide +kernel⟩

theorem witness_StepStopsOnlyOnAbsentChannel :
    ∀ ch bytes ts, ({ State.reset with turns := [.deliver 0 ping] } : State).turns = .deliver ch bytes :: ts →
      ch.toNat < State.reset.cfg.nCh := by
  intro ch bytes ts h
  cases h
  decide

theorem witness_StepKeepsConfig : ∃ t, step State.reset = .next t := ⟨_, rfl⟩

/-- In the middle of a RECEIVE, and right after bytes have arrived for it. -/
theorem witness_ResetPinAbandonsCommand :
    ∃ s u : State, s.turns = .resetPin :: [] ∧ s.job = some (.receive 1 0) ∧ u.Inv ∧ (0 : ChIndex).toNat < u.cfg.nCh ∧
      u.turns = .deliver 0 ping :: .resetPin :: [] ∧ u.job = some (.receive 1 0) := by
  have h : (receiving 9 (ping.take 7) []).Inv := receiving_inv (by decide +kernel)
  exact ⟨{ receiving 9 (ping.take 7) [] with turns := [.resetPin] },
    { receiving 9 (ping.take 7) [] with turns := [.deliver 0 ping, .resetPin] }, rfl, rfl,
    ⟨h.cfg_legal, h.n_buffers, h.n_parsers, h.n_transports, h.len_le, h.parsers_wf, h.job_wf⟩, by decide, rfl, rfl⟩

theorem witness_PbClearEmptiesPayload : full.Inv ∧ (0 : PbIndex).toNat < full.cfg.nPb := ⟨full_inv, by decide⟩

theorem witness_PbLengthReturnsLength : full.Inv ∧ (1 : PbIndex).toNat < full.cfg.nPb := ⟨full_inv, by decide⟩

theorem witness_PbRawReturnsPayload : full.Inv ∧ (0 : PbIndex).toNat < full.cfg.nPb := ⟨full_inv, by decide⟩

/-- An index that exists; the reserved selector; the lowest and the highest unused bit of `b`. -/
theorem witness_PbRdhdrReturnsHeader :
    (1 : PbIndex).toNat < State.reset.cfg.nPb ∧ (3#8).extractLsb' 0 2 = 3#2 ∧ (4#8).extractLsb' 2 6 ≠ 0#6 ∧
      (0x80#8).extractLsb' 2 6 ≠ 0#6 := by decide +kernel

theorem witness_PbWrhdrWritesHeader : full.Inv ∧ (1 : PbIndex).toNat < full.cfg.nPb ∧ [HdrField.dst, .src, .typ].length = 3 :=
  ⟨full_inv, by decide, rfl⟩

/-- A build that holds all widths, and one that holds none. -/
theorem witness_PbSetScalarOverwrites :
    (full.Inv ∧ (1 : PbIndex).toNat < full.cfg.nPb ∧ 8 ≤ full.cfg.maxDataLen) ∧
    ((State.initial { maxDataLen := 0 }).Inv ∧ (1 : PbIndex).toNat < (State.initial { maxDataLen := 0 }).cfg.nPb ∧
      (State.initial { maxDataLen := 0 }).cfg.maxDataLen < 1) :=
  ⟨⟨full_inv, by decide, by decide⟩, ⟨tiny_inv, by decide, by decide⟩⟩

/-- A span of exactly the capacity, and one byte more; the longest span a word can ask for. -/
theorem witness_PbSetBytesOverwrites :
    full.Inv ∧ (0 : PbIndex).toNat < full.cfg.nPb ∧ (List.replicate 128 0x07#8).length ≤ full.cfg.maxDataLen ∧
      full.cfg.maxDataLen < (List.replicate 129 0x07#8).length ∧ (List.replicate 255 0x07#8).length ≤ 255 :=
  ⟨full_inv, by decide, by decide +kernel, by decide +kernel, by decide +kernel⟩

/-- An add that fits in the empty `PB[1]`, and one that does not in the full `PB[0]`. -/
theorem witness_PbAddScalarAppends :
    full.Inv ∧ (1 : PbIndex).toNat < full.cfg.nPb ∧ (full.pb 1).payload.length + 8 ≤ full.cfg.maxDataLen ∧
      full.cfg.maxDataLen < (full.pb 0).payload.length + 1 :=
  ⟨full_inv, by decide, by decide +kernel, by decide +kernel⟩

theorem witness_PbAddBytesAppends :
    full.Inv ∧ (0 : PbIndex).toNat < full.cfg.nPb ∧ (full.pb 1).payload.length + 128 ≤ full.cfg.maxDataLen ∧
      full.cfg.maxDataLen < (full.pb 0).payload.length + pingData.length :=
  ⟨full_inv, by decide, by decide +kernel, by decide +kernel⟩

theorem witness_PbGetUnsignedZeroExtends :
    (0 : PbIndex).toNat < full.cfg.nPb ∧ beyond full 0 8 = 0 ∧ beyond full 1 8 = 8 := by decide +kernel

theorem witness_PbGetSignedSignExtends :
    (1 : PbIndex).toNat < full.cfg.nPb ∧ beyond full 0 4 = 0 ∧ beyond full 1 4 = 4 := by decide +kernel

theorem witness_PbGetBytesReturnsSpan :
    (1 : PbIndex).toNat < full.cfg.nPb ∧ beyond full 0 (0xFF#8).toNat = 127 ∧ 254 < (0xFF#8).toNat := by decide +kernel

theorem witness_SetThenGetReturnsValue :
    full.Inv ∧ (0 : PbIndex).toNat < full.cfg.nPb ∧ 8 ≤ full.cfg.maxDataLen ∧
      (∃ t, exec (.pbSetB 0 0x1FF#64) full = .next t) ∧ (∃ t, exec (.pbSetH 0 0x1FF#64) full = .next t) ∧
      (∃ t, exec (.pbSetW 0 0x1FF#64) full = .next t) ∧ (∃ t, exec (.pbSetD 0 0x1FF#64) full = .next t) ∧
      (∃ t, exec (.pbSetBytes 0 pingData) full = .next t) ∧ pingData.length ≤ full.cfg.maxDataLen :=
  ⟨full_inv, by decide, by decide, ⟨_, rfl⟩, ⟨_, rfl⟩, ⟨_, rfl⟩, ⟨_, rfl⟩, ⟨_, rfl⟩, by decide⟩

theorem witness_CsumReturnsChecksum : (List.replicate 255 0xFF#8).length ≤ 255 ∧ ({} : Config).csum = .additive := by
  decide +kernel

theorem witness_DefaultChecksumIsSumModulo256 : ({} : Config).csum = .additive := rfl

/-- CS-7 and CS-8 give two spans of each kind. -/
theorem witness_DefaultChecksumLaws :
    ({} : Config).csum = .additive ∧ [0x50#8, 0x49#8].Perm [0x49#8, 0x50#8] ∧ (0x50#8 : Byte) ≠ 0x51#8 ∧
      ([0x50#8, 0x49#8].map (fun b => b.toNat)).sum % 256 = ([0x51#8, 0x48#8].map (fun b => b.toNat)).sum % 256 :=
  ⟨rfl, by decide +kernel, by decide, by decide +kernel⟩

/-- TX-1's start state with the count `n + 6`, and with a count that is not. -/
theorem witness_SendHandsOverFrame :
    ∃ s u : State, s.Inv ∧ u.Inv ∧ (0 : PbIndex).toNat < s.cfg.nPb ∧ (0 : ChIndex).toNat < s.cfg.nCh ∧
      (s.transport 0).answers = .count 10 :: [] ∧ (10 : WriteCount).toNat = (s.pb 0).payload.length + 6 ∧
      (0 : PbIndex).toNat < u.cfg.nPb ∧ (0 : ChIndex).toNat < u.cfg.nCh ∧
      (u.transport 0).answers = .count 11 :: [] ∧ (11 : WriteCount).toNat ≠ (u.pb 0).payload.length + 6 :=
  ⟨mk 5 (payload pingData) (payload []) [] [] [.count 10], mk 5 (payload pingData) (payload []) [] [] [.count 11],
    mk_inv (by decide) (by decide) (by decide), mk_inv (by decide) (by decide) (by decide), by decide, by decide, rfl,
    by decide +kernel, by decide, by decide, rfl, by decide +kernel⟩

theorem witness_SendWithUnlistedAnswer :
    full.Inv ∧ (0 : PbIndex).toNat < full.cfg.nPb ∧ (0 : ChIndex).toNat < full.cfg.nCh ∧ (full.transport 0).answers = [] :=
  ⟨full_inv, by decide, by decide, rfl⟩

theorem witness_SendWaitsForSilentTransport :
    ∃ s : State, s.Inv ∧ (0 : PbIndex).toNat < s.cfg.nPb ∧ (0 : ChIndex).toNat < s.cfg.nCh ∧
      (s.transport 0).answers = .silent :: [] ∧ s.turns = [] :=
  ⟨mk 5 (payload pingData) (payload []) [] [] [.silent], mk_inv (by decide) (by decide) (by decide), by decide, by decide, rfl,
    rfl⟩

/-- TX-5 a. -/
theorem witness_SendTooLargeKeepsStamps :
    ∃ s : State, (0 : PbIndex).toNat < s.cfg.nPb ∧ (0 : PbIndex).toNat < s.buffers.length ∧ (0 : ChIndex).toNat < s.cfg.nCh ∧
      s.cfg.maxDataLen < (s.pb 0).payload.length :=
  ⟨holding (List.replicate 129 7), by decide, by decide, by decide, by decide +kernel⟩

theorem witness_ReceiveOnEmptyQueue :
    (1 : PbIndex).toNat < State.reset.cfg.nPb ∧ (0 : ChIndex).toNat < State.reset.cfg.nCh ∧ State.reset.rxq 0 = [] := by
  decide

/-- Idle with SYN and without; LengthPending at both ends of the range and one beside each; Accumulating, one byte before the
last. -/
theorem witness_ReceivePassBeforeCompletion :
    (∀ b : Byte, (waiting 9 [] [b]).Inv ∧ (waiting 9 [] [b]).cursor 0 = 0 ∧ (waiting 9 [] [b]).rxq 0 = b :: []) ∧
    (∀ b : Byte, (waiting 9 [0x02#8] [b]).Inv ∧ (waiting 9 [0x02#8] [b]).cursor 0 = 1 ∧
      (waiting 9 [0x02#8] [b]).rxq 0 = b :: []) ∧
    (4 ≤ (0x04#8).toNat ∧ (0x84#8).toNat ≤ State.reset.cfg.maxDataLen + 4 ∧ ¬ 4 ≤ (0x03#8).toNat ∧
      ¬ (0x85#8).toNat ≤ State.reset.cfg.maxDataLen + 4) ∧
    ((waiting 9 (ping.take 8) [0x47#8]).Inv ∧ 2 ≤ (waiting 9 (ping.take 8) [0x47#8]).cursor 0 ∧
      (waiting 9 (ping.take 8) [0x47#8]).cursor 0 ≠ (((waiting 9 (ping.take 8) [0x47#8]).parser 0).getD 1 0).toNat + 1) ∧
    (1 : PbIndex).toNat < State.reset.cfg.nPb ∧ (0 : ChIndex).toNat < State.reset.cfg.nCh :=
  ⟨fun _ => ⟨waiting_inv rfl, rfl, rfl⟩, fun _ => ⟨waiting_inv (by decide), rfl, rfl⟩, by decide +kernel,
    ⟨waiting_inv (by decide +kernel), by decide +kernel, by decide +kernel⟩, by decide, by decide⟩

/-- RX-1, RX-4 and RX-5 at their last byte: accepted, address mismatch, checksum mismatch. -/
theorem witness_ReceiveLastByteDecides :
    (∀ a : Byte, (waiting a (ping.take 9) [0x3C#8]).Inv) ∧
    2 ≤ (waiting 9 (ping.take 9) [0x3C#8]).cursor 0 ∧
    (waiting 9 (ping.take 9) [0x3C#8]).cursor 0 = (((waiting 9 (ping.take 9) [0x3C#8]).parser 0).getD 1 0).toNat + 1 ∧
    (waiting 9 (ping.take 9) [0x3C#8]).rxq 0 = 0x3C#8 :: [] ∧
    csumOf {} ((ping.take 9).drop 2) = 0x3C#8 ∧ csumOf {} ((ping.take 9).drop 2) ≠ 0x3B#8 ∧
    Passes 9 ((ping.take 9).getD 2 0) ∧ ¬ Passes 7 ((ping.take 9).getD 2 0) ∧
    (1 : PbIndex).toNat < State.reset.cfg.nPb ∧ (0 : ChIndex).toNat < State.reset.cfg.nCh :=
  ⟨fun _ => waiting_inv (by decide +kernel), by decide +kernel, by decide +kernel, rfl, by decide +kernel, by decide +kernel,
    .inr (.inr rfl), by unfold Passes; decide, by decide, by decide⟩

theorem witness_SecondSynIsNotReinterpreted :
    ∃ s : State, s.Inv ∧ (1 : PbIndex).toNat < s.cfg.nPb ∧ (0 : ChIndex).toNat < s.cfg.nCh ∧ s.parser 0 = [] ∧
      s.rxq 0 = [0x02#8, 0x02#8, 0x08#8] :=
  ⟨waiting 9 [] [0x02#8, 0x02#8, 0x08#8], waiting_inv rfl, by decide, by decide, rfl, rfl⟩

theorem witness_ReceivePassesGiveWholeCommand :
    ∃ s t : State, s.Inv ∧ (1 : PbIndex).toNat < s.cfg.nPb ∧ (0 : ChIndex).toNat < s.cfg.nCh ∧ s.turns = [] ∧
      exec (.receive 1 0) s = .next t :=
  ⟨waiting 9 [] ping, _, waiting_inv rfl, by decide, by decide, rfl, rfl⟩

/-- RX-10: a frame in two deliveries, the first RECEIVE answering "not yet". -/
theorem witness_SplitDeliveryMakesNoDifference :
    (waiting 9 [] []).Inv ∧ (1 : PbIndex).toNat < State.reset.cfg.nPb ∧ (0 : ChIndex).toNat < State.reset.cfg.nCh ∧
      (waiting 9 [] []).job = none ∧ (waiting 9 [] []).rxq 0 = [] ∧
      (receiveAll 1 0 ((waiting 9 [] []).deliver 0 (ping.take 3))).responses =
        (waiting 9 [] []).responses ++ [receiveFlag false] :=
  ⟨waiting_inv rfl, by decide, by decide, rfl, rfl, by decide +kernel⟩

theorem witness_RxResetEmptiesParser :
    (waiting 9 (ping.take 7) []).Inv ∧ (0 : ChIndex).toNat < State.reset.cfg.nCh :=
  ⟨waiting_inv (by decide +kernel), by decide⟩

/-- With no command in progress, and during a RECEIVE of the channel. -/
theorem witness_FrameWaitsInQueue :
    full.Inv ∧ (receiving 9 [] []).Inv ∧ (receiving 9 [] []).job = some (.receive 1 0) ∧ (0 : ChIndex).toNat < full.cfg.nCh ∧
      (0 : ChIndex).toNat < (receiving 9 [] []).cfg.nCh :=
  ⟨full_inv, receiving_inv rfl, rfl, by decide, by decide⟩

/-- A parser in mid-frame with bytes already queued; the rest of the frame is accepted, a wrong checksum is not. -/
theorem witness_BytesDuringReceiveAreConsumed :
    (receiving 9 (ping.take 5) [0x50#8, 0x49#8]).Inv ∧ (receiving 9 (ping.take 5) [0x50#8, 0x49#8]).job = some (.receive 1 0) ∧
    (receiving 9 (ping.take 5) [0x50#8, 0x49#8]).turns = [] ∧
    (drain 1 0 [0x50#8, 0x49#8, 0x4E#8, 0x47#8, 0x3C#8] (receiving 9 (ping.take 5) [0x50#8, 0x49#8])).job = none ∧
    (drain 1 0 [0x50#8, 0x49#8, 0x4E#8, 0x47#8, 0x3B#8] (receiving 9 (ping.take 5) [0x50#8, 0x49#8])).job =
      some (.receive 1 0) :=
  ⟨receiving_inv (by decide +kernel), rfl, rfl, by decide +kernel, by decide +kernel⟩

/-- A receiver the frame is for, and one it is not for; a payload of exactly the capacity. -/
theorem witness_FrameIsReceived :
    (∀ a : Byte, (receiving a [] []).Inv ∧ (receiving a [] []).job = some (.receive 1 0) ∧
      (receiving a [] []).turns = [] ∧ (receiving a [] []).parser 0 = [] ∧ (receiving a [] []).rxq 0 = []) ∧
    (List.replicate 128 0x07#8).length ≤ State.reset.cfg.maxDataLen ∧ Passes 9 9 ∧ ¬ Passes 7 9 :=
  ⟨fun _ => ⟨receiving_inv rfl, rfl, rfl, rfl, rfl⟩, by decide +kernel, .inr (.inr rfl), by unfold Passes; decide⟩

/-- TX-6: station 5 sends PING to station 9. -/
theorem witness_SentFrameIsReceivedUnchanged :
    ∃ s r : State, s.Inv ∧ (0 : PbIndex).toNat < s.cfg.nPb ∧ (0 : ChIndex).toNat < s.cfg.nCh ∧
      (s.transport 0).answers = .count 10 :: [] ∧ r.Inv ∧ (1 : PbIndex).toNat < r.cfg.nPb ∧ (0 : ChIndex).toNat < r.cfg.nCh ∧
      r.cfg.csum = s.cfg.csum ∧ (s.pb 0).payload.length ≤ r.cfg.maxDataLen ∧ r.parser 0 = [] ∧
      r.rxq 0 = wireFrame s.cfg 9 s.localAddr 0 (s.pb 0).payload ∧ Passes r.localAddr 9 ∧ ¬ Passes 7 9 :=
  ⟨mk 5 (payload pingData) (payload []) [] [] [.count 10], waiting 9 [] ping, mk_inv (by decide) (by decide) (by decide),
    by decide, by decide, rfl, waiting_inv rfl, by decide, by decide, rfl, by decide, rfl, by decide +kernel, .inr (.inr rfl),
    by unfold Passes; decide⟩

/-- RX-5, and the first and the last byte the statement covers. -/
theorem witness_CorruptedByteIsCaught :
    (∀ (i : Nat) (x : Byte), (waiting 9 [] (ping.set i x)).Inv ∧ (waiting 9 [] (ping.set i x)).parser 0 = [] ∧
      (waiting 9 [] (ping.set i x)).rxq 0 = (wireFrame {} 9 5 0 pingData).set i x) ∧
    (wireFrame {} 9 5 0 pingData)[2]? ≠ some 0x08#8 ∧ (wireFrame {} 9 5 0 pingData)[6]? ≠ some 0x48#8 ∧
    (wireFrame {} 9 5 0 pingData)[9]? ≠ some 0x3D#8 ∧ 9 < pingData.length + 6 ∧
    State.reset.cfg.csum = .additive ∧ pingData.length ≤ State.reset.cfg.maxDataLen ∧
    (1 : PbIndex).toNat < State.reset.cfg.nPb ∧ (0 : ChIndex).toNat < State.reset.cfg.nCh := by
  have h : ping = wireFrame {} 9 5 0 pingData := by decide +kernel
  refine ⟨fun i x => ⟨waiting_inv rfl, rfl, ?_⟩, by decide +kernel, by decide +kernel, by decide +kernel, by decide, rfl,
    by decide, by decide, by decide⟩
  rw [← h]
  rfl

/-- RX-6, RX-8 a: noise without SYN, and noise that ends in Idle. -/
theorem witness_FrameAfterNoiseIsReceived :
    (waiting 9 [] ([0x55#8, 0xAA#8] ++ ping)).Inv ∧ (waiting 9 [] ([0x02#8, 0x03#8] ++ ping)).Inv ∧
    (waiting 9 [] ([0x55#8, 0xAA#8] ++ ping)).rxq 0 = [0x55#8, 0xAA#8] ++ wireFrame {} 9 5 0 pingData ∧
    (waiting 9 [] ([0x55#8, 0xAA#8] ++ ping)).parser 0 = [] ∧ (∀ b ∈ [0x55#8, 0xAA#8], b ≠ 0x02#8) ∧
    (drain 1 0 [0x02#8, 0x03#8] (receiving 9 [] ([0x02#8, 0x03#8] ++ ping))).job = some (.receive 1 0) ∧
    (drain 1 0 [0x02#8, 0x03#8] (receiving 9 [] ([0x02#8, 0x03#8] ++ ping))).parser 0 = [] ∧
    pingData.length ≤ State.reset.cfg.maxDataLen ∧ Passes 9 9 ∧
    (1 : PbIndex).toNat < State.reset.cfg.nPb ∧ (0 : ChIndex).toNat < State.reset.cfg.nCh :=
  ⟨waiting_inv rfl, waiting_inv rfl, by decide +kernel, rfl, by decide, by decide +kernel, by decide +kernel, by decide,
    .inr (.inr rfl), by decide, by decide⟩

theorem witness_LocalAddrWriters :
    ∃ t, exec (.cfgWraddr 5) State.reset = .next t ∧ t.localAddr ≠ State.reset.localAddr := ⟨_, rfl, by decide⟩

theorem witness_ParserWriters :
    ∃ t, exec (.receive 1 0) (waiting 9 [] ping) = .next t ∧ t.parser 0 ≠ (waiting 9 [] ping).parser 0 :=
  ⟨_, rfl, by decide +kernel⟩

theorem witness_PacketBufferWriters :
    ∃ t, exec (.receive 1 0) (waiting 9 (ping.take 9) [0x3C#8]) = .next t ∧ t.pb 1 ≠ (waiting 9 (ping.take 9) [0x3C#8]).pb 1 :=
  ⟨_, rfl, by decide +kernel⟩

theorem witness_TransportUsers :
    (∃ t, exec (.sendT 0 0 9 0) (waiting 9 [] ping) = .next t ∧
      (t.transport 0).writes ≠ ((waiting 9 [] ping).transport 0).writes) ∧
    (∃ t, exec (.receive 1 0) (waiting 9 [] ping) = .next t ∧ t.rxq 0 ≠ (waiting 9 [] ping).rxq 0) ∧
    (∃ t, exec (.frame 0 ping) (receiving 9 [] []) = .next t ∧ t.rxq 0 ≠ (receiving 9 [] []).rxq 0) := by
  refine ⟨⟨_, rfl, ?_⟩, ⟨_, rfl, by decide +kernel⟩, ⟨_, rfl, by decide +kernel⟩⟩
  show [_] ≠ []
  simp

theorem witness_ResponsesByCommand :
    (Instr.pbAddB 0 1).isCommand = true ∧ (∃ t, exec (.pbAddB 0 1) (waiting 9 [] ping) = .next t) ∧
      (Instr.receive 1 0).isCommand = true ∧ (∃ t, exec (.receive 1 0) (waiting 9 [] ping) = .next t) :=
  ⟨rfl, ⟨_, rfl⟩, rfl, ⟨_, rfl⟩⟩

end Sys2Proof.Tests
end

section
/-! SUPPORT. The scope statements of 00_scope.md: whose move the next step is, what every instruction leaves of the build and of
the host's side, and bytes that arrive. -/

namespace Sys2Proof.Machine

/-! ## The next move, by the head of the list of turns (00_scope.md rule R16) -/

theorem fetch_of_core_turn {s : State} (h : s.turns = [] ∨ ∃ ts, s.turns = .core :: ts) :
    fetch s = coreMove { s with turns := s.turns.tail } := by
  rcases h with h | ⟨ts, h⟩
  · simp only [fetch, h, List.tail_nil]
    rw [← h]
  · simp only [fetch, h, List.tail_cons]

theorem fetch_of_deliver {s : State} {ch : ChIndex} {bytes : List Byte} {ts : List Turn}
    (h : s.turns = .deliver ch bytes :: ts) : fetch s = .run (.frame ch bytes) { s with turns := ts } := by
  simp only [fetch, h]

theorem fetch_of_resetPin {s : State} {ts : List Turn} (h : s.turns = .resetPin :: ts) :
    fetch s = .settle { s with turns := ts }.resetCore := by
  simp only [fetch, h]

theorem coreMove_of_command {s : State} {c : HostCommand} {rest : List HostCommand} (hj : s.job = none)
    (hc : s.commands = c :: rest) : coreMove s = takeCommand s c rest := by
  simp only [coreMove, hj, hc]

theorem takeCommand_of_decode_ok {s : State} {c : HostCommand} {rest : List HostCommand} {i : Instr}
    (hn : spanNeed c.word ≤ s.spanIn.length) (hd : decode (.command c.word c.wdata (s.spanOf c.word)) = .ok i) :
    takeCommand s c rest = .run i (s.taken c.word rest) := by
  simp only [takeCommand, if_neg (Nat.not_lt.mpr hn), hd]

theorem step_of_run {s u : State} {i : Instr} (h : fetch s = .run i u) : step s = exec i u := by
  simp only [step, h]

theorem step_of_settle {s u : State} (h : fetch s = .settle u) : step s = .next u := by
  simp only [step, h]

/-- Every step that answers a next state ran the fetched instruction to it, or settled in it. -/
theorem step_cases {s t : State} (h : step s = .next t) :
    (∃ i u, fetch s = .run i u ∧ exec i u = .next t) ∨ fetch s = .settle t := by
  cases hf : fetch s with
  | run i u => exact .inl ⟨i, u, rfl, step_of_run hf ▸ h⟩
  | settle u =>
    rw [step_of_settle hf] at h
    cases h
    exact .inr rfl

/-- The pin's turn gives the reset values and consumes itself (70_reset_and_hazards.md rules R310, R311). -/
theorem step_of_resetPin {s : State} {ts : List Turn} (h : s.turns = .resetPin :: ts) :
    step s = .next { s with turns := ts }.resetCore :=
  step_of_settle (fetch_of_resetPin h)

theorem steps_succ_of_step {s u : State} (h : step s = .next u) (k : Nat) : steps (k + 1) s = steps k u := by
  simp only [steps, h]

/-! ## The next move keeps the build -/

/-- The state a move starts from or settles in. -/
def Move.state : Move → State
  | .run _ s | .settle s => s

theorem takeCommand_state_cfg (s : State) (c : HostCommand) (rest : List HostCommand) :
    (takeCommand s c rest).state.cfg = s.cfg := by
  unfold takeCommand
  split
  · rfl
  · split <;> rfl

theorem coreMove_state_cfg (s : State) : (coreMove s).state.cfg = s.cfg := by
  unfold coreMove
  split
  · rfl
  · rfl
  · split
    · rfl
    · exact takeCommand_state_cfg ..

theorem fetch_state_cfg (s : State) : (fetch s).state.cfg = s.cfg := by
  unfold fetch
  split
  · exact coreMove_state_cfg s
  · exact coreMove_state_cfg _
  · rfl
  · rfl

/-! ## Every instruction leaves the build and the host's side as they were -/

theorem sameOutside_of_next {s t u : State} (h : (.next u : Out) = .next t) (hu : SameOutside s u) : SameOutside s t := by
  cases h
  exact hu

theorem ifBuffer_sameOutside {p : PbIndex} {s t : State} {k : Out} (h : ifBuffer p s k = .next t)
    (hk : k = .next t → SameOutside s t) : SameOutside s t := by
  rcases ifBuffer_cases h with ⟨-, h⟩ | ⟨-, rfl⟩
  · exact hk h
  · exact ⟨rfl, rfl, rfl, rfl⟩

theorem ifChannel_sameOutside {ch : ChIndex} {s t : State} {k : Out} (h : ifChannel ch s k = .next t)
    (hk : k = .next t → SameOutside s t) : SameOutside s t := by
  rcases ifChannel_cases h with ⟨-, h⟩ | ⟨-, rfl⟩
  · exact hk h
  · exact ⟨rfl, rfl, rfl, rfl⟩

theorem setPayload_sameOutside {p : PbIndex} {bytes : List Byte} {s t : State} (h : setPayload p bytes s = .next t) :
    SameOutside s t := by
  rcases setPayload_cases h with ⟨-, rfl⟩ | ⟨-, -, rfl⟩ | ⟨-, -, rfl⟩ <;> exact ⟨rfl, rfl, rfl, rfl⟩

theorem addPayload_sameOutside {p : PbIndex} {bytes : List Byte} {s t : State} (h : addPayload p bytes s = .next t) :
    SameOutside s t := by
  rcases addPayload_cases h with ⟨-, rfl⟩ | ⟨-, -, rfl⟩ | ⟨-, -, rfl⟩ <;> exact ⟨rfl, rfl, rfl, rfl⟩

theorem getPayload_sameOutside {p : PbIndex} {n : Nat} {f : List Byte → Response} {s t : State}
    (h : getPayload p n f s = .next t) : SameOutside s t := by
  rcases getPayload_cases h with ⟨-, rfl⟩ | ⟨-, rfl⟩ <;> exact ⟨rfl, rfl, rfl, rfl⟩

theorem getUnsigned_sameOutside {p : PbIndex} {n : Nat} {s t : State} (h : getUnsigned p n s = .next t) : SameOutside s t :=
  getPayload_sameOutside h

theorem getSigned_sameOutside {p : PbIndex} {n : Nat} {s t : State} (h : getSigned p n s = .next t) : SameOutside s t :=
  getPayload_sameOutside h

theorem sendWrite_sameOutside (ch : ChIndex) (f : List Byte) (s : State) : SameOutside s (sendWrite ch f s) := by
  rcases sendWrite_cases ch f s with ⟨w, -, e⟩ | ⟨-, e⟩ <;> rw [e] <;> exact ⟨rfl, rfl, rfl, rfl⟩

theorem sendPacket_sameOutside {p : PbIndex} {ch : ChIndex} {dst : Byte} {typ : Option Byte} {s t : State}
    (h : sendPacket p ch dst typ s = .next t) : SameOutside s t := by
  rcases sendPacket_cases h with ⟨-, rfl⟩ | ⟨-, -, ⟨-, rfl⟩ | ⟨-, rfl⟩⟩
  · exact ⟨rfl, rfl, rfl, rfl⟩
  · exact ⟨rfl, rfl, rfl, rfl⟩
  · -- the stamping before the write touches `PB[p]` only
    obtain ⟨hcfg, hcommands, hspan, hturns⟩ := sendWrite_sameOutside ch
      (frameOf s.cfg (stamp (s.pb p) s.localAddr dst typ)) (s.setPb p (stamp (s.pb p) s.localAddr dst typ))
    exact ⟨hcfg, hcommands, hspan, hturns⟩

theorem rxStep_sameOutside (s : State) (p : PbIndex) (ch : ChIndex) (b : Byte) : SameOutside s (s.rxStep p ch b) :=
  ⟨rxStep_cfg .., rxStep_commands .., rxStep_spanIn .., rxStep_turns ..⟩

theorem execReceive_sameOutside {p : PbIndex} {ch : ChIndex} {s t : State} (h : execReceive p ch s = .next t) :
    SameOutside s t := by
  rcases receive_cases h with ⟨-, rfl⟩ | ⟨-, -, ⟨-, rfl⟩ | ⟨b, rest, -, hb⟩⟩
  · exact ⟨rfl, rfl, rfl, rfl⟩
  · exact ⟨rfl, rfl, rfl, rfl⟩
  · obtain ⟨hcfg, hcommands, hspan, hturns⟩ := rxStep_sameOutside (s.setRxq ch rest) p ch b
    rcases hb with ⟨-, rfl⟩ | ⟨-, rfl⟩ <;> exact ⟨hcfg, hcommands, hspan, hturns⟩

theorem execFrame_sameOutside {ch : ChIndex} {bytes : List Byte} {s t : State} (h : execFrame ch bytes s = .next t) :
    SameOutside s t := by
  obtain ⟨-, rfl⟩ := frame_cases h
  exact ⟨rfl, rfl, rfl, rfl⟩

/-- No instruction writes the build, the host's commands and span bytes, or the order of turns (00_scope.md rule R16; log 2). -/
theorem exec_sameOutside {i : Instr} {s t : State} (h : exec i s = .next t) : SameOutside s t := by
  cases i with
  | pbClear | pbLength | pbRaw | pbRdhdr | pbWrhdr =>
    exact ifBuffer_sameOutside h fun h => sameOutside_of_next h ⟨rfl, rfl, rfl, rfl⟩
  | pbSetB | pbSetH | pbSetW | pbSetD | pbSetBytes => exact setPayload_sameOutside h
  | pbAddB | pbAddH | pbAddW | pbAddD | pbAddBytes => exact addPayload_sameOutside h
  | pbGetUb | pbGetUh | pbGetUw | pbGetD => exact getUnsigned_sameOutside h
  | pbGetSb | pbGetSh | pbGetSw => exact getSigned_sameOutside h
  | pbGetBytes => exact getPayload_sameOutside h
  | send | sendT => exact sendPacket_sameOutside h
  | receive => exact execReceive_sameOutside h
  | rxReset => exact ifChannel_sameOutside h fun h => sameOutside_of_next h ⟨rfl, rfl, rfl, rfl⟩
  | csum | cfgWraddr | cfgRdaddr | sysReset => exact sameOutside_of_next h ⟨rfl, rfl, rfl, rfl⟩
  | frame => exact execFrame_sameOutside h

/-! ## Bytes that arrive (20_memory.md rule R66) -/

theorem exec_frame_of_lt {ch : ChIndex} {s : State} (h : ch.toNat < s.cfg.nCh) (bytes : List Byte) :
    exec (.frame ch bytes) s = .next (s.deliver ch bytes) :=
  execFrame_of_lt h bytes

theorem transport_deliver_self {s : State} {ch : ChIndex} (h : ch.toNat < s.transports.length) (bytes : List Byte) :
    (s.deliver ch bytes).transport ch = { s.transport ch with rxq := s.rxq ch ++ bytes } :=
  State.transport_setTransport_self h _

theorem transport_deliver_ne {s : State} {ch c : ChIndex} (h : c ≠ ch) (bytes : List Byte) :
    (s.deliver ch bytes).transport c = s.transport c :=
  State.transport_setTransport_ne h _

theorem length_transports_deliver (s : State) (ch : ChIndex) (bytes : List Byte) :
    (s.deliver ch bytes).transports.length = s.transports.length :=
  List.length_set

theorem State.Inv.ch_lt_transports {s : State} (hs : s.Inv) {ch : ChIndex} (h : ch.toNat < s.cfg.nCh) :
    ch.toNat < s.transports.length :=
  hs.n_transports ▸ h

/-- A delivery's turn on a channel that exists lets the bytes arrive and consumes itself. -/
theorem step_of_deliver {s : State} {ch : ChIndex} {bytes : List Byte} {ts : List Turn} (hch : ch.toNat < s.cfg.nCh)
    (h : s.turns = .deliver ch bytes :: ts) : step s = .next (State.deliver { s with turns := ts } ch bytes) :=
  (step_of_run (fetch_of_deliver h)).trans (exec_frame_of_lt (s := { s with turns := ts }) hch bytes)

/-! ## The statements -/

/-- Settles O16: the next move keeps the build, and so does the instruction it runs. -/
theorem stepKeepsConfig : Obligations.StepKeepsConfig := by
  intro s t h
  have hfetch := fetch_state_cfg s
  rcases step_cases h with ⟨i, u, hf, hx⟩ | hf <;> rw [hf] at hfetch
  · exact (exec_sameOutside hx).cfg.trans hfetch
  · exact hfetch

/-- Settles O7: the core's turn, no command in progress and a whole span lead to the decoded command. -/
theorem stepRunsDecodedInstruction : Obligations.StepRunsDecodedInstruction := by
  intro s c rest i hj hc ht hn hd
  apply step_of_run
  calc fetch s
      = coreMove { s with turns := s.turns.tail } := fetch_of_core_turn ht
    _ = takeCommand { s with turns := s.turns.tail } c rest := coreMove_of_command hj hc
    _ = .run i (State.taken { s with turns := s.turns.tail } c.word rest) := takeCommand_of_decode_ok hn hd

/-- Settles O18: the pin's step is the reset of the core, which leaves the queue that an arrival just before it has filled. -/
theorem resetPinAbandonsCommand : Obligations.ResetPinAbandonsCommand := by
  refine ⟨fun s ts h => step_of_resetPin h, fun s ch bytes ts hs hch h => ?_⟩
  have hdeliver := step_of_deliver hch h
  have hpin := step_of_resetPin (s := State.deliver { s with turns := .resetPin :: ts } ch bytes) rfl
  exact ⟨_, (steps_succ_of_step hdeliver 1).trans (steps_succ_of_step hpin 0),
    State.rxq_setRxq_self (s := { s with turns := .resetPin :: ts }) (hs.ch_lt_transports hch) _, rfl, rfl, rfl, rfl⟩

/-- Settles O47: the instruction only delivers the bytes, and a delivery touches one queue. -/
theorem frameWaitsInQueue : Obligations.FrameWaitsInQueue := by
  intro s ch bytes hs hch
  have hframe := exec_frame_of_lt hch bytes
  exact ⟨_, hframe, transport_deliver_self (hs.ch_lt_transports hch) bytes, fun c hc => transport_deliver_ne hc bytes,
    length_transports_deliver s ch bytes, exec_sameOutside hframe, rfl, rfl, rfl, rfl, rfl, rfl, rfl⟩

end Sys2Proof.Machine
end

section
/-! SUPPORT. The statements of 10_state.md: what each instruction can write of the core, the values after reset, and the invariant
that every step keeps. -/

namespace Sys2Proof.Machine

/-! ## Reading the buffers and the parsers -/

theorem State.pb_of_buffers_eq {s t : State} (h : t.buffers = s.buffers) (p : PbIndex) : t.pb p = s.pb p := by
  rw [State.pb, h, ← State.pb]

theorem State.parser_of_parsers_eq {s t : State} (h : t.parsers = s.parsers) (ch : ChIndex) :
    t.parser ch = s.parser ch := by
  rw [State.parser, h, ← State.parser]

theorem State.pb_initial {c : Config} {p : PbIndex} (h : p.toNat < c.nPb) :
    (State.initial c).pb p = PacketBuffer.empty :=
  List.getD_replicate _ h

theorem State.cursor_initial {c : Config} {ch : ChIndex} (h : ch.toNat < c.nCh) : (State.initial c).cursor ch = 0 :=
  congrArg List.length (List.getD_replicate _ h)

/-! ## What an instruction can write of the core (10_state.md rules R22, R30, R31) -/

/-- Everything an instruction other than SYS.RESET can write of the core: at most the packet buffer it names, `LOCAL_ADDR` only as
CFG.WRADDR, a parser only as RECEIVE or RX.RESET of its channel; and from a good state what it writes is within R23 and R29. -/
structure CoreEffect (i : Instr) (s t : State) : Prop where
  buffers : t.buffers = s.buffers ∨ ∃ p b, i.pbIndex = some p ∧ t.buffers = (s.setPb p b).buffers ∧
    (s.Inv → b.payload.length ≤ s.cfg.maxDataLen)
  localAddr : t.localAddr = s.localAddr ∨ ∃ a, i = .cfgWraddr a
  parsers : t.parsers = s.parsers ∨ ∃ c sc, ((∃ p, i = .receive p c) ∨ i = .rxReset c) ∧
    t.parsers = (s.setParser c sc).parsers ∧ (s.Inv → parserWf s.cfg sc = true)
  nTransports : t.transports.length = s.transports.length
  job : s.Inv → jobWf s.cfg t.job = true

/-- The end of a command writes nothing of the core but the command in progress. -/
theorem CoreEffect.respond {i : Instr} {s t : State} (h : CoreEffect i s t) (r : Response) : CoreEffect i s (t.respond r) :=
  { h with job := fun _ => rfl }

theorem CoreEffect.setJob {i : Instr} {s t : State} (h : CoreEffect i s t) {j : Option Job} (hj : jobWf s.cfg j = true) :
    CoreEffect i s { t with job := j } :=
  { h with job := fun _ => hj }

theorem coreEffect_refl (i : Instr) (s : State) : CoreEffect i s s :=
  ⟨.inl rfl, .inl rfl, .inl rfl, rfl, fun hs => hs.job_wf⟩

theorem coreEffect_respond (i : Instr) (s : State) (r : Response) : CoreEffect i s (s.respond r) :=
  (coreEffect_refl i s).respond r

theorem coreEffect_setPb {i : Instr} {s : State} {p : PbIndex} {b : PacketBuffer} (hp : i.pbIndex = some p)
    (hb : s.Inv → b.payload.length ≤ s.cfg.maxDataLen) : CoreEffect i s (s.setPb p b) :=
  { coreEffect_refl i s with buffers := .inr ⟨p, b, hp, rfl, hb⟩ }

theorem coreEffect_setParser {i : Instr} {s : State} {ch : ChIndex} {sc : List Byte}
    (hi : (∃ p, i = .receive p ch) ∨ i = .rxReset ch) (hsc : s.Inv → parserWf s.cfg sc = true) :
    CoreEffect i s (s.setParser ch sc) :=
  { coreEffect_refl i s with parsers := .inr ⟨ch, sc, hi, rfl, hsc⟩ }

theorem coreEffect_of_next {i : Instr} {s t u : State} (h : (.next u : Out) = .next t) (hu : CoreEffect i s u) :
    CoreEffect i s t := by
  cases h
  exact hu

theorem ifBuffer_coreEffect {i : Instr} {p : PbIndex} {s t u : State} (h : ifBuffer p s (.next u) = .next t)
    (hu : CoreEffect i s u) : CoreEffect i s t := by
  rcases ifBuffer_cases h with ⟨-, h⟩ | ⟨-, rfl⟩
  · exact coreEffect_of_next h hu
  · exact coreEffect_respond ..

/-! ### The packet buffer commands -/

theorem length_writeHdr_payload (b : PacketBuffer) (f : HdrField) (v : Byte) :
    (writeHdr b f v).payload.length = b.payload.length := by
  cases f <;> rfl

theorem State.Inv.len_pb_le {s : State} (hs : s.Inv) (p : PbIndex) : (s.pb p).payload.length ≤ s.cfg.maxDataLen :=
  Machine.len_pb_le hs.len_le p

theorem setPayload_coreEffect {i : Instr} {p : PbIndex} {bytes : List Byte} {s t : State} (hp : i.pbIndex = some p)
    (h : setPayload p bytes s = .next t) : CoreEffect i s t := by
  rcases setPayload_cases h with ⟨-, rfl⟩ | ⟨-, -, rfl⟩ | ⟨-, hfit, rfl⟩
  · exact coreEffect_respond ..
  · exact coreEffect_respond ..
  · exact (coreEffect_setPb hp fun _ => by simpa using hfit).respond _

theorem addPayload_coreEffect {i : Instr} {p : PbIndex} {bytes : List Byte} {s t : State} (hp : i.pbIndex = some p)
    (h : addPayload p bytes s = .next t) : CoreEffect i s t := by
  rcases addPayload_cases h with ⟨-, rfl⟩ | ⟨-, -, rfl⟩ | ⟨-, hfit, rfl⟩
  · exact coreEffect_respond ..
  · exact coreEffect_respond ..
  · exact (coreEffect_setPb hp fun _ => by simpa [PacketBuffer.len] using hfit).respond _

theorem getPayload_coreEffect {i : Instr} {p : PbIndex} {n : Nat} {f : List Byte → Response} {s t : State}
    (h : getPayload p n f s = .next t) : CoreEffect i s t := by
  rcases getPayload_cases h with ⟨-, rfl⟩ | ⟨-, rfl⟩
  · exact coreEffect_respond ..
  · exact { coreEffect_refl i s with job := fun _ => rfl }

theorem getUnsigned_coreEffect {i : Instr} {p : PbIndex} {n : Nat} {s t : State} (h : getUnsigned p n s = .next t) :
    CoreEffect i s t :=
  getPayload_coreEffect h

theorem getSigned_coreEffect {i : Instr} {p : PbIndex} {n : Nat} {s t : State} (h : getSigned p n s = .next t) :
    CoreEffect i s t :=
  getPayload_coreEffect h

/-! ### The sends -/

/-- A write request and its answer touch the transport and the command in progress only. -/
theorem CoreEffect.sendWrite {i : Instr} {s t : State} (h : CoreEffect i s t) (ch : ChIndex) (f : List Byte) :
    CoreEffect i s (sendWrite ch f t) := by
  have hrequest : CoreEffect i s (t.writeRequest ch f) := { h with nTransports := List.length_set.trans h.nTransports }
  rcases sendWrite_cases ch f t with ⟨w, -, e⟩ | ⟨-, e⟩ <;> rw [e]
  · exact hrequest.respond _
  · exact hrequest.setJob rfl

theorem sendPacket_coreEffect {i : Instr} {p : PbIndex} {ch : ChIndex} {dst : Byte} {typ : Option Byte} {s t : State}
    (hp : i.pbIndex = some p) (h : sendPacket p ch dst typ s = .next t) : CoreEffect i s t := by
  have hstamp : CoreEffect i s (s.setPb p (stamp (s.pb p) s.localAddr dst typ)) :=
    coreEffect_setPb hp fun hs => hs.len_pb_le p
  rcases sendPacket_cases h with ⟨-, rfl⟩ | ⟨-, -, ⟨-, rfl⟩ | ⟨-, rfl⟩⟩
  · exact coreEffect_respond ..
  · exact hstamp.respond _
  · exact hstamp.sendWrite ch _

/-! ### The receives -/

/-- The packet of an accepted frame fits: the cursor is at most `LEN + 1`, and five bytes stand before the payload (10_state.md rule
R29, 43_receive.md rule R223). -/
theorem rxByte_packet_length_le {c : Config} {a b : Byte} {sc : List Byte} {k : PacketBuffer} (hw : parserWf c sc = true)
    (h : (rxByte c a sc b).packet = some k) : k.payload.length ≤ c.maxDataLen := by
  by_cases hlast : 2 ≤ sc.length ∧ sc.length = (sc.getD 1 0).toNat + 1
  · rw [rxByte_last hw b hlast.1 hlast.2] at h
    split at h
    · cases h
    · split at h <;> cases h
      have hcap : sc.length ≤ 3 + c.maxDataLen + 1 + 1 := parserWf_length hw
      simp only [List.length_drop]
      omega
  · rcases rxByte_before_completion (a := a) hw b (fun h2 he => hlast ⟨h2, he⟩) with
      ⟨-, -, e⟩ | ⟨-, -, e⟩ | ⟨-, -, e⟩ | ⟨-, -, e⟩ | ⟨-, e⟩ <;> rw [e] at h <;> cases h

/-- A byte step writes no packet buffer but `PB[p]`, and there only the packet of an accepted frame. -/
theorem rxStep_buffers_cases (s : State) (p : PbIndex) (ch : ChIndex) (b : Byte) :
    (s.rxStep p ch b).buffers = s.buffers ∨
      ∃ k, (rxByte s.cfg s.localAddr (s.parser ch) b).packet = some k ∧
        (s.rxStep p ch b).buffers = (s.setPb p k).buffers := by
  rw [rxStep_buffers]
  cases (rxByte s.cfg s.localAddr (s.parser ch) b).packet with
  | none => exact .inl rfl
  | some k => exact .inr ⟨k, rfl, rfl⟩

/-- One byte taken from the queue and stepped. -/
theorem coreEffect_rxStep (s : State) (p : PbIndex) (ch : ChIndex) (b : Byte) (rest : List Byte) :
    CoreEffect (.receive p ch) s ((s.setRxq ch rest).rxStep p ch b) where
  buffers := by
    rcases rxStep_buffers_cases (s.setRxq ch rest) p ch b with e | ⟨k, hk, e⟩
    · exact .inl e
    · exact .inr ⟨p, k, rfl, e, fun hs => rxByte_packet_length_le (parserWf_parser hs.parsers_wf ch) hk⟩
  localAddr := .inl (rxStep_localAddr ..)
  parsers := .inr ⟨ch, _, .inl ⟨p, rfl⟩, rxStep_parsers ..,
    fun hs => parserWf_rxByte (parserWf_parser hs.parsers_wf ch) b⟩
  nTransports := by
    rw [rxStep_transports]
    exact List.length_set
  job := fun hs => by
    rw [rxStep_job]
    exact hs.job_wf

theorem execReceive_coreEffect {p : PbIndex} {ch : ChIndex} {s t : State} (h : execReceive p ch s = .next t) :
    CoreEffect (.receive p ch) s t := by
  rcases receive_cases h with ⟨-, rfl⟩ | ⟨hp, hch, ⟨-, rfl⟩ | ⟨b, rest, -, ⟨-, rfl⟩ | ⟨-, rfl⟩⟩⟩
  · exact coreEffect_respond ..
  · exact coreEffect_respond ..
  · exact (coreEffect_rxStep s p ch b rest).respond _
  · exact (coreEffect_rxStep s p ch b rest).setJob (by simp [jobWf, hp, hch])

theorem execRxReset_coreEffect {ch : ChIndex} {s t : State} (h : execRxReset ch s = .next t) :
    CoreEffect (.rxReset ch) s t := by
  rcases ifChannel_cases h with ⟨-, h⟩ | ⟨-, rfl⟩
  · exact coreEffect_of_next h ((coreEffect_setParser (.inr rfl) fun _ => rfl).respond _)
  · exact coreEffect_respond ..

/-! ### Bytes that arrive, and every instruction -/

theorem execFrame_coreEffect {i : Instr} {ch : ChIndex} {bytes : List Byte} {s t : State}
    (h : execFrame ch bytes s = .next t) : CoreEffect i s t := by
  obtain ⟨-, rfl⟩ := frame_cases h
  exact { coreEffect_refl i s with nTransports := length_transports_deliver s ch bytes }

/-- Every instruction but SYS.RESET, which writes the whole core, stays within `CoreEffect`. -/
theorem exec_coreEffect {i : Instr} {s t : State} (hi : i ≠ .sysReset) (h : exec i s = .next t) : CoreEffect i s t := by
  cases i with
  | pbClear => exact ifBuffer_coreEffect h ((coreEffect_setPb rfl fun _ => Nat.zero_le _).respond _)
  | pbWrhdr p f v =>
    exact ifBuffer_coreEffect h
      ((coreEffect_setPb rfl fun hs => (length_writeHdr_payload _ f v).trans_le (hs.len_pb_le p)).respond _)
  | pbLength | pbRaw | pbRdhdr => exact ifBuffer_coreEffect h (coreEffect_respond ..)
  | pbSetB | pbSetH | pbSetW | pbSetD | pbSetBytes => exact setPayload_coreEffect rfl h
  | pbAddB | pbAddH | pbAddW | pbAddD | pbAddBytes => exact addPayload_coreEffect rfl h
  | pbGetUb | pbGetUh | pbGetUw | pbGetD => exact getUnsigned_coreEffect h
  | pbGetSb | pbGetSh | pbGetSw => exact getSigned_coreEffect h
  | pbGetBytes => exact getPayload_coreEffect h
  | send | sendT => exact sendPacket_coreEffect rfl h
  | receive => exact execReceive_coreEffect h
  | rxReset => exact execRxReset_coreEffect h
  | csum | cfgRdaddr => exact coreEffect_of_next h (coreEffect_respond ..)
  | cfgWraddr a => exact coreEffect_of_next h { coreEffect_refl _ s with localAddr := .inr ⟨a, rfl⟩, job := fun _ => rfl }
  | sysReset => exact absurd rfl hi
  | frame => exact execFrame_coreEffect h

/-! ## The updates of the machine keep the invariant -/

theorem State.Inv.setTurns {s : State} (hs : s.Inv) (ts : List Turn) : { s with turns := ts }.Inv :=
  { hs with }

theorem State.Inv.taken {s : State} (hs : s.Inv) (w : CmdWord) (rest : List HostCommand) : (s.taken w rest).Inv :=
  { hs with }

theorem State.Inv.respond {s : State} (hs : s.Inv) (r : Response) : (s.respond r).Inv :=
  { hs with job_wf := rfl }

/-- Reset gives a good state whatever the core held: only the build and the environment matter (R37). -/
theorem inv_resetCore {s : State} (hc : s.cfg.Legal) (ht : s.transports.length = s.cfg.nCh) : s.resetCore.Inv where
  cfg_legal := hc
  n_buffers := List.length_replicate
  n_parsers := List.length_replicate
  n_transports := ht
  len_le := (Memory.wf_resetCore s).1
  parsers_wf := fun sc hsc => by
    rw [State.resetCore_parsers] at hsc
    rw [List.eq_of_mem_replicate hsc]
    rfl
  job_wf := rfl

theorem State.Inv.resetCore {s : State} (hs : s.Inv) : s.resetCore.Inv :=
  inv_resetCore hs.cfg_legal hs.n_transports

/-- An instruction that stays within `CoreEffect` and keeps the build keeps the invariant. -/
theorem State.Inv.of_coreEffect {i : Instr} {s t : State} (hs : s.Inv) (h : CoreEffect i s t) (hcfg : t.cfg = s.cfg) :
    t.Inv where
  cfg_legal := hcfg ▸ hs.cfg_legal
  n_buffers := by
    rw [hcfg, ← hs.n_buffers]
    rcases h.buffers with e | ⟨p, b, -, e, -⟩ <;> rw [e]
    exact List.length_set
  n_parsers := by
    rw [hcfg, ← hs.n_parsers]
    rcases h.parsers with e | ⟨c, sc, -, e, -⟩ <;> rw [e]
    exact List.length_set
  n_transports := by rw [hcfg, h.nTransports, hs.n_transports]
  len_le := fun x hx => by
    rw [hcfg]
    rcases h.buffers with e | ⟨p, b, -, e, hb⟩ <;> rw [e] at hx
    · exact hs.len_le x hx
    · rcases mem_buffers_setPb hx with rfl | hx
      · exact hb hs
      · exact hs.len_le x hx
  parsers_wf := fun x hx => by
    rw [hcfg]
    rcases h.parsers with e | ⟨c, sc, -, e, hsc⟩ <;> rw [e] at hx
    · exact hs.parsers_wf x hx
    · rcases mem_parsers_setParser hx with rfl | hx
      · exact hsc hs
      · exact hs.parsers_wf x hx
  job_wf := hcfg ▸ h.job hs

/-! ## The next move keeps the invariant -/

theorem takeCommand_state_inv {s : State} (hs : s.Inv) (c : HostCommand) (rest : List HostCommand) :
    (takeCommand s c rest).state.Inv := by
  unfold takeCommand
  split
  · exact hs
  · split
    · exact hs.taken ..
    · exact (hs.taken ..).respond _

theorem coreMove_state_inv {s : State} (hs : s.Inv) : (coreMove s).state.Inv := by
  unfold coreMove
  split
  · exact hs
  · exact hs
  · split
    · exact hs
    · exact takeCommand_state_inv hs ..

theorem fetch_state_inv {s : State} (hs : s.Inv) : (fetch s).state.Inv := by
  unfold fetch
  split
  · exact coreMove_state_inv hs
  · exact coreMove_state_inv (hs.setTurns _)
  · exact hs.setTurns _
  · exact (hs.setTurns _).resetCore

theorem exec_inv {i : Instr} {s t : State} (hs : s.Inv) (h : exec i s = .next t) : t.Inv := by
  by_cases hi : i = .sysReset
  · subst hi
    cases h
    exact hs.resetCore.respond _
  · exact hs.of_coreEffect (exec_coreEffect hi h) (exec_sameOutside h).cfg

/-! ## The statements -/

/-- Settles O14: the next move keeps the invariant, and so does the instruction it runs. -/
theorem stepKeepsInvariant : Obligations.StepKeepsInvariant := by
  intro s t hs h
  have hfetch := fetch_state_inv hs
  rcases step_cases h with ⟨i, u, hf, hx⟩ | hf <;> rw [hf] at hfetch
  · exact exec_inv hfetch hx
  · exact hfetch

/-- Settles O55, from the effect of every instruction but SYS.RESET on `LOCAL_ADDR`. -/
theorem localAddrWriters : Obligations.LocalAddrWriters := by
  intro i s t h hne
  exact or_iff_not_imp_right.mpr fun hi => (exec_coreEffect hi h).localAddr.resolve_left hne

/-- Settles O56: the one parser an instruction other than SYS.RESET can write is its own channel's. -/
theorem parserWriters : Obligations.ParserWriters := by
  intro i s t c h hne
  by_cases hi : i = .sysReset
  · exact .inr (.inr hi)
  rcases (exec_coreEffect hi h).parsers with e | ⟨ch, sc, hname, e, -⟩
  · exact absurd (State.parser_of_parsers_eq e c) hne
  · have hc : c = ch := by
      by_contra hc
      exact hne ((State.parser_of_parsers_eq e c).trans (State.parser_setParser_ne hc sc))
    subst hc
    exact hname.imp_right .inl

/-- Settles O57: the one packet buffer an instruction other than SYS.RESET can write is the one it names. -/
theorem packetBufferWriters : Obligations.PacketBufferWriters := by
  intro i s t q h hne
  refine or_iff_not_imp_right.mpr fun hi => ?_
  rcases (exec_coreEffect hi h).buffers with e | ⟨p, b, hname, e, -⟩
  · exact absurd (State.pb_of_buffers_eq e q) hne
  · have hq : q = p := by
      by_contra hq
      exact hne ((State.pb_of_buffers_eq e q).trans (State.pb_setPb_ne hq b))
    exact hq ▸ hname

/-- Settles O12: every buffer and parser after reset is a fresh one of the build's many. -/
theorem resetValues : Obligations.ResetValues := by
  refine ⟨rfl, fun c _ => ⟨fun p hp => ?_, List.length_replicate, fun _ hch => State.cursor_initial hch,
    List.length_replicate, rfl⟩⟩
  rw [State.pb_initial hp]
  exact ⟨rfl, rfl, rfl, rfl⟩

/-- Settles O13: the state after reset is one that reset gives, with the build's transports idle. -/
theorem resetMeetsInvariant : Obligations.ResetMeetsInvariant := by
  intro c hc
  exact inv_resetCore (s := State.initial c) hc List.length_replicate

end Sys2Proof.Machine
end

section
/-! SUPPORT. The statements of 20_memory.md about the transports: what each instruction can change of them, and a send whose answer
the environment does not list. -/

namespace Sys2Proof.Machine

/-! ## Reading the transports -/

theorem State.transport_of_transports_eq {s t : State} (h : t.transports = s.transports) (ch : ChIndex) :
    t.transport ch = s.transport ch := by
  rw [State.transport, h, ← State.transport]

/-- A write of a transport is read back on its own channel, or, where that channel has no transport, nowhere. -/
theorem State.transport_setTransport_cases (s : State) (ch c : ChIndex) (x : Transport) :
    (s.setTransport ch x).transport c = s.transport c ∨ c = ch ∧ (s.setTransport ch x).transport c = x := by
  by_cases hc : c = ch
  · subst hc
    by_cases hlen : c.toNat < s.transports.length
    · exact .inr ⟨rfl, transport_setTransport_self hlen x⟩
    · exact .inl (transport_of_transports_eq (List.set_eq_of_length_le (Nat.le_of_not_lt hlen)) c)
  · exact .inl (transport_setTransport_ne hc x)

/-! ## What an instruction can change of a channel's transport (20_memory.md rules R66, R68, R69, R71) -/

/-- The instruction is a send on channel `c`. -/
def SendsOn (i : Instr) (c : ChIndex) : Prop :=
  (∃ p dst, i = .send p c dst) ∨ ∃ p dst typ, i = .sendT p c dst typ

/-- Everything an instruction can do to the transport of channel `c`: nothing; as a send, one write request, which may use up an
answer; as a RECEIVE, take the byte at the head of the queue; as bytes that arrive, join its tail. -/
inductive TransportEffect (i : Instr) (c : ChIndex) (s t : State) : Prop where
  | keeps (h : t.transport c = s.transport c)
  | writes (answers : List WriteAnswer) (frame : List Byte) (hi : SendsOn i c)
    (h : t.transport c = { s.transport c with answers := answers, writes := (s.transport c).writes ++ [frame] })
  | takes (p : PbIndex) (b : Byte) (rest : List Byte) (hi : i = .receive p c) (hq : s.rxq c = b :: rest)
    (h : t.transport c = { s.transport c with rxq := rest })
  | arrives (bytes : List Byte) (hi : i = .frame c bytes)
    (h : t.transport c = { s.transport c with rxq := s.rxq c ++ bytes })

theorem transportEffect_of_transports_eq {i : Instr} {c : ChIndex} {s t : State} (h : t.transports = s.transports) :
    TransportEffect i c s t :=
  .keeps (State.transport_of_transports_eq h c)

/-- Where one transport is written, only the effect on its own channel is left to show. -/
theorem transportEffect_of_setTransport {i : Instr} {ch c : ChIndex} {x : Transport} {s t : State}
    (h : t.transports = (s.setTransport ch x).transports) (hx : t.transport ch = x → TransportEffect i ch s t) :
    TransportEffect i c s t := by
  have hread := State.transport_of_transports_eq h c
  rcases State.transport_setTransport_cases s ch c x with e | ⟨rfl, e⟩
  · exact .keeps (hread.trans e)
  · exact hx (hread.trans e)

theorem transportEffect_of_next {i : Instr} {c : ChIndex} {s t u : State} (h : (.next u : Out) = .next t)
    (hu : u.transports = s.transports) : TransportEffect i c s t := by
  cases h
  exact transportEffect_of_transports_eq hu

theorem ifBuffer_transportEffect {i : Instr} {p : PbIndex} {c : ChIndex} {s t u : State}
    (h : ifBuffer p s (.next u) = .next t) (hu : u.transports = s.transports) : TransportEffect i c s t := by
  rcases ifBuffer_cases h with ⟨-, h⟩ | ⟨-, rfl⟩
  · exact transportEffect_of_next h hu
  · exact transportEffect_of_transports_eq rfl

theorem ifChannel_transportEffect {i : Instr} {ch c : ChIndex} {s t u : State}
    (h : ifChannel ch s (.next u) = .next t) (hu : u.transports = s.transports) : TransportEffect i c s t := by
  rcases ifChannel_cases h with ⟨-, h⟩ | ⟨-, rfl⟩
  · exact transportEffect_of_next h hu
  · exact transportEffect_of_transports_eq rfl

theorem setPayload_transportEffect {i : Instr} {p : PbIndex} {c : ChIndex} {bytes : List Byte} {s t : State}
    (h : setPayload p bytes s = .next t) : TransportEffect i c s t := by
  rcases setPayload_cases h with ⟨-, rfl⟩ | ⟨-, -, rfl⟩ | ⟨-, -, rfl⟩ <;> exact transportEffect_of_transports_eq rfl

theorem addPayload_transportEffect {i : Instr} {p : PbIndex} {c : ChIndex} {bytes : List Byte} {s t : State}
    (h : addPayload p bytes s = .next t) : TransportEffect i c s t := by
  rcases addPayload_cases h with ⟨-, rfl⟩ | ⟨-, -, rfl⟩ | ⟨-, -, rfl⟩ <;> exact transportEffect_of_transports_eq rfl

/-- Whatever the answer, handing over a frame does to the transports what the write request does. -/
theorem sendWrite_transports (ch : ChIndex) (f : List Byte) (s : State) :
    (sendWrite ch f s).transports = (s.writeRequest ch f).transports := by
  rcases sendWrite_cases ch f s with ⟨w, -, e⟩ | ⟨-, e⟩
  · rw [e, State.respond_transports]
  · rw [e]

theorem sendPacket_transportEffect {i : Instr} {p : PbIndex} {ch c : ChIndex} {dst : Byte} {typ : Option Byte}
    {s t : State} (hi : SendsOn i ch) (h : sendPacket p ch dst typ s = .next t) : TransportEffect i c s t := by
  rcases sendPacket_cases h with ⟨-, rfl⟩ | ⟨-, -, ⟨-, rfl⟩ | ⟨-, rfl⟩⟩
  · exact transportEffect_of_transports_eq rfl
  · exact transportEffect_of_transports_eq rfl
  · exact transportEffect_of_setTransport (sendWrite_transports ..) fun e => .writes _ _ hi e

theorem execReceive_transportEffect {p : PbIndex} {ch c : ChIndex} {s t : State} (h : execReceive p ch s = .next t) :
    TransportEffect (.receive p ch) c s t := by
  rcases receive_cases h with ⟨-, rfl⟩ | ⟨-, -, ⟨-, rfl⟩ | ⟨b, rest, hq, hb⟩⟩
  · exact transportEffect_of_transports_eq rfl
  · exact transportEffect_of_transports_eq rfl
  · have hstep := rxStep_transports (s.setRxq ch rest) p ch b
    rcases hb with ⟨-, rfl⟩ | ⟨-, rfl⟩ <;> exact transportEffect_of_setTransport hstep fun e => .takes p b rest rfl hq e

theorem execFrame_transportEffect {ch c : ChIndex} {bytes : List Byte} {s t : State}
    (h : execFrame ch bytes s = .next t) : TransportEffect (.frame ch bytes) c s t := by
  obtain ⟨-, rfl⟩ := frame_cases h
  exact transportEffect_of_setTransport rfl fun e => .arrives bytes rfl e

theorem exec_transportEffect {i : Instr} {s t : State} (h : exec i s = .next t) (c : ChIndex) :
    TransportEffect i c s t := by
  cases i with
  | pbClear | pbLength | pbRaw | pbRdhdr | pbWrhdr => exact ifBuffer_transportEffect h rfl
  | pbGetUb | pbGetUh | pbGetUw | pbGetD => exact ifBuffer_transportEffect h rfl
  | pbGetSb | pbGetSh | pbGetSw | pbGetBytes => exact ifBuffer_transportEffect h rfl
  | pbSetB | pbSetH | pbSetW | pbSetD | pbSetBytes => exact setPayload_transportEffect h
  | pbAddB | pbAddH | pbAddW | pbAddD | pbAddBytes => exact addPayload_transportEffect h
  | send p _ dst => exact sendPacket_transportEffect (.inl ⟨p, dst, rfl⟩) h
  | sendT p _ dst typ => exact sendPacket_transportEffect (.inr ⟨p, dst, typ, rfl⟩) h
  | receive => exact execReceive_transportEffect h
  | rxReset => exact ifChannel_transportEffect h rfl
  | csum | cfgWraddr | cfgRdaddr | sysReset => exact transportEffect_of_next h rfl
  | frame => exact execFrame_transportEffect h

/-! ## A send that hands its frame over (42_send.md rules R193, R195 to R197) -/

/-- The encoder's frame is the frame of 30_encoding.md rule R90 for the packet. -/
theorem frameOf_eq_wireFrame (c : Config) (b : PacketBuffer) :
    frameOf c b = wireFrame c b.dst b.src b.typ b.payload := by
  have hlen : Config.hdrLen + b.len + Config.crcLen = b.payload.length + 4 := by
    simp only [PacketBuffer.len, Config.hdrLen, Config.crcLen]
    omega
  rw [frameOf, hlen]
  rfl

theorem State.Inv.pb_lt_buffers {s : State} (hs : s.Inv) {p : PbIndex} (h : p.toNat < s.cfg.nPb) :
    p.toNat < s.buffers.length :=
  hs.n_buffers ▸ h

theorem State.transport_writeRequest_self {s : State} {ch : ChIndex} (h : ch.toNat < s.transports.length) (f : List Byte) :
    (s.writeRequest ch f).transport ch =
      { s.transport ch with answers := (s.transport ch).answers.tail, writes := (s.transport ch).writes ++ [f] } :=
  transport_setTransport_self h _

/-- A packet buffer stamped, then its frame written: the effect of a send but for the end of the command. -/
theorem handsOver_writeRequest {s : State} {p : PbIndex} {ch : ChIndex} (hs : s.Inv) (hp : p.toNat < s.cfg.nPb)
    (hch : ch.toNat < s.cfg.nCh) (b : PacketBuffer) :
    HandsOver p ch b s ((s.setPb p b).writeRequest ch (frameOf s.cfg b)) := by
  have hown := State.transport_writeRequest_self (s := s.setPb p b) (hs.ch_lt_transports hch) (frameOf s.cfg b)
  refine ⟨⟨rfl, rfl, rfl, rfl⟩, ⟨List.length_set, fun q hq => State.pb_setPb_ne hq b⟩,
    State.pb_setPb_self (hs.pb_lt_buffers hp) b, rfl, rfl, rfl, List.length_set,
    fun c hc => State.transport_setTransport_ne hc _, ?_, ?_⟩
  · rw [State.rxq, hown, State.transport_setPb, State.rxq]
  · rw [hown, frameOf_eq_wireFrame, State.transport_setPb]

/-- The end of the command is no part of handing over. -/
theorem HandsOver.respond {p : PbIndex} {ch : ChIndex} {b : PacketBuffer} {s t : State} (h : HandsOver p ch b s t)
    (r : Response) : HandsOver p ch b s (t.respond r) := by
  obtain ⟨⟨hcfg, hcommands, hspan, hturns⟩, ⟨hcount, hothers⟩, hrest⟩ := h
  exact ⟨⟨hcfg, hcommands, hspan, hturns⟩, ⟨hcount, hothers⟩, hrest⟩

theorem sendWrite_of_answer {ch : ChIndex} {s : State} {w : WriteCount}
    (h : writeAnswer (s.transport ch) s.draws = some w) (f : List Byte) :
    sendWrite ch f s =
      (s.writeRequest ch f).respond { status := if w.toNat = f.length then .ok else .partialWrite } := by
  simp only [sendWrite, h]

theorem sendPacket_of_fits {p : PbIndex} {ch : ChIndex} {s : State} (hp : p.toNat < s.cfg.nPb)
    (hch : ch.toNat < s.cfg.nCh) (hfit : (s.pb p).payload.length ≤ s.cfg.maxDataLen) (dst : Byte) (typ : Option Byte) :
    sendPacket p ch dst typ s =
      .next (sendWrite ch (frameOf s.cfg (stamp (s.pb p) s.localAddr dst typ))
        (s.setPb p (stamp (s.pb p) s.localAddr dst typ))) := by
  rw [sendPacket, ifBuffer_of_lt hp, ifChannel_of_lt hch]
  exact congrArg _ (if_neg (Nat.not_lt.mpr hfit))

/-- A send whose transport answers the count `w`, listed or drawn. -/
theorem sendPacket_sentOutcome {s : State} {p : PbIndex} {ch : ChIndex} {w : WriteCount} (hs : s.Inv)
    (hp : p.toNat < s.cfg.nPb) (hch : ch.toNat < s.cfg.nCh) (hw : writeAnswer (s.transport ch) s.draws = some w)
    (dst : Byte) (typ : Option Byte) :
    ∃ t, sendPacket p ch dst typ s = .next t ∧ SentOutcome p ch (stamp (s.pb p) s.localAddr dst typ) w s t ∧
      (t.transport ch).answers = (s.transport ch).answers.tail ∧
      t.draws = s.draws + (if (s.transport ch).answers.isEmpty then 1 else 0) := by
  set b := stamp (s.pb p) s.localAddr dst typ with hb
  have hanswer : writeAnswer ((s.setPb p b).transport ch) (s.setPb p b).draws = some w := hw
  have hsend := sendPacket_of_fits hp hch (hs.len_pb_le p) dst typ
  rw [← hb, sendWrite_of_answer hanswer, length_frameOf] at hsend
  refine ⟨_, hsend, ⟨(handsOver_writeRequest hs hp hch b).respond _, fun h => ⟨?_, rfl⟩, fun h => ⟨?_, rfl⟩⟩,
    congrArg Transport.answers (State.transport_writeRequest_self (s := s.setPb p b) (hs.ch_lt_transports hch) _), rfl⟩
  · rw [if_pos h]
    rfl
  · rw [if_neg h]
    rfl

/-- Settles O36: with no answer listed the transport's count is the free one, and drawing it is counted. -/
theorem sendWithUnlistedAnswer : Obligations.SendWithUnlistedAnswer := by
  intro s p ch dst typ hs hp hch hans
  have hw : writeAnswer (s.transport ch) s.draws = some (Config.freeCount s.draws) := by rw [writeAnswer, hans]
  have hsent := sendPacket_sentOutcome hs hp hch hw dst
  rw [hans] at hsent
  exact ⟨hsent none, hsent (some typ)⟩

/-- Settles O58, from what an instruction can do to the transport of one channel. -/
theorem transportUsers : Obligations.TransportUsers := by
  intro i s t c h
  cases exec_transportEffect h c with
  | keeps h => exact ⟨fun hne => absurd (congrArg _ h) hne, fun hne => absurd (congrArg _ h) hne⟩
  | writes answers frame hi h =>
    exact ⟨fun _ => ⟨hi, frame, congrArg _ h⟩, fun hne => absurd (congrArg Transport.rxq h) hne⟩
  | takes p b rest hi hq h =>
    have hrest : t.rxq c = rest := congrArg Transport.rxq h
    exact ⟨fun hne => absurd (congrArg Transport.writes h) hne, fun _ => .inl ⟨p, b, hi, hrest ▸ hq⟩⟩
  | arrives bytes hi h =>
    exact ⟨fun hne => absurd (congrArg Transport.writes h) hne, fun _ => .inr ⟨bytes, hi, congrArg Transport.rxq h⟩⟩

end Sys2Proof.Machine
end

section
/-! SUPPORT. The statements of 30_encoding.md about the command word: when a word lies in a row of the opcode map, what it then
decodes to, and that `decode` and `encode` undo each other. -/

namespace Sys2Proof

open Machine Laws.EncodesItsRow

/-! ## Words and rows (30_encoding.md rules R100, R101, R103) -/

theorem mkWord_inj {o o' : BitVec 8} {p p' c c' : BitVec 4} {a a' b b' : Byte} :
    mkWord o p c a b = mkWord o' p' c' a' b' ↔ o = o' ∧ p = p' ∧ c = c' ∧ a = a' ∧ b = b' := by
  constructor
  · intro h
    exact ⟨by simpa using congrArg opField h, by simpa using congrArg pbField h, by simpa using congrArg chField h,
      by simpa using congrArg aField h, by simpa using congrArg bField h⟩
  · rintro ⟨rfl, rfl, rfl, rfl, rfl⟩
    rfl

theorem opOf_eq_some_iff {c : BitVec 8} {o : Op} : opOf c = some o ↔ c = o.code :=
  ⟨fun h => (code_of_opOf h).symm, fun h => h ▸ opOf_code o⟩

theorem unusedFieldsZero_iff {o : Op} {w : CmdWord} :
    unusedFieldsZero o w = true ↔ (o.usesPb = true ∨ pbField w = 0) ∧ (o.usesCh = true ∨ chField w = 0) ∧
      (o.usesA = true ∨ aField w = 0) ∧ bField w &&& o.bUnused = 0 := by
  simp only [unusedFieldsZero, Bool.and_eq_true, Bool.or_eq_true, beq_iff_eq, and_assoc]

/-- A field's part of a row's mask asks for zero exactly when the row does not use the field. -/
theorem and_fieldMask_eq_zero_iff {n : Nat} (x : BitVec n) (used : Bool) :
    x &&& (if used then 0 else BitVec.allOnes n) = 0 ↔ used = true ∨ x = 0 := by
  cases used <;> simp

/-- A word lies in a row by `w AND mask = match` exactly when it has the row's code and no unused field is set. -/
theorem and_mask_eq_mtch_iff {w : CmdWord} {o : Op} :
    w &&& (tableRow o).mask = (tableRow o).mtch ↔ opOf (opField w) = some o ∧ unusedFieldsZero o w = true := by
  have hcode : opField w &&& 0xFF#8 = opField w := BitVec.and_allOnes
  rw [(row_fields o).1, (row_fields o).2]
  nth_rw 1 [← mkWord_fields w]
  rw [mkWord_and, mkWord_inj, hcode, opOf_eq_some_iff, unusedFieldsZero_iff, and_congr_right_iff]
  intro _
  exact and_congr (and_fieldMask_eq_zero_iff ..) (and_congr (and_fieldMask_eq_zero_iff ..)
    (and_congr (and_fieldMask_eq_zero_iff ..) Iff.rfl))

theorem spanNeed_of_opOf {w : CmdWord} {o : Op} (h : opOf (opField w) = some o) :
    spanNeed w = if o.takesSpan then (aField w).toNat else 0 := by
  simp only [spanNeed, h]

/-- The decoder, in one line: a row that the word lies in, a span of the length asked for, and the row's operands. -/
theorem decode_command_eq_ok_iff {w : CmdWord} {d : Scalar} {span : List Byte} {i : Instr} :
    decode (.command w d span) = .ok i ↔ ∃ o, w &&& (tableRow o).mask = (tableRow o).mtch ∧
      span.length = spanNeed w ∧ buildInstr o w d span = .ok i := by
  simp only [and_mask_eq_mtch_iff, decode, decodeCommand]
  cases opOf (opField w) with
  | none => simp
  | some o =>
    simp only [Option.some.injEq]
    split
    · split <;> simp_all
    · simp_all

/-! ## The header selector (30_encoding.md rule R102) -/

theorem hdrFieldOf_isSome_iff (b : Byte) : (∃ f, hdrFieldOf b = some f) ↔ b.extractLsb' 0 2 ≠ 3#2 := by
  rw [← Option.isSome_iff_exists, hdrFieldOf]
  generalize b.extractLsb' 0 2 = x
  revert x
  decide

theorem code_of_hdrFieldOf {b : Byte} {f : HdrField} (h : hdrFieldOf b = some f) : b &&& ~~~0xFC#8 = f.code := by
  revert b
  cases f <;> decide

theorem bField_extractLsb'_selector (w : CmdWord) : (bField w).extractLsb' 0 2 = w.extractLsb' 0 2 := by
  apply BitVec.eq_of_getLsbD_eq
  intro i hi
  simp only [bField]
  interval_cases i <;> simp

/-- Only the reserved selector keeps a row's operands from making an instruction. -/
theorem buildInstr_isOk_iff (o : Op) (w : CmdWord) (d : Scalar) (span : List Byte) :
    (∃ i, buildInstr o w d span = .ok i) ↔ (o = .pbRdhdr ∨ o = .pbWrhdr → w.extractLsb' 0 2 ≠ 3#2) := by
  rw [← bField_extractLsb'_selector, ← hdrFieldOf_isSome_iff]
  cases o with
  | pbRdhdr | pbWrhdr => cases h : hdrFieldOf (bField w) <;> simp [buildInstr, h]
  | _ => simp [buildInstr]

/-! ## Decoding what was encoded -/

/-- A word put together for a row, with no field that the row leaves unused and with the span it asks for, decodes to the row's
instruction. -/
theorem decode_mkWord {o : Op} {p : PbIndex} {c : ChIndex} {a b : Byte} {d : Scalar} {span : List Byte} {i : Instr}
    (hp : o.usesPb = true ∨ p = 0) (hc : o.usesCh = true ∨ c = 0) (ha : o.usesA = true ∨ a = 0)
    (hb : b &&& o.bUnused = 0) (hs : span.length = if o.takesSpan then a.toNat else 0)
    (hi : buildInstr o (mkWord o.code p c a b) d span = .ok i) :
    decode (.command (mkWord o.code p c a b) d span) = .ok i := by
  obtain ⟨_, _, _, h, hw⟩ := inRow_mkWord o p c a b d span hp hc ha hb
  cases h
  exact decode_command_eq_ok_iff.mpr ⟨o, hw, (spanNeed_mkWord o p c a b).symm ▸ hs, hi⟩

theorem Instr.length_le_of_spanFits {i : Instr} {s : List Byte} (hs : i.inSpan = some s) (h : i.spanFits = true) :
    s.length ≤ 255 := by
  simpa [Instr.spanFits, hs] using h

theorem length_eq_toNat_ofNat {s : List Byte} (h : s.length ≤ 255) : s.length = (BitVec.ofNat 8 s.length).toNat := by
  rw [BitVec.toNat_ofNat]
  omega

theorem HdrField.code_and_unused (f : HdrField) : f.code &&& 0xFC#8 = 0 := by
  cases f <;> rfl

theorem decodeWire_eq_ok_iff {ch : ChIndex} {bytes : List Byte} {i : Instr} :
    decodeWire ch bytes = .ok i ↔ bytes.head? = some Config.syn ∧ i = .frame ch bytes := by
  cases bytes with
  | nil => simp [decodeWire]
  | cons b r =>
    simp only [decodeWire, List.head?_cons, Option.some.injEq]
    split <;> simp [*, eq_comm]

theorem head?_of_frameWellFormed {c : Config} {bytes : List Byte} (h : frameWellFormed c bytes = true) :
    bytes.head? = some Config.syn := by
  simp only [frameWellFormed, Bool.and_eq_true, beq_iff_eq] at h
  obtain ⟨⟨⟨hsyn, -⟩, -⟩, -⟩ := h
  exact hsyn

/-- Settles O2: every encoding lies in its row, and the row's fields give the operands back. -/
theorem decodeEncodeRoundTrip : Obligations.DecodeEncodeRoundTrip := by
  intro c i hi
  simp only [Instr.wellFormed, Bool.and_eq_true] at hi
  obtain ⟨⟨-, hfits⟩, hwire⟩ := hi
  cases i with
  | pbClear | pbLength | pbRaw | pbGetUb | pbGetUh | pbGetUw | pbGetD | pbGetSb | pbGetSh | pbGetSw =>
    exact decode_mkWord (.inl rfl) (.inr rfl) (.inr rfl) rfl rfl (by simp [buildInstr])
  | pbSetB | pbSetH | pbSetW | pbSetD | pbAddB | pbAddH | pbAddW | pbAddD =>
    exact decode_mkWord (.inl rfl) (.inr rfl) (.inr rfl) rfl rfl (by simp [buildInstr])
  | pbRdhdr _ f => exact decode_mkWord (.inl rfl) (.inr rfl) (.inr rfl) f.code_and_unused rfl (by simp [buildInstr])
  | pbWrhdr _ f => exact decode_mkWord (.inl rfl) (.inr rfl) (.inl rfl) f.code_and_unused rfl (by simp [buildInstr])
  | pbGetBytes => exact decode_mkWord (.inl rfl) (.inr rfl) (.inl rfl) rfl rfl (by simp [buildInstr])
  | pbSetBytes | pbAddBytes =>
    have hs := length_eq_toNat_ofNat (Instr.length_le_of_spanFits rfl hfits)
    exact decode_mkWord (.inl rfl) (.inr rfl) (.inl rfl) rfl hs (by simp [buildInstr])
  | csum =>
    have hs := length_eq_toNat_ofNat (Instr.length_le_of_spanFits rfl hfits)
    exact decode_mkWord (.inr rfl) (.inr rfl) (.inl rfl) rfl hs (by simp [buildInstr])
  | send => exact decode_mkWord (.inl rfl) (.inl rfl) (.inl rfl) rfl rfl (by simp [buildInstr])
  | sendT => exact decode_mkWord (.inl rfl) (.inl rfl) (.inl rfl) BitVec.and_zero rfl (by simp [buildInstr])
  | receive => exact decode_mkWord (.inl rfl) (.inl rfl) (.inr rfl) rfl rfl (by simp [buildInstr])
  | rxReset => exact decode_mkWord (.inr rfl) (.inl rfl) (.inr rfl) rfl rfl (by simp [buildInstr])
  | cfgWraddr => exact decode_mkWord (.inr rfl) (.inr rfl) (.inl rfl) rfl rfl (by simp [buildInstr])
  | cfgRdaddr | sysReset => exact decode_mkWord (.inr rfl) (.inr rfl) (.inr rfl) rfl rfl (by simp [buildInstr])
  | frame =>
    exact decodeWire_eq_ok_iff.mpr ⟨head?_of_frameWellFormed hwire, rfl⟩

/-! ## Encoding what was decoded -/

theorem eq_ite_of_used {n : Nat} {used : Bool} {x : BitVec n} (h : used = true ∨ x = 0) : (if used then x else 0) = x := by
  cases used <;> simp_all

/-- A word in a row is put together from the fields that the row uses. -/
theorem mkWord_used_fields {o : Op} {w : CmdWord} (h : w &&& (tableRow o).mask = (tableRow o).mtch) :
    mkWord o.code (if o.usesPb then pbField w else 0) (if o.usesCh then chField w else 0)
      (if o.usesA then aField w else 0) (bField w &&& ~~~o.bUnused) = w := by
  obtain ⟨ho, hz⟩ := and_mask_eq_mtch_iff.mp h
  obtain ⟨hp, hc, ha, hb⟩ := unusedFieldsZero_iff.mp hz
  have hused : bField w &&& ~~~o.bUnused = bField w := by
    calc bField w &&& ~~~o.bUnused
        = (bField w &&& o.bUnused) ||| (bField w &&& ~~~o.bUnused) := by rw [hb]; exact BitVec.zero_or.symm
      _ = bField w := by rw [← BitVec.and_or_distrib_left, BitVec.or_not_self, BitVec.and_allOnes]
  rw [eq_ite_of_used hp, eq_ite_of_used hc, eq_ite_of_used ha, hused, ← opOf_eq_some_iff.mp ho, mkWord_fields]

/-- A transaction in a row is put together from the operands that the row uses. -/
theorem command_of_row {o : Op} {w : CmdWord} {span : List Byte} {b : Byte}
    (hrow : w &&& (tableRow o).mask = (tableRow o).mtch) (hs : span.length = spanNeed w)
    (hb : bField w &&& ~~~o.bUnused = b) (d : Scalar) :
    Transaction.command (mkWord o.code (if o.usesPb then pbField w else 0) (if o.usesCh then chField w else 0)
      (if o.usesA then aField w else 0) b) d (if o.takesSpan then span else []) = .command w d span := by
  have hspan : (if o.takesSpan then span else []) = span := by
    rw [spanNeed_of_opOf (and_mask_eq_mtch_iff.mp hrow).1] at hs
    split at hs
    · rw [if_pos ‹_›]
    · rw [List.eq_nil_of_length_eq_zero hs, ite_self]
  rw [hspan, ← hb, mkWord_used_fields hrow]

theorem ofNat_length_span {o : Op} {w : CmdWord} {span : List Byte} (hrow : w &&& (tableRow o).mask = (tableRow o).mtch)
    (hs : span.length = spanNeed w) (ho : o.takesSpan = true) : BitVec.ofNat 8 span.length = aField w := by
  rw [hs, spanNeed_of_opOf (and_mask_eq_mtch_iff.mp hrow).1, if_pos ho, BitVec.ofNat_toNat, BitVec.setWidth_eq]

theorem buildInstr_pbRdhdr_eq_ok {w : CmdWord} {d : Scalar} {span : List Byte} {i : Instr}
    (h : buildInstr .pbRdhdr w d span = .ok i) : ∃ f, hdrFieldOf (bField w) = some f ∧ i = .pbRdhdr (pbField w) f := by
  cases hf : hdrFieldOf (bField w) <;> simp_all [buildInstr]

theorem buildInstr_pbWrhdr_eq_ok {w : CmdWord} {d : Scalar} {span : List Byte} {i : Instr}
    (h : buildInstr .pbWrhdr w d span = .ok i) :
    ∃ f, hdrFieldOf (bField w) = some f ∧ i = .pbWrhdr (pbField w) f (aField w) := by
  cases hf : hdrFieldOf (bField w) <;> simp_all [buildInstr]

/-- Encoding the instruction that a row's operands make gives the transaction back, but for a scalar operand that the row does not
take. -/
theorem encode_of_buildInstr {o : Op} {w : CmdWord} {d : Scalar} {span : List Byte} {i : Instr}
    (hrow : w &&& (tableRow o).mask = (tableRow o).mtch) (hs : span.length = spanNeed w)
    (hi : buildInstr o w d span = .ok i) : ∃ d', encode i = .command w d' span ∧ (d' = d ∨ d' = 0) := by
  cases o with
  | pbRdhdr =>
    obtain ⟨f, hf, rfl⟩ := buildInstr_pbRdhdr_eq_ok hi
    exact ⟨0, command_of_row hrow hs (code_of_hdrFieldOf hf) 0, .inr rfl⟩
  | pbWrhdr =>
    obtain ⟨f, hf, rfl⟩ := buildInstr_pbWrhdr_eq_ok hi
    exact ⟨0, command_of_row hrow hs (code_of_hdrFieldOf hf) 0, .inr rfl⟩
  | pbSetB | pbSetH | pbSetW | pbSetD | pbAddB | pbAddH | pbAddW | pbAddD =>
    cases hi
    exact ⟨d, command_of_row hrow hs BitVec.and_zero d, .inl rfl⟩
  | pbSetBytes | pbAddBytes | csum =>
    cases hi
    rw [encode, withSpan, ofNat_length_span hrow hs rfl]
    exact ⟨0, command_of_row hrow hs BitVec.and_zero 0, .inr rfl⟩
  | sendT =>
    cases hi
    exact ⟨0, command_of_row hrow hs BitVec.and_allOnes 0, .inr rfl⟩
  | _ =>
    cases hi
    exact ⟨0, command_of_row hrow hs BitVec.and_zero 0, .inr rfl⟩

/-- Settles O3: the word is put together from the fields its row uses, which are the operands of the instruction. -/
theorem encodeDecodeRoundTrip : Obligations.EncodeDecodeRoundTrip := by
  refine ⟨fun w d span i h => ?_, fun ch bytes i h => ?_⟩
  · obtain ⟨o, hrow, hs, hi⟩ := decode_command_eq_ok_iff.mp h
    exact encode_of_buildInstr hrow hs hi
  · obtain ⟨-, rfl⟩ := decodeWire_eq_ok_iff.mp h
    rfl

/-- Settles O4: the word lies in a row, and only the reserved selector keeps the row from making an instruction. -/
theorem decodableExactlyWhenInTable : Obligations.DecodableExactlyWhenInTable := by
  intro w d span hs
  simp only [decode_command_eq_ok_iff, hs, true_and]
  rw [exists_comm]
  simp only [exists_and_left, buildInstr_isOk_iff]

/-! ## Written-out words and codes -/

/-- Settles O1: each transaction is a literal, which the decoder evaluates. -/
theorem specWordsDecode : Obligations.SpecWordsDecode :=
  ⟨rfl, rfl, rfl, rfl, rfl, rfl, rfl, rfl, rfl, rfl, rfl, rfl, rfl, rfl, rfl, rfl, rfl, rfl, rfl, rfl, rfl, rfl⟩

theorem Machine.Response.isOk_iff (r : Response) : r.isOk = true ↔ r.status = .ok := by
  rw [Response.isOk]
  cases r.status <;> decide

/-- Settles O5: the codes by definition, the single signal by the status. -/
theorem statusAndEventCodes : Obligations.StatusAndEventCodes :=
  ⟨rfl, rfl, rfl, rfl, rfl, rfl, rfl, rfl, rfl, rfl, Response.isOk_iff⟩

end Sys2Proof
end

section
/-! SUPPORT. The statements of 30_encoding.md about commands: an illegal word, a placed word, an index the build lacks, and the
responses that each command can give. -/

namespace Sys2Proof.Machine

/-! ## The step on a word (30_encoding.md rules R103, R111, R114) -/

theorem takeCommand_of_decode_error {s : State} {c : HostCommand} {rest : List HostCommand} {e : DecodeError}
    (hn : spanNeed c.word ≤ s.spanIn.length) (hd : decode (.command c.word c.wdata (s.spanOf c.word)) = .error e) :
    takeCommand s c rest = .settle (s.taken c.word rest).illegal := by
  simp only [takeCommand, if_neg (Nat.not_lt.mpr hn), hd]

/-- Settles O8: the core's turn, no command in progress and a whole span lead to the illegal word's response. -/
theorem stepAnswersIllegalWord : Obligations.StepAnswersIllegalWord := by
  intro s c rest e hj hc ht hn hd
  have hstep : step s = .next (State.taken { s with turns := s.turns.tail } c.word rest).illegal := by
    apply step_of_settle
    calc fetch s
        = coreMove { s with turns := s.turns.tail } := fetch_of_core_turn ht
      _ = takeCommand { s with turns := s.turns.tail } c rest := coreMove_of_command hj hc
      _ = .settle _ := takeCommand_of_decode_error hn hd
  rw [hstep, State.illegal_eq, State.respond, State.taken, hj]

theorem withFetchWord_command (s : State) (w : CmdWord) : s.withFetchWord 32 w.toNat = s.placeCommand w := by
  rw [State.withFetchWord, if_pos rfl, BitVec.ofNat_toNat, BitVec.setWidth_eq]

/-- Settles O6: a placed word is the next command, with its whole span on the port. -/
theorem placedWordRuns : Obligations.PlacedWordRuns := by
  intro s w i hd
  have hlen : (List.replicate (spanNeed w) (0 : Byte)).length = spanNeed w := List.length_replicate
  have hneed : spanNeed w ≤ (s.placeCommand w).spanIn.length := by simp [State.placeCommand]
  have htake : (s.placeCommand w).spanIn.take (spanNeed w) = List.replicate (spanNeed w) 0 := List.take_left' hlen
  have hdrop : (s.placeCommand w).spanIn.drop (spanNeed w) = s.spanIn := List.drop_left' hlen
  have hstep := stepRunsDecodedInstruction (s.placeCommand w) ⟨w, 0⟩ s.commands i rfl rfl (.inr ⟨_, rfl⟩) hneed
    (htake.symm ▸ hd)
  rw [withFetchWord_command, hstep, hdrop]
  rfl

/-! ## An index the build lacks (30_encoding.md rule R103; log 18) -/

theorem indicesLegal_eq_true_iff {c : Config} {i : Instr} :
    i.indicesLegal c = true ↔ (∀ p, i.pbIndex = some p → p.toNat < c.nPb) ∧ ∀ ch, i.chIndex = some ch → ch.toNat < c.nCh := by
  unfold Instr.indicesLegal
  cases i.pbIndex <;> cases i.chIndex <;> simp

theorem indicesLegal_eq_false_iff {c : Config} {i : Instr} :
    i.indicesLegal c = false ↔
      (∃ p, i.pbIndex = some p ∧ ¬ p.toNat < c.nPb) ∨ ∃ ch, i.chIndex = some ch ∧ ¬ ch.toNat < c.nCh := by
  unfold Instr.indicesLegal
  cases i.pbIndex <;> cases i.chIndex <;> simp [imp_iff_not_or]

/-- The two checks of a command that names a packet buffer and a channel. -/
theorem ifBuffer_ifChannel_of_illegal {p : PbIndex} {ch : ChIndex} {s : State} {k : Out}
    (h : ¬ p.toNat < s.cfg.nPb ∨ ¬ ch.toNat < s.cfg.nCh) : ifBuffer p s (ifChannel ch s k) = .next s.illegal := by
  by_cases hp : p.toNat < s.cfg.nPb
  · rw [ifBuffer_of_lt hp, ifChannel_of_not_lt (h.resolve_left (not_not_intro hp))]
  · exact ifBuffer_of_not_lt hp

theorem exec_of_illegal_index {i : Instr} {s : State} (hi : i.isCommand = true) (h : i.indicesLegal s.cfg = false) :
    exec i s = .next s.illegal := by
  rw [indicesLegal_eq_false_iff] at h
  cases i with
  | send | sendT | receive =>
    exact ifBuffer_ifChannel_of_illegal (by simpa [Instr.pbIndex, Instr.chIndex] using h)
  | rxReset => exact ifChannel_of_not_lt (by simpa [Instr.pbIndex, Instr.chIndex] using h)
  | csum | cfgWraddr | cfgRdaddr | sysReset => simp [Instr.pbIndex, Instr.chIndex] at h
  | frame => cases hi
  | _ => exact ifBuffer_of_not_lt (by simpa [Instr.pbIndex, Instr.chIndex] using h)

/-- Settles O9: the command's own index check answers for it. -/
theorem illegalIndexAnswersIllegalCommand : Obligations.IllegalIndexAnswersIllegalCommand :=
  fun _ _ hi h => exec_of_illegal_index hi h

/-! ## The responses of a command (30_encoding.md rule R106) -/

/-- The sends. -/
def IsSend (i : Instr) : Prop := ∃ p ch dst typ, i = .send p ch dst ∨ i = .sendT p ch dst typ

/-- The commands that check a payload against the capacity: sets, adds and sends. -/
def ChecksCapacity (i : Instr) : Prop :=
  (∃ p v, i = .pbSetB p v ∨ i = .pbSetH p v ∨ i = .pbSetW p v ∨ i = .pbSetD p v ∨
    i = .pbAddB p v ∨ i = .pbAddH p v ∨ i = .pbAddW p v ∨ i = .pbAddD p v) ∨
  (∃ p sp, i = .pbSetBytes p sp ∨ i = .pbAddBytes p sp) ∨ IsSend i

/-- `r` is a response that R106 lets the command `i` give on the build of `s`. -/
def MayRespond (i : Instr) (s : State) (r : Response) : Prop :=
  (r.status = .payloadTooLarge → ChecksCapacity i) ∧ (r.status = .partialWrite → IsSend i) ∧
    (r.status = .illegalCommand ↔ i.indicesLegal s.cfg = false) ∧ (r.flag = true → ∃ p ch, i = .receive p ch)

/-- The command has ended with a response of R106, or is still in progress. -/
def CommandResult (i : Instr) (s t : State) : Prop :=
  (∃ r, Answers r s t ∧ MayRespond i s r) ∨
    (t.responses = s.responses ∧
      ((∃ p ch, i = .receive p ch ∧ t.job = some (.receive p ch)) ∨
        ∃ p ch dst typ, (i = .send p ch dst ∨ i = .sendT p ch dst typ) ∧ t.job = some .awaitWrite))

section
variable {i : Instr} {s t u : State}

theorem mayRespond_illegal (hl : i.indicesLegal s.cfg = false) : MayRespond i s { status := .illegalCommand } :=
  ⟨nofun, nofun, iff_of_true rfl hl, nofun⟩

/-- Where the indices exist, every status but `IllegalCommand` is open to the commands R106 gives it to. -/
theorem mayRespond_of_legal {e : Status} {flag : Bool} {rdata : Scalar} {rspan : List Byte} (hl : i.indicesLegal s.cfg = true)
    (hlarge : e = .payloadTooLarge → ChecksCapacity i) (hpartial : e = .partialWrite → IsSend i) (hillegal : e ≠ .illegalCommand)
    (hflag : flag = true → ∃ p ch, i = .receive p ch) : MayRespond i s ⟨e, flag, rdata, rspan⟩ :=
  ⟨hlarge, hpartial, iff_of_false hillegal (by simp [hl]), hflag⟩

theorem commandResult_respond {r : Response} (hu : u.responses = s.responses) (hr : MayRespond i s r) :
    CommandResult i s (u.respond r) :=
  .inl ⟨r, ⟨by rw [State.respond_responses, hu], rfl⟩, hr⟩

/-- A command that only ever answers `OK`. -/
theorem commandResult_of_ok {rdata : Scalar} {rspan : List Byte} (hl : i.indicesLegal s.cfg = true)
    (h : (.next (u.respond ⟨.ok, false, rdata, rspan⟩) : Out) = .next t) (hu : u.responses = s.responses) :
    CommandResult i s t := by
  cases h
  exact commandResult_respond hu (mayRespond_of_legal hl nofun nofun nofun nofun)

theorem commandResult_tooLarge (hl : i.indicesLegal s.cfg = true) (hi : ChecksCapacity i) (hu : u.responses = s.responses) :
    CommandResult i s (u.raise .payloadTooLarge) :=
  commandResult_respond hu (mayRespond_of_legal hl (fun _ => hi) nofun nofun nofun)

theorem setPayload_commandResult {p : PbIndex} {bytes : List Byte} (hl : i.indicesLegal s.cfg = true)
    (hp : p.toNat < s.cfg.nPb) (hi : ChecksCapacity i) (h : setPayload p bytes s = .next t) : CommandResult i s t := by
  rcases setPayload_cases h with ⟨hp', -⟩ | ⟨-, -, rfl⟩ | ⟨-, -, rfl⟩
  · exact absurd hp hp'
  · exact commandResult_tooLarge hl hi rfl
  · exact commandResult_of_ok hl rfl rfl

theorem addPayload_commandResult {p : PbIndex} {bytes : List Byte} (hl : i.indicesLegal s.cfg = true)
    (hp : p.toNat < s.cfg.nPb) (hi : ChecksCapacity i) (h : addPayload p bytes s = .next t) : CommandResult i s t := by
  rcases addPayload_cases h with ⟨hp', -⟩ | ⟨-, -, rfl⟩ | ⟨-, -, rfl⟩
  · exact absurd hp hp'
  · exact commandResult_tooLarge hl hi rfl
  · exact commandResult_of_ok hl rfl rfl

theorem sendWrite_commandResult {ch : ChIndex} {f : List Byte} (hl : i.indicesLegal s.cfg = true)
    (hi : IsSend i) (hu : u.responses = s.responses) : CommandResult i s (sendWrite ch f u) := by
  rcases sendWrite_cases ch f u with ⟨w, -, e⟩ | ⟨-, e⟩ <;> rw [e]
  · split
    · exact commandResult_respond hu (mayRespond_of_legal hl nofun nofun nofun nofun)
    · exact commandResult_respond hu (mayRespond_of_legal hl nofun (fun _ => hi) nofun nofun)
  · obtain ⟨p, c, dst, typ, hi⟩ := hi
    exact .inr ⟨hu, .inr ⟨p, c, dst, typ, hi, rfl⟩⟩

theorem sendPacket_commandResult {p : PbIndex} {ch : ChIndex} {dst : Byte} {typ : Option Byte}
    (hl : i.indicesLegal s.cfg = true) (hp : p.toNat < s.cfg.nPb) (hch : ch.toNat < s.cfg.nCh) (hi : IsSend i)
    (h : sendPacket p ch dst typ s = .next t) : CommandResult i s t := by
  rcases sendPacket_cases h with ⟨hp' | hch', -⟩ | ⟨-, -, ⟨-, rfl⟩ | ⟨-, rfl⟩⟩
  · exact absurd hp hp'
  · exact absurd hch hch'
  · exact commandResult_tooLarge hl (.inr (.inr hi)) rfl
  · exact sendWrite_commandResult hl hi rfl

theorem execReceive_commandResult {p : PbIndex} {ch : ChIndex} (hl : (Instr.receive p ch).indicesLegal s.cfg = true)
    (hp : p.toNat < s.cfg.nPb) (hch : ch.toNat < s.cfg.nCh) (h : execReceive p ch s = .next t) :
    CommandResult (.receive p ch) s t := by
  have hok (ready : Bool) : MayRespond (.receive p ch) s (receiveResponse ready) :=
    mayRespond_of_legal hl nofun nofun nofun fun _ => ⟨p, ch, rfl⟩
  rcases receive_cases h with ⟨hp' | hch', -⟩ | ⟨-, -, ⟨-, rfl⟩ | ⟨b, rest, -, ⟨-, rfl⟩ | ⟨-, rfl⟩⟩⟩
  · exact absurd hp hp'
  · exact absurd hch hch'
  · exact commandResult_respond rfl (hok false)
  · exact commandResult_respond (rxStep_responses ..) (hok true)
  · exact .inr ⟨rxStep_responses .., .inl ⟨p, ch, rfl, rfl⟩⟩

theorem exec_commandResult (hi : i.isCommand = true) (h : exec i s = .next t) : CommandResult i s t := by
  cases hl : i.indicesLegal s.cfg with
  | false =>
    cases (exec_of_illegal_index hi hl).symm.trans h
    exact commandResult_respond rfl (mayRespond_illegal hl)
  | true =>
    obtain ⟨hp, hch⟩ := indicesLegal_eq_true_iff.mp hl
    cases i with
    | pbClear | pbLength | pbRaw | pbRdhdr | pbWrhdr =>
      exact commandResult_of_ok hl ((ifBuffer_of_lt (hp _ rfl)).symm.trans h) rfl
    | pbGetUb | pbGetUh | pbGetUw | pbGetD | pbGetSb | pbGetSh | pbGetSw | pbGetBytes =>
      exact commandResult_of_ok hl ((ifBuffer_of_lt (hp _ rfl)).symm.trans h) rfl
    | pbSetB p v | pbSetH p v | pbSetW p v | pbSetD p v =>
      exact setPayload_commandResult hl (hp p rfl) (.inl ⟨p, v, by simp⟩) h
    | pbSetBytes p sp => exact setPayload_commandResult hl (hp p rfl) (.inr (.inl ⟨p, sp, .inl rfl⟩)) h
    | pbAddB p v | pbAddH p v | pbAddW p v | pbAddD p v =>
      exact addPayload_commandResult hl (hp p rfl) (.inl ⟨p, v, by simp⟩) h
    | pbAddBytes p sp => exact addPayload_commandResult hl (hp p rfl) (.inr (.inl ⟨p, sp, .inr rfl⟩)) h
    | send p ch dst => exact sendPacket_commandResult hl (hp p rfl) (hch ch rfl) ⟨p, ch, dst, 0, .inl rfl⟩ h
    | sendT p ch dst typ => exact sendPacket_commandResult hl (hp p rfl) (hch ch rfl) ⟨p, ch, dst, typ, .inr rfl⟩ h
    | receive p ch => exact execReceive_commandResult hl (hp p rfl) (hch ch rfl) h
    | rxReset ch => exact commandResult_of_ok hl ((ifChannel_of_lt (hch ch rfl)).symm.trans h) rfl
    | csum | cfgWraddr | cfgRdaddr | sysReset => exact commandResult_of_ok hl h rfl
    | frame => cases hi

end

/-- Settles O59: an index the build lacks is answered by the index check, and the commands differ only in what else they answer. -/
theorem responsesByCommand : Obligations.ResponsesByCommand :=
  fun _ _ _ hi h => exec_commandResult hi h

end Sys2Proof.Machine
end

section
/-! SUPPORT. The wire frame of 30_encoding.md rule R90, received: its byte steps, and the passes of a RECEIVE that take them. -/

namespace Sys2Proof.Machine

/-! ## The byte steps over a frame (43_receive.md rules R216 to R223) -/

/-- A frame without its last byte, the checksum: what a parser holds before that byte. -/
def frameBody (dst src typ : Byte) (data : List Byte) : List Byte :=
  [0x02#8, BitVec.ofNat 8 (data.length + 4), dst, src, typ] ++ data

section
variable {c : Config} {dst src typ : Byte} {data : List Byte}

theorem wireFrame_eq (c : Config) (dst src typ : Byte) (data : List Byte) :
    wireFrame c dst src typ data = frameBody dst src typ data ++ [csumOf c ([dst, src, typ] ++ data)] := rfl

theorem length_frameBody : (frameBody dst src typ data).length = data.length + 5 := by
  simp [frameBody]

theorem toNat_frameLen (hc : c.Legal) (hd : data.length ≤ c.maxDataLen) :
    (BitVec.ofNat 8 (data.length + 4)).toNat = data.length + 4 := by
  obtain ⟨hmax, -⟩ := hc
  rw [BitVec.toNat_ofNat]
  omega

theorem lenLegal_frameLen (hc : c.Legal) (hd : data.length ≤ c.maxDataLen) :
    lenLegal c (BitVec.ofNat 8 (data.length + 4)) = true := by
  rw [lenLegal_iff, toNat_frameLen hc hd]
  omega

theorem parserWf_frameBody (hc : c.Legal) (hd : data.length ≤ c.maxDataLen) :
    parserWf c (frameBody dst src typ data) = true := by
  simp [frameBody, parserWf, lenLegal_frameLen hc hd, toNat_frameLen hc hd]

/-- A parser that has followed a frame so far appends its next byte, unless that is the last. -/
theorem rxByte_frameBody (hc : c.Legal) (hd : data.length ≤ c.maxDataLen) {sc rest : List Byte} {b : Byte}
    (h : frameBody dst src typ data = sc ++ b :: rest) (a : Byte) : rxByte c a sc b = ⟨sc ++ [b], .appended, none⟩ := by
  match sc with
  | [] =>
    cases h
    rfl
  | [_] =>
    cases h
    exact if_pos (lenLegal_frameLen hc hd)
  | x :: l :: r =>
    have hlen : (frameBody dst src typ data).length = _ := congrArg List.length h
    have hl : BitVec.ofNat 8 (data.length + 4) = l := congrArg (fun bs => bs.getD 1 0) h
    rw [length_frameBody] at hlen
    simp only [List.length_append, List.length_cons] at hlen
    refine if_neg fun ⟨_, hfull⟩ => ?_
    simp only [List.getD_cons_succ, List.getD_cons_zero, ← hl, toNat_frameLen hc hd, List.length_append, List.length_cons,
      List.length_nil, Config.synLen, Config.lenLen] at hfull
    omega

/-- The last byte of a frame passes the checksum, and the filter decides. -/
theorem rxByte_frame_last (hc : c.Legal) (hd : data.length ≤ c.maxDataLen) (a : Byte) :
    rxByte c a (frameBody dst src typ data) (csumOf c ([dst, src, typ] ++ data)) =
      if filterPasses a dst then ⟨[], .accepted, some ⟨dst, src, typ, data⟩⟩ else ⟨[], .addressMismatch, none⟩ := by
  have hlast : (frameBody dst src typ data).length = ((frameBody dst src typ data).getD 1 0).toNat + 1 := by
    rw [length_frameBody]
    exact congrArg (· + 1) (toNat_frameLen hc hd).symm
  rw [rxByte_last (parserWf_frameBody hc hd) _ (by rw [length_frameBody]; omega) hlast]
  exact if_neg (not_not_intro rfl)

end

/-! ## The passes of a RECEIVE (43_receive.md rule R226) -/

theorem step_of_receiving {s : State} {p : PbIndex} {ch : ChIndex} (ht : s.turns = []) (hj : s.job = some (.receive p ch)) :
    step s = execReceive p ch s := by
  have hf : fetch s = .run (.receive p ch) s := by simp only [fetch, coreMove, ht, hj]
  exact step_of_run hf

section
variable {s : State} {p : PbIndex} {ch : ChIndex} {b : Byte} {rest sc : List Byte} {e : Event}

/-- A pass whose byte step gives no packet goes on. -/
theorem execReceive_of_no_packet (hq : s.rxq ch = b :: rest)
    (h : rxByte s.cfg s.localAddr (s.parser ch) b = ⟨sc, e, none⟩) (hp : p.toNat < s.cfg.nPb) (hch : ch.toNat < s.cfg.nCh) :
    execReceive p ch s =
      .next { ((s.setRxq ch rest).setParser ch sc).emit ch e with job := some (.receive p ch) } := by
  simp [execReceive, ifBuffer_of_lt hp, ifChannel_of_lt hch, hq, State.rxAccepts, State.rxStep, h, State.setRxq]

/-- A pass whose byte step gives a packet ends the command. -/
theorem execReceive_of_packet {k : PacketBuffer} (hq : s.rxq ch = b :: rest)
    (h : rxByte s.cfg s.localAddr (s.parser ch) b = ⟨sc, e, some k⟩) (hp : p.toNat < s.cfg.nPb)
    (hch : ch.toNat < s.cfg.nCh) :
    execReceive p ch s =
      .next ((((s.setRxq ch rest).setParser ch sc).emit ch e).setPb p k |>.respond (receiveResponse true)) := by
  simp [execReceive, ifBuffer_of_lt hp, ifChannel_of_lt hch, hq, State.rxAccepts, State.rxStep, h, State.setRxq]

end

/-! ## A frame taken byte by byte -/

/-- A RECEIVE is in progress with its parser in Idle and its queue empty, and no other agent is to move. -/
structure AwaitsFrame (s : State) (p : PbIndex) (ch : ChIndex) : Prop where
  inv : s.Inv
  job : s.job = some (.receive p ch)
  turns : s.turns = []
  parser : s.parser ch = []
  rxq : s.rxq ch = []

/-- `s` after the bytes `sc` of a frame have been taken and appended, with `q` still in the queue. -/
def State.accumulated (s : State) (ch : ChIndex) (sc q : List Byte) : State :=
  { (s.setParser ch sc).setRxq ch q with events := s.events ++ List.replicate sc.length (ch, .appended) }

/-- `s` after a frame's first `n` bytes and its last, which gave the event `e`, have been taken: only the events tell of it. -/
def State.frameTaken (s : State) (ch : ChIndex) (n : Nat) (e : Event) : State :=
  { s with events := s.events ++ List.replicate n (ch, .appended) ++ [(ch, e)] }

theorem set_getD_self {α : Type} (l : List α) (i : Nat) (d : α) : l.set i (l.getD i d) = l := by
  by_cases h : i < l.length
  · rw [List.getD_eq_getElem _ _ h, List.set_getElem_self]
  · exact List.set_eq_of_length_le (Nat.le_of_not_lt h)

theorem State.setParser_parser (s : State) (ch : ChIndex) : s.setParser ch (s.parser ch) = s := by
  rw [setParser, parser, set_getD_self]

theorem State.setRxq_rxq (s : State) (ch : ChIndex) : s.setRxq ch (s.rxq ch) = s := by
  show s.setTransport ch (s.transport ch) = s
  rw [setTransport, transport, set_getD_self]

section
variable {s : State} {p : PbIndex} {ch : ChIndex} {b : Byte} {sc q : List Byte}

/-- Taking and appending one more byte. -/
theorem accumulated_append (hch : ch.toNat < s.transports.length) (b : Byte) (q' : List Byte) :
    (((s.accumulated ch sc q).setRxq ch q').setParser ch (sc ++ [b])).emit ch .appended =
      s.accumulated ch (sc ++ [b]) q' := by
  simp [State.accumulated, State.setParser, State.setRxq, State.setTransport, State.emit, State.transport, hch,
    List.replicate_succ']

namespace AwaitsFrame

variable (hs : AwaitsFrame s p ch)
include hs

theorem indices_lt : p.toNat < s.cfg.nPb ∧ ch.toNat < s.cfg.nCh := by
  have hjob := hs.inv.job_wf
  rw [hs.job] at hjob
  simpa [jobWf] using hjob

theorem ch_lt_transports : ch.toNat < s.transports.length := hs.inv.ch_lt_transports hs.indices_lt.2

theorem parser_accumulated : (s.accumulated ch sc q).parser ch = sc :=
  State.parser_setParser_self (hs.inv.n_parsers ▸ hs.indices_lt.2) sc

theorem rxq_accumulated : (s.accumulated ch sc q).rxq ch = q :=
  State.rxq_setRxq_self (s := s.setParser ch sc) hs.ch_lt_transports q

theorem rxByte_accumulated : rxByte (s.accumulated ch sc q).cfg (s.accumulated ch sc q).localAddr
    ((s.accumulated ch sc q).parser ch) b = rxByte s.cfg s.localAddr sc b := by
  rw [hs.parser_accumulated]
  rfl

theorem deliver_eq_accumulated (bytes : List Byte) : s.deliver ch bytes = s.accumulated ch [] bytes := by
  have hsame : s.setParser ch [] = s := hs.parser ▸ s.setParser_parser ch
  rw [State.accumulated, hsame, State.deliver, hs.rxq, List.nil_append, List.length_nil, List.replicate_zero,
    List.append_nil]
  rfl

/-- Taking the last byte, which brings the cursor back to 0. -/
theorem accumulated_done (e : Event) :
    (((s.accumulated ch sc q).setRxq ch []).setParser ch []).emit ch e = s.frameTaken ch sc.length e := by
  have hparsers : s.parsers.set ch.toNat [] = s.parsers := congrArg State.parsers (hs.parser ▸ s.setParser_parser ch)
  have htransports : (s.setRxq ch []).transports = s.transports :=
    congrArg State.transports (hs.rxq ▸ s.setRxq_rxq ch)
  simpa [State.accumulated, State.frameTaken, State.setParser, State.setRxq, State.setTransport, State.emit,
    State.transport, hs.ch_lt_transports, hparsers] using htransports

theorem step_append (h : rxByte s.cfg s.localAddr sc b = ⟨sc ++ [b], .appended, none⟩) :
    step (s.accumulated ch sc (b :: q)) = .next (s.accumulated ch (sc ++ [b]) q) := by
  rw [step_of_receiving (s := s.accumulated ..) hs.turns hs.job, execReceive_of_no_packet hs.rxq_accumulated
    (hs.rxByte_accumulated.trans h) hs.indices_lt.1 hs.indices_lt.2, accumulated_append hs.ch_lt_transports, ← hs.job]
  rfl

/-- The pass over a last byte that gives no packet. -/
theorem step_last_of_no_packet {e : Event} (h : rxByte s.cfg s.localAddr sc b = ⟨[], e, none⟩) :
    step (s.accumulated ch sc [b]) = .next (s.frameTaken ch sc.length e) := by
  rw [step_of_receiving (s := s.accumulated ..) hs.turns hs.job, execReceive_of_no_packet hs.rxq_accumulated
    (hs.rxByte_accumulated.trans h) hs.indices_lt.1 hs.indices_lt.2, hs.accumulated_done, ← hs.job]
  rfl

/-- The pass over a last byte that gives a packet. -/
theorem step_last_of_packet {e : Event} {k : PacketBuffer} (h : rxByte s.cfg s.localAddr sc b = ⟨[], e, some k⟩) :
    step (s.accumulated ch sc [b]) =
      .next ((s.frameTaken ch sc.length e).setPb p k |>.respond (receiveResponse true)) := by
  rw [step_of_receiving (s := s.accumulated ..) hs.turns hs.job, execReceive_of_packet hs.rxq_accumulated
    (hs.rxByte_accumulated.trans h) hs.indices_lt.1 hs.indices_lt.2, hs.accumulated_done]

variable {dst src typ : Byte} {data : List Byte}

/-- Every pass before the last byte of a frame appends its byte. -/
theorem steps_frameBody (hd : data.length ≤ s.cfg.maxDataLen) (mid : List Byte)
    (h : frameBody dst src typ data = sc ++ mid) (k : Nat) :
    steps (mid.length + k) (s.accumulated ch sc (mid ++ q)) = steps k (s.accumulated ch (sc ++ mid) q) := by
  induction mid generalizing sc with
  | nil => rw [List.append_nil, List.nil_append, List.length_nil, Nat.zero_add]
  | cons b mid ih =>
    have hstep := hs.step_append (q := mid ++ q) (rxByte_frameBody hs.inv.cfg_legal hd h s.localAddr)
    calc steps ((b :: mid).length + k) (s.accumulated ch sc (b :: mid ++ q))
        = steps (mid.length + k + 1) (s.accumulated ch sc (b :: (mid ++ q))) := by
          rw [List.length_cons, Nat.add_right_comm, List.cons_append]
      _ = steps (mid.length + k) (s.accumulated ch (sc ++ [b]) (mid ++ q)) := steps_succ_of_step hstep _
      _ = steps k (s.accumulated ch (sc ++ [b] ++ mid) q) := ih (by rw [h, List.append_assoc]; rfl)
      _ = steps k (s.accumulated ch (sc ++ b :: mid) q) := by rw [List.append_assoc]; rfl

/-- The passes over a whole frame come to the pass over its last byte. -/
theorem steps_wireFrame {u : State} (hd : data.length ≤ s.cfg.maxDataLen)
    (hlast : step (s.accumulated ch (frameBody dst src typ data) [csumOf s.cfg ([dst, src, typ] ++ data)]) = .next u) :
    steps (data.length + 6) (s.deliver ch (wireFrame s.cfg dst src typ data)) = .next u := by
  have hbody := hs.steps_frameBody (sc := []) (q := [csumOf s.cfg ([dst, src, typ] ++ data)]) hd
    (frameBody dst src typ data) rfl 1
  rw [length_frameBody, List.nil_append] at hbody
  rw [hs.deliver_eq_accumulated, wireFrame_eq]
  exact hbody.trans (steps_succ_of_step hlast 0)

/-- A frame that the filter lets through ends the RECEIVE. -/
theorem steps_wireFrame_of_passes (hd : data.length ≤ s.cfg.maxDataLen) (hpass : filterPasses s.localAddr dst = true) :
    steps (data.length + 6) (s.deliver ch (wireFrame s.cfg dst src typ data)) = .next
      ((s.frameTaken ch (data.length + 5) .accepted).setPb p ⟨dst, src, typ, data⟩ |>.respond (receiveResponse true)) := by
  have hlast := rxByte_frame_last (dst := dst) (src := src) (typ := typ) hs.inv.cfg_legal hd s.localAddr
  rw [if_pos hpass] at hlast
  exact hs.steps_wireFrame hd (length_frameBody ▸ hs.step_last_of_packet hlast)

/-- A frame that the filter keeps out is dropped. -/
theorem steps_wireFrame_of_not_passes (hd : data.length ≤ s.cfg.maxDataLen) (hpass : ¬ filterPasses s.localAddr dst = true) :
    steps (data.length + 6) (s.deliver ch (wireFrame s.cfg dst src typ data)) =
      .next (s.frameTaken ch (data.length + 5) .addressMismatch) := by
  have hlast := rxByte_frame_last (dst := dst) (src := src) (typ := typ) hs.inv.cfg_legal hd s.localAddr
  rw [if_neg hpass] at hlast
  exact hs.steps_wireFrame hd (length_frameBody ▸ hs.step_last_of_no_packet hlast)

end AwaitsFrame

theorem channelFrame_frameTaken (s : State) (p : PbIndex) (ch : ChIndex) (n : Nat) (e : Event) :
    ChannelFrame p ch s (s.frameTaken ch n e) :=
  ⟨⟨rfl, rfl, rfl, rfl⟩, ⟨rfl, fun _ _ => rfl⟩, rfl, rfl, fun _ _ => rfl, rfl, fun _ _ => rfl⟩

theorem channelFrame_frameTaken_copied (s : State) (p : PbIndex) (ch : ChIndex) (n : Nat) (e : Event) (k : PacketBuffer)
    (r : Response) : ChannelFrame p ch s ((s.frameTaken ch n e).setPb p k |>.respond r) :=
  ⟨⟨rfl, rfl, rfl, rfl⟩, ⟨List.length_set, fun _ hq => State.pb_setPb_ne hq k⟩, rfl, rfl, fun _ _ => rfl, rfl, fun _ _ => rfl⟩

theorem passes_iff {a d : Byte} : Passes a d ↔ filterPasses a d = true := filterPasses_iff.symm

end

/-- Settles O49: each pass before the last appends its byte, and the last leaves the parser in Idle, with the packet copied exactly
when the filter passes. -/
theorem frameIsReceived : Obligations.FrameIsReceived := by
  intro s p ch dst src typ data hinv hj ht hparser hrxq hd
  have hs : AwaitsFrame s p ch := ⟨hinv, hj, ht, hparser, hrxq⟩
  obtain ⟨hp, hch⟩ := hs.indices_lt
  have hqueue : (s.deliver ch (wireFrame s.cfg dst src typ data)).rxq ch = wireFrame s.cfg dst src typ data :=
    hs.deliver_eq_accumulated _ ▸ hs.rxq_accumulated
  rw [passes_iff]
  by_cases hpass : filterPasses s.localAddr dst = true
  · have hpb := State.pb_setPb_self (s := s.frameTaken ch (data.length + 5) .accepted) (hinv.pb_lt_buffers hp)
      ⟨dst, src, typ, data⟩
    exact ⟨_, _, exec_frame_of_lt hch _, hqueue, hs.steps_wireFrame_of_passes hd hpass,
      channelFrame_frameTaken_copied .., hparser, rfl, rfl, fun _ => ⟨hpb, ⟨rfl, rfl⟩, rfl⟩, fun h => absurd hpass h⟩
  · exact ⟨_, _, exec_frame_of_lt hch _, hqueue, hs.steps_wireFrame_of_not_passes hd hpass, channelFrame_frameTaken ..,
      hparser, rfl, rfl, fun h => absurd h hpass, fun _ => ⟨rfl, rfl, rfl, rfl⟩⟩

end Sys2Proof.Machine
end

section
/-! SUPPORT. The statements of 40_packet_buffer.md: that every command answers, what the writing commands leave of the packet buffer
they name, what the reading commands return, and the set and get law. -/

namespace Sys2Proof.Machine

/-! ## Every command answers -/

theorem ifBuffer_answers {p : PbIndex} {s : State} {k : Out} (hk : ∃ t, k = .next t) : ∃ t, ifBuffer p s k = .next t := by
  by_cases hp : p.toNat < s.cfg.nPb
  · rwa [ifBuffer_of_lt hp]
  · exact ⟨_, ifBuffer_of_not_lt hp⟩

theorem ifChannel_answers {ch : ChIndex} {s : State} {k : Out} (hk : ∃ t, k = .next t) :
    ∃ t, ifChannel ch s k = .next t := by
  by_cases hch : ch.toNat < s.cfg.nCh
  · rwa [ifChannel_of_lt hch]
  · exact ⟨_, ifChannel_of_not_lt hch⟩

theorem exec_answers_of_isCommand {i : Instr} (hi : i.isCommand = true) (s : State) : ∃ t, exec i s = .next t := by
  cases i with
  | send | sendT | receive => exact ifBuffer_answers (ifChannel_answers ⟨_, rfl⟩)
  | rxReset => exact ifChannel_answers ⟨_, rfl⟩
  | csum | cfgWraddr | cfgRdaddr | sysReset => exact ⟨_, rfl⟩
  | frame => cases hi
  | _ => exact ifBuffer_answers ⟨_, rfl⟩

theorem exec_frame_of_not_lt {ch : ChIndex} {s : State} (h : ¬ ch.toNat < s.cfg.nCh) (bytes : List Byte) :
    exec (.frame ch bytes) s = .fault .absentChannel :=
  if_neg h

/-- Settles O11: a command stops at no index check, and a delivery only at its channel's. -/
theorem execAnswersNext : Obligations.ExecAnswersNext := by
  refine fun i s => ⟨fun hi => exec_answers_of_isCommand hi s, ?_, ?_⟩
  · rintro ch bytes rfl hch
    exact ⟨_, exec_frame_of_lt hch bytes⟩
  · rintro ch bytes rfl hch
    exact exec_frame_of_not_lt hch bytes

/-! ## The words of the commands (30_encoding.md rule R101) -/

/-- The encoding of a command decodes to it whatever the build: every index fits a build with 16 buffers and 16 channels. -/
theorem decode_encode_of_isCommand {i : Instr} (hi : i.isCommand = true) (hfits : i.spanFits = true) :
    decode (encode i) = .ok i := by
  refine decodeEncodeRoundTrip { nPb := 16, nCh := 16 } i ?_
  have hindices : i.indicesLegal { nPb := 16, nCh := 16 } = true :=
    indicesLegal_eq_true_iff.mpr ⟨fun p _ => p.isLt, fun ch _ => ch.isLt⟩
  have hwire : i.wireLegal { nPb := 16, nCh := 16 } = true := by
    cases i with
    | frame => cases hi
    | _ => rfl
  rw [Instr.wellFormed, hindices, hfits, hwire]
  rfl

/-! ## Commands that write one packet buffer -/

section
variable {s : State} {p : PbIndex}

theorem packetFrame_respond (s : State) (p : PbIndex) (r : Response) : PacketFrame p s (s.respond r) :=
  ⟨⟨rfl, rfl, rfl, rfl⟩, ⟨rfl, fun _ _ => rfl⟩, rfl, rfl, rfl, rfl, rfl⟩

theorem packetFrame_setPb_respond (s : State) (p : PbIndex) (b : PacketBuffer) (r : Response) :
    PacketFrame p s ((s.setPb p b).respond r) :=
  ⟨⟨rfl, rfl, rfl, rfl⟩, ⟨List.length_set, fun _ hq => State.pb_setPb_ne hq b⟩, rfl, rfl, rfl, rfl, rfl⟩

/-- A command that writes the packet buffer it names and answers `OK`. -/
theorem ifBuffer_setPb_done (hs : s.Inv) (hp : p.toNat < s.cfg.nPb) (b : PacketBuffer) :
    ∃ t, ifBuffer p s (.next (s.setPb p b).done) = .next t ∧ t.pb p = b ∧ PacketFrame p s t ∧
      Answers { status := .ok } s t :=
  ⟨_, ifBuffer_of_lt hp, State.pb_setPb_self (hs.pb_lt_buffers hp) b, packetFrame_setPb_respond s p b _, rfl, rfl⟩

/-- Storing from index 0 replaces the payload. -/
theorem store_zero (b : PacketBuffer) (bs : List Byte) : b.store 0 bs = { b with payload := bs } := rfl

/-- Storing from index `LEN` appends to the payload. -/
theorem store_len (b : PacketBuffer) (bs : List Byte) : b.store b.len bs = { b with payload := b.payload ++ bs } := by
  rw [PacketBuffer.store, PacketBuffer.len, List.take_length]

/-- A command that checks `k` bytes against the capacity, then writes the packet buffer it names (rules R134, R135). -/
theorem ifBuffer_setPb_or_tooLarge (hs : s.Inv) (hp : p.toNat < s.cfg.nPb) (k : Nat) (b : PacketBuffer) :
    ∃ t, ifBuffer p s (.next (if k > s.cfg.maxDataLen then s.raise .payloadTooLarge else (s.setPb p b).done)) = .next t ∧
      PacketFrame p s t ∧ (k ≤ s.cfg.maxDataLen → t.pb p = b ∧ Answers { status := .ok } s t) ∧
      (s.cfg.maxDataLen < k → t.buffers = s.buffers ∧ Answers { status := .payloadTooLarge } s t) := by
  refine ⟨_, ifBuffer_of_lt hp, ?_⟩
  split
  case isTrue hlong =>
    exact ⟨packetFrame_respond s p _, fun hfit => absurd hlong (Nat.not_lt.mpr hfit), fun _ => ⟨rfl, rfl, rfl⟩⟩
  case isFalse hfit =>
    exact ⟨packetFrame_setPb_respond s p b _, fun _ => ⟨State.pb_setPb_self (hs.pb_lt_buffers hp) b, rfl, rfl⟩,
      fun hlong => absurd hlong hfit⟩

theorem setPayload_outcome (hs : s.Inv) (hp : p.toNat < s.cfg.nPb) (bs : List Byte) :
    SetOutcome p bs s (setPayload p bs s) := by
  rw [setPayload, store_zero]
  exact ifBuffer_setPb_or_tooLarge hs hp _ _

theorem addPayload_outcome (hs : s.Inv) (hp : p.toNat < s.cfg.nPb) (bs : List Byte) :
    AddOutcome p bs s (addPayload p bs s) := by
  rw [addPayload, store_len]
  exact ifBuffer_setPb_or_tooLarge hs hp _ _

/-- The empty span fits every build, so setting it is clearing. -/
theorem setPayload_nil (s : State) (p : PbIndex) : setPayload p [] s = execPbClear p s :=
  congrArg (fun t => ifBuffer p s (.next t)) (if_neg (Nat.not_lt_zero _))

end

/-- Settles O19: the write stores no bytes from index 0. -/
theorem pbClearEmptiesPayload : Obligations.PbClearEmptiesPayload :=
  ⟨fun p => decode_encode_of_isCommand (i := .pbClear p) rfl rfl, fun _ _ hs hp => ifBuffer_setPb_done hs hp _⟩

/-- Settles O23: the write is of the one header register that the selector names. -/
theorem pbWrhdrWritesHeader : Obligations.PbWrhdrWritesHeader := by
  intro s p f v hs hp
  obtain ⟨t, ht, hpb, hframe, hanswer⟩ := ifBuffer_setPb_done hs hp (writeHdr (s.pb p) f v)
  refine ⟨t, ht, hframe, hanswer, ?_, ?_, ?_⟩ <;> (rintro rfl; exact hpb)

/-- Settles O24: the operand's low bytes are what the four sets store. -/
theorem pbSetScalarOverwrites : Obligations.PbSetScalarOverwrites := by
  refine ⟨fun p v => ?_, fun s p v hs hp => ?_⟩
  · exact ⟨decode_encode_of_isCommand (i := .pbSetB p v) rfl rfl, decode_encode_of_isCommand (i := .pbSetH p v) rfl rfl,
      decode_encode_of_isCommand (i := .pbSetW p v) rfl rfl, decode_encode_of_isCommand (i := .pbSetD p v) rfl rfl⟩
  · have hset (n : Nat) : SetOutcome p (leBytes n v) s (setPayload p (leBytes n v) s) := setPayload_outcome hs hp _
    exact ⟨hset 1, hset 2, hset 4, hset 8⟩

/-- Settles O25, with the empty span as the clear. -/
theorem pbSetBytesOverwrites : Obligations.PbSetBytesOverwrites :=
  ⟨fun p span h => decode_encode_of_isCommand (i := .pbSetBytes p span) rfl (decide_eq_true h),
    fun s p span hs hp => ⟨setPayload_outcome hs hp span, setPayload_nil s p⟩⟩

/-- Settles O26: the operand's low bytes are what the four adds append. -/
theorem pbAddScalarAppends : Obligations.PbAddScalarAppends := by
  refine ⟨fun p v => ?_, fun s p v hs hp => ?_⟩
  · exact ⟨decode_encode_of_isCommand (i := .pbAddB p v) rfl rfl, decode_encode_of_isCommand (i := .pbAddH p v) rfl rfl,
      decode_encode_of_isCommand (i := .pbAddW p v) rfl rfl, decode_encode_of_isCommand (i := .pbAddD p v) rfl rfl⟩
  · have hadd (n : Nat) : AddOutcome p (leBytes n v) s (addPayload p (leBytes n v) s) := addPayload_outcome hs hp _
    exact ⟨hadd 1, hadd 2, hadd 4, hadd 8⟩

/-- Settles O27: an empty span fits because the invariant bounds the length. -/
theorem pbAddBytesAppends : Obligations.PbAddBytesAppends := by
  refine ⟨fun p span h => decode_encode_of_isCommand (i := .pbAddBytes p span) rfl (decide_eq_true h),
    fun s p span hs hp => ⟨addPayload_outcome hs hp span, ?_⟩⟩
  obtain ⟨t, ht, -, hfits, -⟩ := addPayload_outcome hs hp []
  obtain ⟨hpb, hanswer⟩ := hfits (hs.len_pb_le p)
  rw [List.append_nil] at hpb
  exact ⟨t, ht, hpb, hanswer⟩

/-! ## Commands that write nothing -/

section
variable {s : State} {p : PbIndex}

theorem readOutcome_respond (s : State) (r : Response) (k : Nat) :
    ReadOutcome r k s (.next (State.respond { s with draws := s.draws + k } r)) :=
  ⟨_, rfl, ⟨⟨rfl, rfl, rfl, rfl⟩, rfl, rfl, rfl, rfl, rfl⟩, ⟨rfl, rfl⟩, rfl⟩

/-- A command that only answers from the packet buffer it names. -/
theorem ifBuffer_readOutcome (hp : p.toNat < s.cfg.nPb) (r : Response) :
    ReadOutcome r 0 s (ifBuffer p s (.next (s.respond r))) := by
  rw [ifBuffer_of_lt hp]
  exact readOutcome_respond s r 0

/-- Every length is a count that the 8 bits of `rlen` hold. -/
theorem State.Inv.len_pb_lt {s : State} (hs : s.Inv) (p : PbIndex) : (s.pb p).payload.length < 256 := by
  obtain ⟨hmax, -⟩ := hs.cfg_legal
  have hlen := hs.len_pb_le p
  omega

theorem extractLsb'_above_selector {b : Byte} (h : b &&& 0xFC#8 = 0) : b.extractLsb' 2 6 = 0#6 := by
  revert b
  decide

/-- The row of PB.RDHDR holds no word with the reserved selector or an unused bit set (30_encoding.md rules R102, R103). -/
theorem decode_pbRdhdr_error (p : PbIndex) {b : Byte} (h : b.extractLsb' 0 2 = 3#2 ∨ b.extractLsb' 2 6 ≠ 0#6) :
    ∃ e, decode (.command (mkWord 0x13#8 p 0 0 b) 0 []) = .error e := by
  cases hd : decode (.command (mkWord 0x13#8 p 0 0 b) 0 []) with
  | error e => exact ⟨e, rfl⟩
  | ok i =>
    obtain ⟨o, hrow, -, hi⟩ := decode_command_eq_ok_iff.mp hd
    obtain ⟨ho, hunused⟩ := and_mask_eq_mtch_iff.mp hrow
    rw [opField_mkWord] at ho
    cases ho
    obtain ⟨f, hf, -⟩ := buildInstr_pbRdhdr_eq_ok hi
    obtain ⟨-, -, -, hb⟩ := unusedFieldsZero_iff.mp hunused
    rw [bField_mkWord] at hf hb
    rcases h with hreserved | hset
    · exact absurd hreserved ((hdrFieldOf_isSome_iff b).mp ⟨f, hf⟩)
    · exact absurd (extractLsb'_above_selector hb) hset

end

/-- Settles O20: the length fits the result. -/
theorem pbLengthReturnsLength : Obligations.PbLengthReturnsLength := by
  refine ⟨fun p => decode_encode_of_isCommand (i := .pbLength p) rfl rfl,
    fun s p hs hp => ⟨hs.len_pb_le p, _, ifBuffer_readOutcome hp _, ?_⟩⟩
  have hlen := hs.len_pb_lt p
  rw [BitVec.toNat_ofNat, PacketBuffer.len, Nat.mod_eq_of_lt (by omega)]

/-- Settles O21: the length fits `rlen`. -/
theorem pbRawReturnsPayload : Obligations.PbRawReturnsPayload := by
  refine ⟨fun p => decode_encode_of_isCommand (i := .pbRaw p) rfl rfl,
    fun s p hs hp => ⟨_, ifBuffer_readOutcome hp _, rfl, rfl, rfl, rfl, ?_⟩⟩
  rw [Response.rlen, BitVec.toNat_ofNat, Nat.mod_eq_of_lt (hs.len_pb_lt p)]

/-- Settles O22: each selector names its register, and no other word is in the row. -/
theorem pbRdhdrReturnsHeader : Obligations.PbRdhdrReturnsHeader := by
  refine ⟨fun p => ?_, fun p _ h => decode_pbRdhdr_error p h, fun s p hp => ?_⟩
  · have hword (f : HdrField) : decode (encode (.pbRdhdr p f)) = .ok (.pbRdhdr p f) := decode_encode_of_isCommand rfl rfl
    exact ⟨hword .dst, hword .src, hword .typ⟩
  · exact ⟨ifBuffer_readOutcome hp _, ifBuffer_readOutcome hp _, ifBuffer_readOutcome hp _⟩

/-! ## The gets (40_packet_buffer.md rule R133) -/

/-- A read of the payload gives, byte by byte, what the statements call its bytes. -/
theorem memRead_eq_map_payloadByte (s : State) (p : PbIndex) (n : Nat) :
    memRead (s.pb p) n s.draws = (List.range n).map (payloadByte s p) := by
  apply List.ext_getElem (by simp)
  intro i hi _
  rw [length_memRead] at hi
  by_cases hlen : i < (s.pb p).payload.length
  · simp [memRead, payloadByte, hlen, hi]
  · have hmin : min n (s.pb p).payload.length = (s.pb p).payload.length := by omega
    simp [memRead, payloadByte, hlen, List.getElem_append_right, hmin, Nat.le_of_not_lt hlen]

theorem getPayload_outcome {s : State} {p : PbIndex} (hp : p.toNat < s.cfg.nPb) (n : Nat) (result : List Byte → Response) :
    ReadOutcome (result ((List.range n).map (payloadByte s p))) (beyond s p n) s (getPayload p n result s) := by
  rw [getPayload, ifBuffer_of_lt hp, memRead_eq_map_payloadByte]
  exact readOutcome_respond s _ _

/-- Settles O30: the bytes are those that a read of the payload gives. -/
theorem pbGetBytesReturnsSpan : Obligations.PbGetBytesReturnsSpan := by
  refine ⟨fun p m => decode_encode_of_isCommand (i := .pbGetBytes p m) rfl rfl,
    fun s p m hp => ⟨_, getPayload_outcome hp m.toNat _, rfl, rfl, rfl, ?_, by simp, fun i hi => by simp [hi]⟩⟩
  simp [Response.rlen]

/-! ### Bytes as a scalar (40_packet_buffer.md rule R132) -/

theorem leVal_singleton (b : Byte) : leVal [b] = b.toNat := rfl

/-- The first byte is the least significant. -/
theorem leVal_cons_eq_toNat_append {w : Nat} {x : BitVec w} {bs : List Byte} (h : leVal bs = x.toNat) (b : Byte) :
    leVal (b :: bs) = (x ++ b).toNat := by
  rw [leVal_cons, h, BitVec.toNat_append, ← Nat.shiftLeft_add_eq_or_of_lt b.isLt, Nat.shiftLeft_eq]
  omega

theorem zextBytes_of_leVal {w : Nat} {x : BitVec w} {bs : List Byte} (h : leVal bs = x.toNat) :
    zextBytes bs = x.zeroExtend 64 := by
  rw [zextBytes, h, BitVec.ofNat_toNat]

theorem sextBytes_of_leVal {w : Nat} {x : BitVec w} {bs : List Byte} (h : leVal bs = x.toNat) (hw : 8 * bs.length = w) :
    sextBytes bs = x.signExtend 64 := by
  subst hw
  rw [sextBytes, h, BitVec.ofNat_toNat, BitVec.setWidth_eq]

section
variable {s : State} {p : PbIndex} {n : Nat}

theorem getUnsigned_outcome {w : Nat} {x : BitVec w} (hp : p.toNat < s.cfg.nPb)
    (hx : leVal ((List.range n).map (payloadByte s p)) = x.toNat) :
    ReadOutcome { status := .ok, rdata := x.zeroExtend 64 } (beyond s p n) s (getUnsigned p n s) :=
  zextBytes_of_leVal hx ▸ getPayload_outcome hp n _

theorem getSigned_outcome {w : Nat} {x : BitVec w} (hp : p.toNat < s.cfg.nPb)
    (hx : leVal ((List.range n).map (payloadByte s p)) = x.toNat) (hw : 8 * n = w) :
    ReadOutcome { status := .ok, rdata := x.signExtend 64 } (beyond s p n) s (getSigned p n s) :=
  sextBytes_of_leVal hx (by simpa using hw) ▸ getPayload_outcome hp n _

end

theorem leVal_map_range_two (b : Nat → Byte) : leVal ((List.range 2).map b) = (b 1 ++ b 0).toNat :=
  leVal_cons_eq_toNat_append (leVal_singleton _) _

theorem leVal_map_range_four (b : Nat → Byte) : leVal ((List.range 4).map b) = (b 3 ++ b 2 ++ b 1 ++ b 0).toNat :=
  leVal_cons_eq_toNat_append (leVal_cons_eq_toNat_append (leVal_map_range_two fun i => b (i + 2)) _) _

theorem leVal_map_range_eight (b : Nat → Byte) :
    leVal ((List.range 8).map b) = (b 7 ++ b 6 ++ b 5 ++ b 4 ++ b 3 ++ b 2 ++ b 1 ++ b 0).toNat :=
  leVal_cons_eq_toNat_append (leVal_cons_eq_toNat_append (leVal_cons_eq_toNat_append (leVal_cons_eq_toNat_append
    (leVal_map_range_four fun i => b (i + 4)) _) _) _) _

/-- Settles O28: the bytes read make the scalar, whatever the free ones are. -/
theorem pbGetUnsignedZeroExtends : Obligations.PbGetUnsignedZeroExtends := by
  intro s p hp b
  exact ⟨getUnsigned_outcome hp (leVal_singleton (b 0)), getUnsigned_outcome hp (leVal_map_range_two b),
    getUnsigned_outcome hp (leVal_map_range_four b), getUnsigned_outcome hp (leVal_map_range_eight b)⟩

/-- Settles O29: as the unsigned gets, at the width of the bytes read. -/
theorem pbGetSignedSignExtends : Obligations.PbGetSignedSignExtends := by
  intro s p hp b
  exact ⟨getSigned_outcome hp (leVal_singleton (b 0)) rfl, getSigned_outcome hp (leVal_map_range_two b) rfl,
    getSigned_outcome hp (leVal_map_range_four b) rfl⟩

/-! ## The set and get law (40_packet_buffer.md rule R161) -/

theorem leVal_append (bs cs : List Byte) : leVal (bs ++ cs) = leVal bs + 256 ^ bs.length * leVal cs := by
  induction bs with
  | nil => simp
  | cons b bs ih =>
    rw [List.cons_append, leVal_cons, leVal_cons, ih, List.length_cons, Nat.pow_succ]
    ring

theorem leBytes_succ (n : Nat) (v : Scalar) : leBytes (n + 1) v = leBytes n v ++ [v.extractLsb' (8 * n) 8] := by
  simp [leBytes, List.range_succ]

/-- The low bytes of an operand, read back, are its low bits. -/
theorem leVal_leBytes (n : Nat) (v : Scalar) : leVal (leBytes n v) = (v.setWidth (8 * n)).toNat := by
  have hpow : ∀ m, 2 ^ (8 * m) = 256 ^ m := fun m => pow_mul 2 8 m
  rw [BitVec.toNat_setWidth, hpow]
  induction n with
  | zero => simp [leBytes, Nat.mod_one]
  | succ n ih =>
    rw [leBytes_succ, leVal_append, ih, length_leBytes, leVal_singleton, BitVec.extractLsb'_toNat,
      Nat.shiftRight_eq_div_pow, hpow]
    exact Nat.mod_mul.symm

section
variable {s t u : State} {p : PbIndex} {bs : List Byte}

/-- Where a set of bytes that fit has been done, and the build and the buffer have not changed since, the buffer is still one of the
build's and holds the bytes. -/
theorem payload_after_set (hs : s.Inv) (hp : p.toNat < s.cfg.nPb) (hcfg : u.cfg = t.cfg) (hpb : u.pb p = t.pb p)
    (hfit : bs.length ≤ s.cfg.maxDataLen) (hset : setPayload p bs s = .next t) :
    p.toNat < u.cfg.nPb ∧ (u.pb p).payload = bs := by
  obtain ⟨t', ht, hframe, hfits, -⟩ := setPayload_outcome hs hp bs
  cases hset.symm.trans ht
  rw [hcfg, hframe.outside.cfg, hpb, (hfits hfit).1]
  exact ⟨hp, rfl⟩

/-- A get of exactly the payload's length reads the payload and draws nothing. -/
theorem getPayload_whole (hp : p.toNat < u.cfg.nPb) (hbs : (u.pb p).payload = bs) (result : List Byte → Response) :
    ReadOutcome (result bs) 0 u (getPayload p bs.length result u) := by
  have hget := getPayload_outcome hp bs.length result
  rwa [← memRead_eq_map_payloadByte, memRead_of_le (hbs ▸ le_rfl), beyond, hbs, List.take_length, Nat.sub_self] at hget

theorem getUnsigned_leBytes (n : Nat) {v : Scalar} (h : p.toNat < u.cfg.nPb ∧ (u.pb p).payload = leBytes n v) :
    ReadOutcome { status := .ok, rdata := (v.setWidth (8 * n)).zeroExtend 64 } 0 u (getUnsigned p n u) := by
  obtain ⟨hp, hbs⟩ := h
  have hget := getPayload_whole hp hbs fun bytes => { status := .ok, rdata := zextBytes bytes }
  rwa [length_leBytes, zextBytes_of_leVal (leVal_leBytes n v)] at hget

theorem getSigned_leBytes (n : Nat) {v : Scalar} (h : p.toNat < u.cfg.nPb ∧ (u.pb p).payload = leBytes n v) :
    ReadOutcome { status := .ok, rdata := (v.setWidth (8 * n)).signExtend 64 } 0 u (getSigned p n u) := by
  obtain ⟨hp, hbs⟩ := h
  have hget := getPayload_whole hp hbs fun bytes => { status := .ok, rdata := sextBytes bytes }
  rwa [length_leBytes, sextBytes_of_leVal (leVal_leBytes n v) (by rw [length_leBytes])] at hget

end

/-- Settles O31: the buffer holds the bytes set, and a read of their number gives exactly them. -/
theorem setThenGetReturnsValue : Obligations.SetThenGetReturnsValue := by
  intro s t u p v hs hp hcfg hpb
  have hheld {n : Nat} (hfit : n ≤ s.cfg.maxDataLen) (hset : setPayload p (leBytes n v) s = .next t) :=
    payload_after_set hs hp hcfg hpb (by rwa [length_leBytes]) hset
  refine ⟨fun hfit hset => ?_, fun hfit hset => ?_, fun hfit hset => ?_, fun hfit hset => ?_, fun span hfit hset => ?_⟩
  · exact ⟨getUnsigned_leBytes 1 (hheld hfit hset), getSigned_leBytes 1 (hheld hfit hset)⟩
  · exact ⟨getUnsigned_leBytes 2 (hheld hfit hset), getSigned_leBytes 2 (hheld hfit hset)⟩
  · exact ⟨getUnsigned_leBytes 4 (hheld hfit hset), getSigned_leBytes 4 (hheld hfit hset)⟩
  · have hwhole : (v.setWidth (8 * 8)).zeroExtend 64 = v := (BitVec.setWidth_eq _).trans (BitVec.setWidth_eq v)
    exact hwhole ▸ getUnsigned_leBytes 8 (hheld hfit hset)
  · obtain ⟨hpu, hspan⟩ := payload_after_set hs hp hcfg hpb hfit hset
    exact hspan ▸ ifBuffer_readOutcome hpu _

end Sys2Proof.Machine
end

section
/-! SUPPORT. The statements of 41_checksum.md: the default checksum as a sum of bytes, its laws, and the CSUM command. -/

namespace Sys2Proof.Machine

/-! ## The default checksum is a sum of words of 8 bits (rule R181) -/

theorem additiveSum_eq_sum (s : List Byte) : additiveSum s = s.sum := List.sum_eq_foldl.symm

/-- The ground of rule R185: the default checksum is the sum in the additive group of bytes. -/
theorem csumOf_eq_sum {c : Config} (hc : c.csum = .additive) (s : List Byte) : csumOf c s = s.sum := by
  simp only [csumOf, hc, additiveSum_eq_sum]

theorem toNat_sum (s : List Byte) : s.sum.toNat = (s.map (fun b => b.toNat)).sum % 256 := by
  induction s with
  | nil => rfl
  | cons b s ih => rw [List.sum_cons, List.map_cons, List.sum_cons, BitVec.toNat_add, ih, Nat.add_mod_mod]

/-- Settles O33: the 8-bit sum is the sum of the unsigned values modulo 256. -/
theorem defaultChecksumIsSumModulo256 : Obligations.DefaultChecksumIsSumModulo256 :=
  fun _ s hc => csumOf_eq_sum hc s ▸ toNat_sum s

/-! ## The laws of the default checksum (rule R185) -/

/-- A changed byte changes the sum: the bytes before and after it cancel. -/
theorem sum_append_cons_inj {s t : List Byte} {x y : Byte} : (s ++ x :: t).sum = (s ++ y :: t).sum ↔ x = y := by
  simp only [List.sum_append, List.sum_cons, add_right_inj, add_left_inj]

/-- Settles O34: the checksum is a sum of bytes, and equal sums modulo 256 are equal checksums by O33. -/
theorem defaultChecksumLaws : Obligations.DefaultChecksumLaws := by
  intro c hc
  simp only [csumOf_eq_sum hc]
  refine ⟨fun s t hperm => hperm.sum_eq, fun s t => List.sum_append, fun s t x y hne => ?_, fun s t _ hsum => ?_,
    fun s t => ?_⟩
  · exact sum_append_cons_inj.not.mpr hne
  · apply BitVec.eq_of_toNat_eq
    rw [toNat_sum, toNat_sum, hsum]
  · simp only [List.sum_append, List.sum_cons, BitVec.zero_add]

/-! ## The CSUM command (rule R184) -/

theorem exec_csum_outcome (span : List Byte) (s : State) :
    ReadOutcome { status := .ok, rdata := (csumOf s.cfg span).zeroExtend 64 } 0 s (exec (.csum span) s) :=
  readOutcome_respond s _ 0

/-- Rule R184's corner case of the longest span, all `0xFF`: `(255 * 255) mod 256`. -/
theorem sum_replicate_255_ff : (List.replicate 255 0xFF#8).sum = 0x01#8 := by
  apply BitVec.eq_of_toNat_eq
  rw [toNat_sum, List.map_replicate, List.sum_replicate]
  rfl

/-- Settles O32: the word is the command's encoding, and the two corner cases are sums of bytes. -/
theorem csumReturnsChecksum : Obligations.CsumReturnsChecksum := by
  refine ⟨fun span hspan => ?_, fun s span => exec_csum_outcome span s, fun c hc => ⟨?_, ?_⟩⟩
  · exact decode_encode_of_isCommand (i := .csum span) rfl (decide_eq_true hspan)
  · rw [csumOf_eq_sum hc, List.sum_nil]
    rfl
  · rw [csumOf_eq_sum hc, sum_replicate_255_ff]

end Sys2Proof.Machine
end

section
/-! SUPPORT. The statements of 42_send.md: a send that is answered, refused or left waiting, and the whole RECEIVE that takes the
frame a send has handed over. -/

namespace Sys2Proof.Machine

/-! ## The byte steps of a whole RECEIVE (43_receive.md rules R212, R226) -/

section
variable {s : State} {ch : ChIndex} {b : Byte} {rest sc : List Byte} {e : Event}

/-- A byte step that gives no packet goes on with the bytes after it. -/
theorem drain_cons_of_no_packet (h : rxByte s.cfg s.localAddr (s.parser ch) b = ⟨sc, e, none⟩) (p : PbIndex) :
    drain p ch (b :: rest) s = drain p ch rest ((s.setParser ch sc).emit ch e) := by
  simp [drain, State.rxAccepts, State.rxStep, h]

/-- A byte step that gives a packet copies it, leaves the bytes after it in the queue, and ends the command. -/
theorem drain_cons_of_packet {k : PacketBuffer} (h : rxByte s.cfg s.localAddr (s.parser ch) b = ⟨sc, e, some k⟩)
    (p : PbIndex) :
    drain p ch (b :: rest) s =
      ((((s.setParser ch sc).emit ch e).setPb p k).setRxq ch rest).respond (receiveResponse true) := by
  simp [drain, State.rxAccepts, State.rxStep, h]

end

section
variable {s t : State} {p : PbIndex} {ch : ChIndex} {q : List Byte}

/-- A RECEIVE whose byte steps end it. -/
theorem receiveAll_of_drain_done (hq : s.rxq ch = q) (h : drain p ch q { s with job := some (.receive p ch) } = t)
    (hj : t.job = none) : receiveAll p ch s = t := by
  simp [receiveAll, hq, h, hj]

/-- A RECEIVE whose byte steps leave it in progress answers "not yet". -/
theorem receiveAll_of_drain_receiving (hq : s.rxq ch = q) (h : drain p ch q { s with job := some (.receive p ch) } = t)
    (hj : t.job = some (.receive p ch)) : receiveAll p ch s = t.respond (receiveResponse false) := by
  simp [receiveAll, hq, h, hj]

end

theorem State.Inv.receiving {s : State} (hs : s.Inv) {p : PbIndex} {ch : ChIndex} (hp : p.toNat < s.cfg.nPb)
    (hch : ch.toNat < s.cfg.nCh) : State.Inv { s with job := some (.receive p ch) } :=
  { hs with job_wf := by simp [jobWf, hp, hch] }

/-! ### Over a frame (30_encoding.md rule R90) -/

/-- `s` after the bytes `sc` of a frame have been stepped and appended: `State.accumulated` without its write of the queue,
which a whole RECEIVE makes at its end. -/
def State.followed (s : State) (ch : ChIndex) (sc : List Byte) : State :=
  { s.setParser ch sc with events := s.events ++ List.replicate sc.length (ch, .appended) }

section
variable {s : State} {p : PbIndex} {ch : ChIndex} {sc q : List Byte}

theorem followed_nil (h : s.parser ch = []) : s.followed ch [] = s := by
  have hsame : s.setParser ch [] = s := h ▸ s.setParser_parser ch
  rw [State.followed, hsame, List.length_nil, List.replicate_zero, List.append_nil]

theorem parser_followed (hch : ch.toNat < s.parsers.length) : (s.followed ch sc).parser ch = sc :=
  State.parser_setParser_self hch sc

theorem followed_append (s : State) (ch : ChIndex) (sc : List Byte) (b : Byte) :
    ((s.followed ch sc).setParser ch (sc ++ [b])).emit ch .appended = s.followed ch (sc ++ [b]) := by
  simp [State.followed, State.setParser, State.emit, List.replicate_succ']

/-- The last byte brings the cursor back to 0. -/
theorem followed_done (h : s.parser ch = []) (sc : List Byte) (e : Event) :
    ((s.followed ch sc).setParser ch []).emit ch e = s.frameTaken ch sc.length e := by
  have hparsers : s.parsers.set ch.toNat [] = s.parsers := congrArg State.parsers (h ▸ s.setParser_parser ch)
  simp [State.followed, State.frameTaken, State.setParser, State.emit, hparsers]

theorem rxByte_followed (hch : ch.toNat < s.parsers.length) (b : Byte) :
    rxByte (s.followed ch sc).cfg (s.followed ch sc).localAddr ((s.followed ch sc).parser ch) b =
      rxByte s.cfg s.localAddr sc b := by
  rw [parser_followed hch]
  rfl

variable {dst src typ : Byte} {data : List Byte} (hs : s.Inv) (hch : ch.toNat < s.cfg.nCh) (hparser : s.parser ch = [])
  (hd : data.length ≤ s.cfg.maxDataLen)

include hs hch hd

/-- Every byte step before the last byte of a frame appends its byte. -/
theorem drain_frameBody (mid : List Byte) (h : frameBody dst src typ data = sc ++ mid) :
    drain p ch (mid ++ q) (s.followed ch sc) = drain p ch q (s.followed ch (sc ++ mid)) := by
  induction mid generalizing sc with
  | nil => rw [List.append_nil, List.nil_append]
  | cons b mid ih =>
    have hbyte := (rxByte_followed (hs.n_parsers ▸ hch) b).trans (rxByte_frameBody hs.cfg_legal hd h s.localAddr)
    rw [List.append_cons] at h ⊢
    calc drain p ch (b :: mid ++ q) (s.followed ch sc)
        = drain p ch (mid ++ q) (((s.followed ch sc).setParser ch (sc ++ [b])).emit ch .appended) :=
          drain_cons_of_no_packet hbyte p
      _ = drain p ch (mid ++ q) (s.followed ch (sc ++ [b])) := by rw [followed_append]
      _ = drain p ch q (s.followed ch (sc ++ [b] ++ mid)) := ih h

/-- What the step on the last byte of a frame gives. -/
theorem rxByte_followed_last :
    rxByte (s.followed ch (frameBody dst src typ data)).cfg (s.followed ch (frameBody dst src typ data)).localAddr
        ((s.followed ch (frameBody dst src typ data)).parser ch) (csumOf s.cfg ([dst, src, typ] ++ data)) =
      if filterPasses s.localAddr dst then ⟨[], .accepted, some ⟨dst, src, typ, data⟩⟩
      else ⟨[], .addressMismatch, none⟩ :=
  (rxByte_followed (hs.n_parsers ▸ hch) _).trans (rxByte_frame_last hs.cfg_legal hd s.localAddr)

include hparser

/-- The byte steps over a whole frame come to the step on its last byte. -/
theorem drain_wireFrame :
    drain p ch (wireFrame s.cfg dst src typ data) s =
      drain p ch [csumOf s.cfg ([dst, src, typ] ++ data)] (s.followed ch (frameBody dst src typ data)) := by
  have hbody := drain_frameBody (p := p) (sc := []) (q := [csumOf s.cfg ([dst, src, typ] ++ data)]) hs hch hd
    (frameBody dst src typ data) rfl
  rwa [followed_nil hparser] at hbody

theorem drain_wireFrame_of_passes (hpass : filterPasses s.localAddr dst = true) :
    drain p ch (wireFrame s.cfg dst src typ data) s =
      (((s.frameTaken ch (data.length + 5) .accepted).setPb p ⟨dst, src, typ, data⟩).setRxq ch []).respond
        (receiveResponse true) := by
  have hlast := rxByte_followed_last (dst := dst) (src := src) (typ := typ) hs hch hd
  rw [if_pos hpass] at hlast
  rw [drain_wireFrame hs hch hparser hd, drain_cons_of_packet hlast, followed_done hparser, length_frameBody]

theorem drain_wireFrame_of_not_passes (hpass : ¬ filterPasses s.localAddr dst = true) :
    drain p ch (wireFrame s.cfg dst src typ data) s =
      (s.frameTaken ch (data.length + 5) .addressMismatch).setRxq ch [] := by
  have hlast := rxByte_followed_last (dst := dst) (src := src) (typ := typ) hs hch hd
  rw [if_neg hpass] at hlast
  rw [drain_wireFrame hs hch hparser hd, drain_cons_of_no_packet hlast, followed_done hparser, length_frameBody, drain]

/-- A whole RECEIVE of a frame that the filter lets through. -/
theorem receiveAll_wireFrame_of_passes (hp : p.toNat < s.cfg.nPb) (hrxq : s.rxq ch = wireFrame s.cfg dst src typ data)
    (hpass : filterPasses s.localAddr dst = true) :
    receiveAll p ch s =
      (((s.frameTaken ch (data.length + 5) .accepted).setPb p ⟨dst, src, typ, data⟩).setRxq ch []).respond
        (receiveResponse true) :=
  receiveAll_of_drain_done hrxq (drain_wireFrame_of_passes (hs.receiving hp hch) hch hparser hd hpass) rfl

/-- A whole RECEIVE of a frame that the filter keeps out. -/
theorem receiveAll_wireFrame_of_not_passes (hp : p.toNat < s.cfg.nPb)
    (hrxq : s.rxq ch = wireFrame s.cfg dst src typ data) (hpass : ¬ filterPasses s.localAddr dst = true) :
    receiveAll p ch s =
      ((s.frameTaken ch (data.length + 5) .addressMismatch).setRxq ch []).respond (receiveResponse false) := by
  have hdrain := drain_wireFrame_of_not_passes (p := p) (src := src) (typ := typ) (hs.receiving hp hch) hch hparser hd hpass
  -- `respond` clears the command in progress that `hdrain` starts from
  exact (receiveAll_of_drain_receiving hrxq hdrain rfl).trans rfl

end

/-! ## A send that the transport answers (42_send.md rules R191 to R193, R195 to R197) -/

/-- Of the build, only the checksum function shows in a frame. -/
theorem wireFrame_of_csum_eq {c c' : Config} (h : c.csum = c'.csum) (dst src typ : Byte) (data : List Byte) :
    wireFrame c dst src typ data = wireFrame c' dst src typ data := by
  rw [wireFrame, wireFrame, csumOf, csumOf, h]

theorem writeAnswer_of_count {t : Transport} {w : WriteCount} {rest : List WriteAnswer} (h : t.answers = .count w :: rest)
    (d : Nat) : writeAnswer t d = some w := by
  rw [writeAnswer, h]

/-- Settles O50: the frame handed over is one that a parser in Idle follows to its last byte, where the checksum agrees because
the functions do, and the filter decides. -/
theorem sentFrameIsReceivedUnchanged : Obligations.SentFrameIsReceivedUnchanged := by
  intro s p ch dst typ w rest hs hp hch hans
  obtain ⟨t, ht, ⟨hhands, -⟩, -⟩ := sendPacket_sentOutcome hs hp hch (writeAnswer_of_count hans s.draws) dst (some typ)
  obtain ⟨-, -, -, -, -, -, -, -, -, hwrites⟩ := hhands
  refine ⟨t, _, ht, rfl, hwrites, fun r q c hr hq hc hcsum hfit hparser hrxq => ?_⟩
  rw [← wireFrame_of_csum_eq hcsum] at hrxq
  have htransport : c.toNat < r.transports.length := hr.ch_lt_transports hc
  rw [passes_iff]
  by_cases hpass : filterPasses r.localAddr dst = true
  · rw [receiveAll_wireFrame_of_passes hr hc hparser hfit hq hrxq hpass]
    exact ⟨hparser, State.rxq_setRxq_self (s := (r.frameTaken ..).setPb ..) htransport [],
      fun _ => ⟨State.pb_setPb_self (s := r.frameTaken ..) (hr.pb_lt_buffers hq) _, rfl, rfl⟩, fun h => absurd hpass h⟩
  · rw [receiveAll_wireFrame_of_not_passes hr hc hparser hfit hq hrxq hpass]
    exact ⟨hparser, State.rxq_setRxq_self (s := r.frameTaken ..) htransport [], fun h => absurd h hpass,
      fun _ => ⟨rfl, rfl, rfl⟩⟩

/-- Settles O35: the listed count is the answer, and no free one is drawn. -/
theorem sendHandsOverFrame : Obligations.SendHandsOverFrame := by
  intro s p ch dst typ w rest hs hp hch hans
  have hsent := sendPacket_sentOutcome hs hp hch (writeAnswer_of_count hans s.draws) dst
  rw [hans] at hsent
  exact ⟨hsent none, hsent (some typ)⟩

/-! ## A send that the transport leaves unanswered (70_reset_and_hazards.md rule R331) -/

theorem writeAnswer_of_silent {t : Transport} {rest : List WriteAnswer} (h : t.answers = .silent :: rest) (d : Nat) :
    writeAnswer t d = none := by
  rw [writeAnswer, h]

theorem sendWrite_of_no_answer {ch : ChIndex} {s : State} (h : writeAnswer (s.transport ch) s.draws = none)
    (f : List Byte) : sendWrite ch f s = { s.writeRequest ch f with job := some .awaitWrite } := by
  simp only [sendWrite, h]

/-- The command in progress is no part of handing over. -/
theorem HandsOver.setJob {p : PbIndex} {ch : ChIndex} {b : PacketBuffer} {s t : State} (h : HandsOver p ch b s t)
    (j : Option Job) : HandsOver p ch b s { t with job := j } := by
  obtain ⟨⟨hcfg, hcommands, hspan, hturns⟩, ⟨hcount, hothers⟩, hrest⟩ := h
  exact ⟨⟨hcfg, hcommands, hspan, hturns⟩, ⟨hcount, hothers⟩, hrest⟩

theorem step_of_awaiting {s : State} (ht : s.turns = []) (hj : s.job = some .awaitWrite) : step s = .next s := by
  have hf : fetch s = .settle s := by simp only [fetch, coreMove, ht, hj]
  exact step_of_settle hf

/-- A state that its step leaves as it is stays for ever. -/
theorem steps_of_step_self {s : State} (h : step s = .next s) (k : Nat) : steps k s = .next s := by
  induction k with
  | zero => rfl
  | succ k ih => exact (steps_succ_of_step h k).trans ih

theorem sendPacket_waitingOutcome {s : State} {p : PbIndex} {ch : ChIndex} {rest : List WriteAnswer} (hs : s.Inv)
    (hp : p.toNat < s.cfg.nPb) (hch : ch.toNat < s.cfg.nCh) (hans : (s.transport ch).answers = .silent :: rest)
    (ht : s.turns = []) (dst : Byte) (typ : Option Byte) :
    ∃ t, sendPacket p ch dst typ s = .next t ∧
      WaitingOutcome p ch (stamp (s.pb p) s.localAddr dst typ) rest s t := by
  set b := stamp (s.pb p) s.localAddr dst typ with hb
  have hanswer : writeAnswer ((s.setPb p b).transport ch) (s.setPb p b).draws = none := writeAnswer_of_silent hans _
  have hsend := sendPacket_of_fits hp hch (hs.len_pb_le p) dst typ
  rw [← hb, sendWrite_of_no_answer hanswer] at hsend
  have hown := State.transport_writeRequest_self (s := s.setPb p b) (hs.ch_lt_transports hch) (frameOf s.cfg b)
  rw [State.transport_setPb, hans] at hown
  have hdraws : ((s.setPb p b).writeRequest ch (frameOf s.cfg b)).draws = s.draws := by
    simp [State.writeRequest, hans]
  exact ⟨_, hsend, (handsOver_writeRequest hs hp hch b).setJob _, congrArg Transport.answers hown, hdraws, rfl, rfl,
    steps_of_step_self (step_of_awaiting ht rfl)⟩

/-- Settles O37: the request is made, and the core has no other move than to wait. -/
theorem sendWaitsForSilentTransport : Obligations.SendWaitsForSilentTransport := by
  intro s p ch dst typ rest hs hp hch hans ht
  have hwaits := sendPacket_waitingOutcome hs hp hch hans ht dst
  exact ⟨hwaits none, hwaits (some typ)⟩

/-! ## A send that is refused (42_send.md rules R194, R198) -/

theorem sendPacket_of_too_long {p : PbIndex} {ch : ChIndex} {s : State} (hp : p.toNat < s.cfg.nPb)
    (hch : ch.toNat < s.cfg.nCh) (hlong : s.cfg.maxDataLen < (s.pb p).payload.length) (dst : Byte) (typ : Option Byte) :
    sendPacket p ch dst typ s = .next ((s.setPb p (stamp (s.pb p) s.localAddr dst typ)).raise .payloadTooLarge) := by
  rw [sendPacket, ifBuffer_of_lt hp, ifChannel_of_lt hch]
  exact congrArg _ (if_pos hlong)

/-- Settles O38: the length is checked after the stamping and before the write. -/
theorem sendTooLargeKeepsStamps : Obligations.SendTooLargeKeepsStamps := by
  intro s p ch dst typ hp hbuf hch hlong
  have hrefused (ty : Option Byte) : ∃ t, sendPacket p ch dst ty s = .next t ∧ PacketFrame p s t ∧
      Answers { status := .payloadTooLarge } s t ∧ t.pb p = stamp (s.pb p) s.localAddr dst ty :=
    ⟨_, sendPacket_of_too_long hp hch hlong dst ty, packetFrame_setPb_respond .., ⟨rfl, rfl⟩, State.pb_setPb_self hbuf _⟩
  exact ⟨hrefused none, hrefused (some typ)⟩

end Sys2Proof.Machine
end

section
/-! SUPPORT. The statements of 43_receive.md: one pass of a RECEIVE, its passes against the whole command, bytes that arrive in
parts or meanwhile, and frames that are corrupted or come after noise. -/

namespace Sys2Proof.Machine

/-! ## The moves that run no new command (43_receive.md rule R226; 70_reset_and_hazards.md rules R311, R331) -/

theorem coreMove_of_receiving {s : State} {p : PbIndex} {ch : ChIndex} (hj : s.job = some (.receive p ch)) :
    coreMove s = .run (.receive p ch) s := by
  simp only [coreMove, hj]

theorem coreMove_of_awaiting {s : State} (hj : s.job = some .awaitWrite) : coreMove s = .settle s := by
  simp only [coreMove, hj]

theorem coreMove_of_no_command {s : State} (hj : s.job = none) (hc : s.commands = []) : coreMove s = .settle s := by
  simp only [coreMove, hj, hc]

theorem takeCommand_of_short_span {s : State} {c : HostCommand} (h : s.spanIn.length < spanNeed c.word)
    (rest : List HostCommand) : takeCommand s c rest = .settle s :=
  if_pos h

/-- Settles O10: with the core to move, the command in progress, the port and the span decide. -/
theorem stepOtherMoves : Obligations.StepOtherMoves := by
  refine ⟨fun s p ch ht hj => ?_, fun s ht hj => ?_, fun s ht hj hc => ?_, fun s c rest ht hj hc hspan => ?_,
    fun s ch bytes ts ht => step_of_run (fetch_of_deliver ht)⟩
  · exact step_of_run ((fetch_of_core_turn ht).trans (coreMove_of_receiving hj))
  · exact step_of_settle ((fetch_of_core_turn ht).trans (coreMove_of_awaiting hj))
  · exact step_of_settle ((fetch_of_core_turn ht).trans (coreMove_of_no_command hj hc))
  · apply step_of_settle
    calc fetch s
        = coreMove { s with turns := s.turns.tail } := fetch_of_core_turn ht
      _ = takeCommand { s with turns := s.turns.tail } c rest := coreMove_of_command hj hc
      _ = .settle { s with turns := s.turns.tail } :=
          takeCommand_of_short_span (s := { s with turns := s.turns.tail }) hspan rest

/-! ## RX.RESET (43_receive.md rule R229) -/

theorem State.Inv.ch_lt_parsers {s : State} (hs : s.Inv) {ch : ChIndex} (h : ch.toNat < s.cfg.nCh) :
    ch.toNat < s.parsers.length :=
  hs.n_parsers ▸ h

theorem exec_rxReset_of_lt {s : State} {ch : ChIndex} (hch : ch.toNat < s.cfg.nCh) :
    exec (.rxReset ch) s = .next (s.setParser ch []).done :=
  ifChannel_of_lt hch

/-- Settles O46: the word is the command's encoding, and one parser is written. -/
theorem rxResetEmptiesParser : Obligations.RxResetEmptiesParser := by
  refine ⟨fun ch => decode_encode_of_isCommand (i := .rxReset ch) rfl rfl, fun s ch hs hch => ?_⟩
  have hcursor := congrArg List.length (State.parser_setParser_self (hs.ch_lt_parsers hch) [])
  exact ⟨_, exec_rxReset_of_lt hch, hcursor, List.length_set, fun c hc => State.parser_setParser_ne hc [],
    ⟨rfl, rfl, rfl, rfl⟩, rfl, rfl, rfl, rfl, rfl, rfl, rfl⟩

/-! ## One pass of a RECEIVE (43_receive.md rule R226) -/

section
variable {s : State} {p : PbIndex} {ch : ChIndex} {b : Byte} {rest : List Byte}

theorem execReceive_of_nil (hp : p.toNat < s.cfg.nPb) (hch : ch.toNat < s.cfg.nCh) (hq : s.rxq ch = []) :
    execReceive p ch s = .next (s.respond (receiveResponse false)) := by
  rw [execReceive, ifBuffer_of_lt hp, ifChannel_of_lt hch, hq]

/-- `s` after a pass of a RECEIVE on `ch` has taken the head of the queue, with `rest` behind it, and its byte step has left
`sc` in the parser and emitted `e`. -/
def State.passed (s : State) (ch : ChIndex) (rest sc : List Byte) (e : Event) : State :=
  ((s.setRxq ch rest).setParser ch sc).emit ch e

theorem parser_passed (hch : ch.toNat < s.parsers.length) (rest sc : List Byte) (e : Event) :
    (s.passed ch rest sc e).parser ch = sc :=
  State.parser_setParser_self (s := s.setRxq ch rest) hch sc

theorem transport_passed (hch : ch.toNat < s.transports.length) (rest sc : List Byte) (e : Event) :
    (s.passed ch rest sc e).transport ch = { s.transport ch with rxq := rest } :=
  State.transport_setTransport_self hch _

theorem channelFrame_passed (s : State) (p : PbIndex) (ch : ChIndex) (rest sc : List Byte) (e : Event) (j : Option Job) :
    ChannelFrame p ch s { s.passed ch rest sc e with job := j } :=
  ⟨⟨rfl, rfl, rfl, rfl⟩, ⟨rfl, fun _ _ => rfl⟩, rfl, List.length_set,
    fun _ hc => State.parser_setParser_ne (s := s.setRxq ch rest) hc sc, List.length_set,
    fun _ hc => State.transport_setTransport_ne hc _⟩

theorem channelFrame_passed_copied (s : State) (p : PbIndex) (ch : ChIndex) (rest sc : List Byte) (e : Event)
    (k : PacketBuffer) (r : Response) : ChannelFrame p ch s ((s.passed ch rest sc e).setPb p k |>.respond r) :=
  ⟨⟨rfl, rfl, rfl, rfl⟩, ⟨List.length_set, fun _ hq => State.pb_setPb_ne hq k⟩, rfl, List.length_set,
    fun _ hc => State.parser_setParser_ne (s := s.setRxq ch rest) hc sc, List.length_set,
    fun _ hc => State.transport_setTransport_ne hc _⟩

/-- The five rows of R211 before completion, each as what the byte step leaves in the parser and emits (R216, R217, R218,
R224). -/
theorem rxByte_rows_before_completion {c : Config} {sc : List Byte} (hw : parserWf c sc = true) (a b : Byte)
    (h : 2 ≤ sc.length → sc.length ≠ (sc.getD 1 0).toNat + 1) :
    ∃ sc' e, rxByte c a sc b = ⟨sc', e, none⟩ ∧
      (sc.length = 0 → b = 0x02#8 → sc' = [b] ∧ e = .appended) ∧
      (sc.length = 0 → b ≠ 0x02#8 → sc' = [] ∧ e = .discarded) ∧
      (sc.length = 1 → 4 ≤ b.toNat ∧ b.toNat ≤ c.maxDataLen + 4 → sc' = [0x02#8, b] ∧ e = .appended) ∧
      (sc.length = 1 → ¬ (4 ≤ b.toNat ∧ b.toNat ≤ c.maxDataLen + 4) → sc' = [] ∧ e = .lengthOutOfRange) ∧
      (2 ≤ sc.length → sc' = sc ++ [b] ∧ e = .appended) := by
  simp only [← lenLegal_iff]
  rcases rxByte_before_completion (a := a) hw b h with
    ⟨h0, hb, hbyte⟩ | ⟨h0, hb, hbyte⟩ | ⟨h1, hl, hbyte⟩ | ⟨h1, hl, hbyte⟩ | ⟨h2, hbyte⟩
  · exact ⟨_, _, hbyte, by simp [h0, hb]⟩
  · exact ⟨_, _, hbyte, by simp [h0, hb]⟩
  · exact ⟨_, _, hbyte, by simp [h1, hl]⟩
  · exact ⟨_, _, hbyte, by simp [h1, hl]⟩
  · exact ⟨_, _, hbyte, by simp [h2, show sc.length ≠ 0 by omega, show sc.length ≠ 1 by omega]⟩

end

/-- Settles O39: the one pass over an empty queue only responds. -/
theorem receiveOnEmptyQueue : Obligations.ReceiveOnEmptyQueue := by
  intro s p ch hp hch hq
  rw [show exec (.receive p ch) s = _ from execReceive_of_nil hp hch hq]
  exact readOutcome_respond s _ 0

/-- Settles O40: the pass consumes the byte, and what it leaves in the parser is the byte step's. -/
theorem receivePassBeforeCompletion : Obligations.ReceivePassBeforeCompletion := by
  intro s p ch b rest hs hp hch hq hbefore
  obtain ⟨sc, e, hbyte, hsyn, hnoise, hlen, hbadLen, happend⟩ :=
    rxByte_rows_before_completion (parserWf_parser hs.parsers_wf ch) s.localAddr b hbefore
  have hleft {sc' : List Byte} {e' : Event} (h : sc = sc' ∧ e = e') :
      (s.passed ch rest sc e).parser ch = sc' ∧ (s.passed ch rest sc e).events = s.events ++ [(ch, e')] :=
    ⟨(parser_passed (hs.ch_lt_parsers hch) rest sc e).trans h.1, h.2 ▸ rfl⟩
  exact ⟨_, execReceive_of_no_packet hq hbyte hp hch, channelFrame_passed .., rfl, rfl, rfl, rfl,
    transport_passed (hs.ch_lt_transports hch) rest sc e, fun h0 hb => hleft (hsyn h0 hb), fun h0 hb => hleft (hnoise h0 hb),
    fun h1 hl => hleft (hlen h1 hl), fun h1 hl => hleft (hbadLen h1 hl), fun h2 => hleft (happend h2)⟩

/-- Settles O41: the byte step checks the sum and then the filter, and the pass copies the packet only when it gives one. -/
theorem receiveLastByteDecides : Obligations.ReceiveLastByteDecides := by
  intro s p ch b rest hs hp hch hq h2 hlast
  have hbyte := rxByte_last (a := s.localAddr) (parserWf_parser hs.parsers_wf ch) b h2 hlast
  have hparser := parser_passed (hs.ch_lt_parsers hch) rest []
  have htransport := transport_passed (hs.ch_lt_transports hch) rest []
  rw [passes_iff]
  have hcopied (k : PacketBuffer) : ((s.passed ch rest [] .accepted).setPb p k).pb p = k :=
    State.pb_setPb_self (s := s.passed ch rest [] .accepted) (hs.pb_lt_buffers hp) k
  by_cases hsum : csumOf s.cfg ((s.parser ch).drop 2) = b
  · rw [if_neg (not_not_intro hsum)] at hbyte
    by_cases hpass : filterPasses s.localAddr ((s.parser ch).getD 2 0) = true
    · rw [if_pos hpass] at hbyte
      exact ⟨_, execReceive_of_packet hq hbyte hp hch, channelFrame_passed_copied .., hparser .accepted, rfl,
        htransport .accepted, fun h => absurd hsum h, fun _ h => absurd hpass h,
        fun _ _ => ⟨rfl, ⟨rfl, rfl⟩, hcopied _⟩⟩
    · rw [if_neg hpass] at hbyte
      exact ⟨_, execReceive_of_no_packet hq hbyte hp hch, channelFrame_passed .., hparser .addressMismatch, rfl,
        htransport .addressMismatch, fun h => absurd hsum h, fun _ _ => ⟨rfl, rfl, rfl, rfl⟩, fun _ h => absurd h hpass⟩
  · rw [if_pos hsum] at hbyte
    exact ⟨_, execReceive_of_no_packet hq hbyte hp hch, channelFrame_passed .., hparser .checksumMismatch, rfl,
      htransport .checksumMismatch, fun _ => ⟨rfl, rfl, rfl, rfl⟩, fun h => absurd h hsum, fun h => absurd h hsum⟩

/-! ## The byte steps of a RECEIVE over the available bytes (43_receive.md rules R226, R227, R230) -/

theorem State.setRxq_setRxq (s : State) (ch : ChIndex) (q q' : List Byte) : (s.setRxq ch q).setRxq ch q' = s.setRxq ch q' := by
  have htransport : { (s.setRxq ch q).transport ch with rxq := q' } = { s.transport ch with rxq := q' } := by
    rcases s.transport_setTransport_cases ch ch { s.transport ch with rxq := q } with h | ⟨-, h⟩ <;>
      rw [State.setRxq, h]
  rw [State.setRxq, htransport]
  simp only [State.setRxq, State.setTransport, List.set_set]

section
variable {s : State} {p : PbIndex} {ch : ChIndex} {b : Byte} {rest q : List Byte}

theorem drain_cons_of_accepts (h : s.rxAccepts ch b = true) :
    drain p ch (b :: rest) s = ((s.rxStep p ch b).setRxq ch rest).respond (receiveResponse true) :=
  if_pos h

theorem drain_cons_of_not_accepts (h : s.rxAccepts ch b = false) :
    drain p ch (b :: rest) s = drain p ch rest (s.rxStep p ch b) :=
  if_neg (Bool.eq_false_iff.mp h)

/-- A run that does not end the command has not accepted its first byte (R227). -/
theorem not_accepts_of_drain_job (hj : (drain p ch (b :: rest) s).job ≠ none) : s.rxAccepts ch b = false := by
  by_contra ha
  rw [drain_cons_of_accepts (Bool.not_eq_false _ ▸ ha)] at hj
  exact hj rfl

/-- The byte steps take the bytes they are given: what the queue holds does not matter to them (R230). -/
theorem drain_setRxq (p : PbIndex) (ch : ChIndex) (q q' : List Byte) (s : State) :
    drain p ch q (s.setRxq ch q') = drain p ch q s := by
  induction q generalizing s with
  | nil => exact s.setRxq_setRxq ch q' []
  | cons b rest ih =>
    have haccepts : (s.setRxq ch q').rxAccepts ch b = s.rxAccepts ch b := rfl
    rw [drain, drain, haccepts, rxStep_setRxq, ih, State.setRxq_setRxq]

/-- What every byte step, every change of the queue and the response keep holds after the byte steps. -/
theorem drain_induction {P : State → Prop} (hstep : ∀ s b, P s → P (s.rxStep p ch b))
    (hqueue : ∀ s q, P s → P (s.setRxq ch q)) (hrespond : ∀ s r, P s → P (s.respond r)) (q : List Byte) (hs : P s) :
    P (drain p ch q s) := by
  induction q generalizing s with
  | nil => exact hqueue s [] hs
  | cons b rest ih =>
    rw [drain]
    split
    · exact hrespond _ _ (hqueue _ rest (hstep s b hs))
    · exact ih (hstep s b hs)

/-- Bytes of which none is accepted can be stepped before the others (R230). -/
theorem drain_append (hj : (drain p ch q s).job ≠ none) (q' : List Byte) :
    drain p ch (q ++ q') s = drain p ch q' (drain p ch q s) := by
  induction q generalizing s with
  | nil => exact (drain_setRxq p ch q' [] s).symm
  | cons b rest ih =>
    have ha := not_accepts_of_drain_job hj
    rw [drain_cons_of_not_accepts ha] at hj ⊢
    rw [List.cons_append, drain_cons_of_not_accepts ha, ih hj]

theorem State.Inv.setRxq (hs : s.Inv) (ch : ChIndex) (q : List Byte) : (s.setRxq ch q).Inv :=
  { hs with n_transports := List.length_set.trans hs.n_transports }

theorem State.Inv.rxStep (hs : s.Inv) (p : PbIndex) (ch : ChIndex) (b : Byte) : (s.rxStep p ch b).Inv := by
  have heffect := coreEffect_rxStep s p ch b (s.rxq ch)
  rw [s.setRxq_rxq] at heffect
  exact hs.of_coreEffect heffect (rxStep_cfg ..)

theorem State.Inv.drain (hs : s.Inv) (p : PbIndex) (ch : ChIndex) (q : List Byte) : (drain p ch q s).Inv :=
  drain_induction (fun _ b h => h.rxStep p ch b) (fun _ q h => h.setRxq ch q) (fun _ r h => h.respond r) q hs

theorem drain_cfg (p : PbIndex) (ch : ChIndex) (q : List Byte) (s : State) : (drain p ch q s).cfg = s.cfg :=
  drain_induction (P := fun t => t.cfg = s.cfg) (fun _ _ h => (rxStep_cfg ..).trans h) (fun _ _ h => h) (fun _ _ h => h) q rfl

theorem drain_localAddr (p : PbIndex) (ch : ChIndex) (q : List Byte) (s : State) : (drain p ch q s).localAddr = s.localAddr :=
  drain_induction (P := fun t => t.localAddr = s.localAddr) (fun _ _ h => (rxStep_localAddr ..).trans h) (fun _ _ h => h)
    (fun _ _ h => h) q rfl

/-- Byte steps that accept nothing give no response (R223, R227). -/
theorem drain_responses_of_job (hj : (drain p ch q s).job ≠ none) : (drain p ch q s).responses = s.responses :=
  ((drain_cases p ch q s).resolve_left fun h => hj h.2).1

theorem length_transports_drain (p : PbIndex) (ch : ChIndex) (q : List Byte) (s : State) :
    (drain p ch q s).transports.length = s.transports.length :=
  drain_induction (P := fun t => t.transports.length = s.transports.length)
    (fun _ _ h => (congrArg List.length (rxStep_transports ..)).trans h) (fun _ _ h => List.length_set.trans h)
    (fun _ _ h => h) q rfl

/-- Byte steps that accept nothing empty the queue (R226). -/
theorem rxq_drain_of_job (hch : ch.toNat < s.transports.length) (hj : (drain p ch q s).job ≠ none) :
    (drain p ch q s).rxq ch = [] := by
  induction q generalizing s with
  | nil => exact State.rxq_setRxq_self hch []
  | cons b rest ih =>
    have ha := not_accepts_of_drain_job hj
    rw [drain_cons_of_not_accepts ha] at hj ⊢
    exact ih ((rxStep_transports ..).symm ▸ hch) hj

end

/-! ## The passes of a RECEIVE are its byte steps (43_receive.md rule R226) -/

/-- A RECEIVE on `ch` into `PB[p]` is in progress in a good state, and no other agent is to move. -/
structure Receives (s : State) (p : PbIndex) (ch : ChIndex) : Prop where
  inv : s.Inv
  job : s.job = some (.receive p ch)
  turns : s.turns = []

section
variable {s : State} {p : PbIndex} {ch : ChIndex} {b : Byte} {rest q : List Byte}

theorem execReceive_of_cons (hp : p.toNat < s.cfg.nPb) (hch : ch.toNat < s.cfg.nCh) (hq : s.rxq ch = b :: rest) :
    execReceive p ch s = .next (if s.rxAccepts ch b then ((s.rxStep p ch b).setRxq ch rest).respond (receiveResponse true)
      else { (s.rxStep p ch b).setRxq ch rest with job := some (.receive p ch) }) := by
  rw [execReceive, ifBuffer_of_lt hp, ifChannel_of_lt hch, hq]
  simp only [rxStep_setRxq]

namespace Receives

variable (hs : Receives s p ch)
include hs

theorem indices_lt : p.toNat < s.cfg.nPb ∧ ch.toNat < s.cfg.nCh := by
  have hjob := hs.inv.job_wf
  rw [hs.job] at hjob
  simpa [jobWf] using hjob

theorem ch_lt_transports : ch.toNat < s.transports.length := hs.inv.ch_lt_transports hs.indices_lt.2

/-- A RECEIVE in progress with nothing available answers "not yet". -/
theorem step_of_nil (hq : s.rxq ch = []) : step s = .next (s.respond (receiveResponse false)) :=
  (step_of_receiving hs.turns hs.job).trans (execReceive_of_nil hs.indices_lt.1 hs.indices_lt.2 hq)

theorem step_of_accepts (hq : s.rxq ch = b :: rest) (ha : s.rxAccepts ch b = true) :
    step s = .next (((s.rxStep p ch b).setRxq ch rest).respond (receiveResponse true)) := by
  rw [step_of_receiving hs.turns hs.job, execReceive_of_cons hs.indices_lt.1 hs.indices_lt.2 hq, if_pos ha]

theorem step_of_not_accepts (hq : s.rxq ch = b :: rest) (ha : s.rxAccepts ch b = false) :
    step s = .next ((s.rxStep p ch b).setRxq ch rest) := by
  have hjob : ((s.rxStep p ch b).setRxq ch rest).job = some (.receive p ch) := (rxStep_job ..).trans hs.job
  rw [step_of_receiving hs.turns hs.job, execReceive_of_cons hs.indices_lt.1 hs.indices_lt.2 hq,
    if_neg (Bool.eq_false_iff.mp ha), ← hjob]

/-- A RECEIVE goes on after a byte that it does not accept. -/
theorem rxStep_setRxq (b : Byte) (rest : List Byte) : Receives ((s.rxStep p ch b).setRxq ch rest) p ch :=
  ⟨(hs.inv.rxStep p ch b).setRxq ch rest, (rxStep_job ..).trans hs.job, (rxStep_turns ..).trans hs.turns⟩

/-- The passes over the available bytes give what the byte steps give: either the last of the first `k` is accepted and the rest
stays in the queue, or all are stepped and the RECEIVE goes on with an empty queue. -/
theorem steps_drain (hq : s.rxq ch = q) :
    ((drain p ch q s).job = none ∧ (drain p ch q s).responses = s.responses ++ [receiveResponse true] ∧
      ∃ k, 1 ≤ k ∧ k ≤ q.length ∧ steps k s = .next (drain p ch q s) ∧ (drain p ch q s).rxq ch = q.drop k) ∨
    (Receives (drain p ch q s) p ch ∧ (drain p ch q s).responses = s.responses ∧ (drain p ch q s).buffers = s.buffers ∧
      (drain p ch q s).rxq ch = [] ∧ steps q.length s = .next (drain p ch q s)) := by
  induction q generalizing s with
  | nil =>
    have hsame : drain p ch [] s = s := by rw [drain, ← hq, s.setRxq_rxq]
    rw [hsame]
    exact .inr ⟨hs, rfl, rfl, hq, rfl⟩
  | cons b rest ih =>
    cases ha : s.rxAccepts ch b with
    | true =>
      rw [drain_cons_of_accepts ha]
      refine .inl ⟨rfl, ?_, 1, Nat.le_refl 1, Nat.succ_pos _, steps_succ_of_step (hs.step_of_accepts hq ha) 0, ?_⟩
      · exact congrArg (· ++ _) (rxStep_responses ..)
      · exact State.rxq_setRxq_self ((rxStep_transports ..).symm ▸ hs.ch_lt_transports) rest
    | false =>
      have hstep := steps_succ_of_step (hs.step_of_not_accepts hq ha)
      have hrest : ((s.rxStep p ch b).setRxq ch rest).rxq ch = rest :=
        State.rxq_setRxq_self ((rxStep_transports ..).symm ▸ hs.ch_lt_transports) rest
      have hresponses : ((s.rxStep p ch b).setRxq ch rest).responses = s.responses := rxStep_responses ..
      have hbuffers : ((s.rxStep p ch b).setRxq ch rest).buffers = s.buffers := rxStep_buffers_of_not_accepts p ha
      have hrun := ih (hs.rxStep_setRxq b rest) hrest
      rw [drain_setRxq, hresponses, hbuffers] at hrun
      rw [drain_cons_of_not_accepts ha]
      rcases hrun with ⟨hjob, hresp, k, h1, hk, hsteps, hrxq⟩ | ⟨hgoes, hresp, hbuf, hrxq, hsteps⟩
      · exact .inl ⟨hjob, hresp, k + 1, Nat.succ_pos k, Nat.succ_le_succ hk, (hstep k).trans hsteps, hrxq⟩
      · exact .inr ⟨hgoes, hresp, hbuf, hrxq, (hstep _).trans hsteps⟩

end Receives
end

theorem steps_add_of_steps {s t : State} {k : Nat} (h : steps k s = .next t) (m : Nat) : steps (k + m) s = steps m t := by
  induction k generalizing s with
  | zero =>
    cases h
    rw [Nat.zero_add]
  | succ k ih =>
    cases hstep : step s with
    | next u =>
      rw [steps_succ_of_step hstep] at h
      rw [Nat.add_right_comm, steps_succ_of_step hstep, ih h]
    | fault | refused => simp [steps, hstep] at h

/-- A byte step reads neither the responses given before nor the command in progress, and writes neither (R212). -/
theorem rxStep_of_other_answers (s : State) (p : PbIndex) (ch : ChIndex) (b : Byte) (rs : List Response) (j : Option Job) :
    State.rxStep { s with responses := rs, job := j } p ch b = { s.rxStep p ch b with responses := rs, job := j } := by
  have hparser : State.parser { s with responses := rs, job := j } ch = s.parser ch := rfl
  simp only [State.rxStep, hparser]
  cases (rxByte s.cfg s.localAddr (s.parser ch) b).packet <;> rfl

section
variable {s : State} {p : PbIndex} {ch : ChIndex}

/-- `s` with a RECEIVE on `ch` into `PB[p]` in progress: where the byte steps of a whole RECEIVE begin. -/
def State.started (s : State) (p : PbIndex) (ch : ChIndex) : State := { s with job := some (.receive p ch) }

theorem receives_started (hs : s.Inv) (hp : p.toNat < s.cfg.nPb) (hch : ch.toNat < s.cfg.nCh) (ht : s.turns = []) :
    Receives (s.started p ch) p ch :=
  ⟨hs.receiving hp hch, rfl, ht⟩

theorem rxStep_started (s : State) (p : PbIndex) (ch : ChIndex) (b : Byte) :
    (s.started p ch).rxStep p ch b = (s.rxStep p ch b).started p ch :=
  (rxStep_of_other_answers s p ch b s.responses _).trans (by rw [State.started, rxStep_responses])

/-- The first pass is the pass of a RECEIVE in progress. -/
theorem execReceive_started (hp : p.toNat < s.cfg.nPb) (hch : ch.toNat < s.cfg.nCh) :
    execReceive p ch (s.started p ch) = execReceive p ch s := by
  cases hq : s.rxq ch with
  | nil => rw [execReceive_of_nil hp hch hq, execReceive_of_nil (s := s.started p ch) hp hch hq]; rfl
  | cons b rest =>
    have haccepts : (s.started p ch).rxAccepts ch b = s.rxAccepts ch b := rfl
    rw [execReceive_of_cons hp hch hq, execReceive_of_cons (s := s.started p ch) hp hch hq, rxStep_started, haccepts]
    rfl

/-- The passes of a RECEIVE in progress give the whole command, after at most one per available byte and one to answer. -/
theorem steps_started (hs : s.Inv) (hp : p.toNat < s.cfg.nPb) (hch : ch.toNat < s.cfg.nCh) (ht : s.turns = []) :
    ∃ k, k ≤ (s.rxq ch).length ∧ steps (k + 1) (s.started p ch) = .next (receiveAll p ch s) := by
  rcases (receives_started hs hp hch ht).steps_drain (q := s.rxq ch) rfl with
    ⟨hjob, -, k, h1, hk, hsteps, -⟩ | ⟨hgoes, -, -, hrxq, hsteps⟩
  · obtain ⟨k, rfl⟩ := Nat.exists_eq_add_of_le' h1
    exact ⟨k, Nat.le_of_succ_le hk, (receiveAll_of_drain_done rfl rfl hjob).symm ▸ hsteps⟩
  · refine ⟨_, Nat.le_refl _, (steps_add_of_steps hsteps 1).trans ?_⟩
    rw [receiveAll_of_drain_receiving rfl rfl hgoes.job]
    exact steps_succ_of_step (hgoes.step_of_nil hrxq) 0

end

/-- Settles O43: the first pass is that of a RECEIVE in progress, whose passes give the whole command. -/
theorem receivePassesGiveWholeCommand : Obligations.ReceivePassesGiveWholeCommand := by
  intro s t p ch hs hp hch ht hexec
  obtain ⟨k, hk, hsteps⟩ := steps_started hs hp hch ht
  have hfirst : step (s.started p ch) = .next t :=
    (step_of_receiving (s := s.started p ch) ht rfl).trans ((execReceive_started hp hch).trans hexec)
  exact ⟨k, hk, (steps_succ_of_step hfirst k).symm.trans hsteps⟩

/-- Settles O48: the bytes join the queue, and the passes are the byte steps over it. -/
theorem bytesDuringReceiveAreConsumed : Obligations.BytesDuringReceiveAreConsumed := by
  intro s p ch bytes hinv hj ht
  have hs : Receives s p ch := ⟨hinv, hj, ht⟩
  have harrived : Receives (s.deliver ch bytes) p ch := ⟨hinv.setRxq ch _, hj, ht⟩
  have hqueue : (s.deliver ch bytes).rxq ch = s.rxq ch ++ bytes := State.rxq_setRxq_self hs.ch_lt_transports _
  refine ⟨_, exec_frame_of_lt hs.indices_lt.2 bytes, ?_⟩
  rw [← List.length_append]
  refine (harrived.steps_drain hqueue).imp id fun ⟨hgoes, hresponses, hbuffers, hrxq, hsteps⟩ => ?_
  exact ⟨hgoes.job.trans hj.symm, hresponses, hbuffers, hrxq, hsteps, _, hgoes.step_of_nil hrxq,
    ⟨⟨rfl, rfl, rfl, rfl⟩, rfl, rfl, rfl, rfl, rfl⟩, rfl, rfl, rfl⟩

/-! ## The whole RECEIVE (43_receive.md rules R223, R227, R230) -/

/-- A whole RECEIVE whose byte steps accept nothing answers "not yet", with every packet buffer as it was; any other answers
"ready". -/
theorem receiveAll_cases (p : PbIndex) (ch : ChIndex) (s : State) :
    ((drain p ch (s.rxq ch) (s.started p ch)).job = none ∧ receiveAll p ch s = drain p ch (s.rxq ch) (s.started p ch) ∧
      (receiveAll p ch s).responses = s.responses ++ [receiveResponse true]) ∨
    ((drain p ch (s.rxq ch) (s.started p ch)).job = some (.receive p ch) ∧
      receiveAll p ch s = (drain p ch (s.rxq ch) (s.started p ch)).respond (receiveResponse false) ∧
      (receiveAll p ch s).responses = s.responses ++ [receiveResponse false] ∧ (receiveAll p ch s).buffers = s.buffers) := by
  rcases drain_cases p ch (s.rxq ch) (s.started p ch) with ⟨hresponses, hjob⟩ | ⟨hresponses, hjob, hbuffers⟩
  · have hall := receiveAll_of_drain_done (s := s) rfl rfl hjob
    exact .inl ⟨hjob, hall, hall ▸ hresponses⟩
  · have hall := receiveAll_of_drain_receiving (s := s) rfl rfl hjob
    refine .inr ⟨hjob, hall, ?_, hall ▸ hbuffers⟩
    rw [hall]
    exact congrArg (· ++ _) hresponses

/-- Settles O44: only an acceptance writes a packet buffer or leaves bytes in the queue, and it answers flag 1. -/
theorem receiveNotReadyKeepsBuffers : Obligations.ReceiveNotReadyKeepsBuffers := by
  intro s p ch
  rcases receiveAll_cases p ch s with ⟨-, -, hresponses⟩ | ⟨hjob, hall, hresponses, hbuffers⟩
  · exact .inl hresponses
  · refine .inr ⟨hresponses, hbuffers, fun hch => ?_⟩
    rw [hall]
    exact rxq_drain_of_job (s := s.started p ch) hch (by simp [hjob])

/-! ### Delivery in two parts (43_receive.md rule R230) -/

/-- `s` with other responses given before. -/
def State.setResponses (s : State) (rs : List Response) : State := { s with responses := rs }

section
variable {s t : State} {p : PbIndex} {ch : ChIndex} {q q' : List Byte}

theorem rxStep_setResponses (s : State) (p : PbIndex) (ch : ChIndex) (b : Byte) (rs : List Response) :
    (s.setResponses rs).rxStep p ch b = (s.rxStep p ch b).setResponses rs :=
  (rxStep_of_other_answers s p ch b rs s.job).trans (by rw [State.setResponses, rxStep_job])

/-- No byte step reads the responses given before: the ones it gives are added to whatever these are. -/
theorem drain_setResponses (p : PbIndex) (ch : ChIndex) (q : List Byte) (s : State) :
    ((drain p ch q s).job = none ∧
      ∀ rs, drain p ch q (s.setResponses rs) = (drain p ch q s).setResponses (rs ++ [receiveResponse true])) ∨
    ((drain p ch q s).job = s.job ∧ ∀ rs, drain p ch q (s.setResponses rs) = (drain p ch q s).setResponses rs) := by
  induction q generalizing s with
  | nil => exact .inr ⟨rfl, fun _ => rfl⟩
  | cons b rest ih =>
    cases ha : s.rxAccepts ch b with
    | true =>
      refine .inl ⟨by rw [drain_cons_of_accepts ha]; rfl, fun rs => ?_⟩
      rw [drain_cons_of_accepts ha, drain_cons_of_accepts (s := s.setResponses rs) ha, rxStep_setResponses]
      rfl
    | false =>
      have hrest (rs : List Response) :
          drain p ch (b :: rest) (s.setResponses rs) = drain p ch rest ((s.rxStep p ch b).setResponses rs) := by
        rw [drain_cons_of_not_accepts (s := s.setResponses rs) ha, rxStep_setResponses]
      simp only [hrest, drain_cons_of_not_accepts ha, ← rxStep_job s p ch b]
      exact ih (s.rxStep p ch b)

theorem receiveAll_setResponses (p : PbIndex) (ch : ChIndex) (s : State) :
    ∃ r, ∀ rs, receiveAll p ch (s.setResponses rs) = (receiveAll p ch s).setResponses (rs ++ [r]) := by
  rcases drain_setResponses p ch (s.rxq ch) (s.started p ch) with ⟨hjob, hdrain⟩ | ⟨hjob, hdrain⟩
  · refine ⟨receiveResponse true, fun rs => ?_⟩
    rw [receiveAll_of_drain_done (s := s) rfl rfl hjob]
    exact receiveAll_of_drain_done (s := s.setResponses rs) rfl (hdrain rs) hjob
  · refine ⟨receiveResponse false, fun rs => ?_⟩
    rw [receiveAll_of_drain_receiving (s := s) rfl rfl hjob]
    exact receiveAll_of_drain_receiving (s := s.setResponses rs) rfl (hdrain rs) hjob

theorem receiveAll_eq_of_drain_eq (hs : s.rxq ch = q) (ht : t.rxq ch = q')
    (h : drain p ch q (s.started p ch) = drain p ch q' (t.started p ch)) : receiveAll p ch s = receiveAll p ch t := by
  rw [receiveAll, receiveAll, hs, ht]
  rw [State.started, State.started] at h
  rw [h]

theorem started_of_job (h : s.job = some (.receive p ch)) : s.started p ch = s := by
  rw [State.started, ← h]

/-- A RECEIVE over bytes of which it accepts none of the first ones is a RECEIVE over the others from where these have led. -/
theorem receiveAll_setRxq_append (hch : ch.toNat < s.transports.length)
    (hj : (drain p ch q (s.started p ch)).job = some (.receive p ch)) :
    receiveAll p ch (s.setRxq ch (q ++ q')) = receiveAll p ch ((drain p ch q (s.started p ch)).setRxq ch q') := by
  have hch' : ch.toNat < (drain p ch q (s.started p ch)).transports.length := by
    rw [length_transports_drain]
    exact hch
  refine receiveAll_eq_of_drain_eq (State.rxq_setRxq_self hch _) (State.rxq_setRxq_self hch' _) ?_
  calc drain p ch (q ++ q') ((s.setRxq ch (q ++ q')).started p ch)
      = drain p ch (q ++ q') (s.started p ch) := drain_setRxq p ch (q ++ q') (q ++ q') (s.started p ch)
    _ = drain p ch q' (drain p ch q (s.started p ch)) := drain_append (by simp [hj]) q'
    _ = drain p ch q' (((drain p ch q (s.started p ch)).setRxq ch q').started p ch) := by
      rw [started_of_job (s := (drain p ch q (s.started p ch)).setRxq ch q') hj, drain_setRxq]

/-- Where a RECEIVE that answers "not yet" stops: with an empty queue, and where a RECEIVE over more bytes goes on. -/
theorem receiveAll_of_not_ready (hch : ch.toNat < s.transports.length)
    (h : (receiveAll p ch (s.setRxq ch q)).responses = s.responses ++ [receiveFlag false]) :
    ∃ d : State, receiveAll p ch (s.setRxq ch q) = d.respond (receiveResponse false) ∧ d.rxq ch = [] ∧
      d.responses = s.responses ∧ ∀ q', receiveAll p ch (s.setRxq ch (q ++ q')) = receiveAll p ch (d.setRxq ch q') := by
  have hdrain : drain p ch q ((s.setRxq ch q).started p ch) = drain p ch q (s.started p ch) :=
    drain_setRxq p ch q q (s.started p ch)
  have hcases := receiveAll_cases p ch (s.setRxq ch q)
  rw [State.rxq_setRxq_self hch, hdrain] at hcases
  rcases hcases with ⟨-, -, hready⟩ | ⟨hjob, hall, -, -⟩
  · exact absurd (List.append_cancel_left (h.symm.trans hready)) (by decide)
  · have hgoes : (drain p ch q (s.started p ch)).job ≠ none := by simp [hjob]
    exact ⟨_, hall, rxq_drain_of_job (s := s.started p ch) hch hgoes, drain_responses_of_job hgoes,
      fun q' => receiveAll_setRxq_append hch hjob⟩

end

/-- Settles O45: the first RECEIVE stops where the one over all the bytes goes on, and only the responses tell them apart. -/
theorem splitDeliveryMakesNoDifference : Obligations.SplitDeliveryMakesNoDifference := by
  intro s p ch xs ys hs hp hch _ hq first second whole hfirst
  have hdeliver (bs : List Byte) : s.deliver ch bs = s.setRxq ch bs := by rw [State.deliver, hq, List.nil_append]
  have hstart : first = receiveAll p ch (s.setRxq ch xs) := congrArg (receiveAll p ch) (hdeliver xs)
  obtain ⟨d, hd, hempty, hresponses, hgoesOn⟩ :=
    receiveAll_of_not_ready (hs.ch_lt_transports hch) (hstart ▸ hfirst)
  obtain ⟨r, hr⟩ := receiveAll_setResponses p ch (d.setRxq ch ys)
  have hwhole : whole = receiveAll p ch (d.setRxq ch ys) :=
    (congrArg (receiveAll p ch) (hdeliver (xs ++ ys))).trans (hgoesOn ys)
  have hrest : first.deliver ch ys = (d.respond (receiveResponse false)).setRxq ch ys := by
    rw [hstart, hd, State.deliver, State.rxq_respond, hempty, List.nil_append]
  -- the responses given before are all that `first` and `d` differ in, as a RECEIVE sees them
  have hsecond : second = whole.setResponses (d.responses ++ [receiveFlag false] ++ [r]) :=
    calc second
        = receiveAll p ch ((d.respond (receiveResponse false)).setRxq ch ys) :=
          congrArg (receiveAll p ch) hrest
      _ = receiveAll p ch ((d.setRxq ch ys).setResponses (d.responses ++ [receiveFlag false])) := rfl
      _ = whole.setResponses (d.responses ++ [receiveFlag false] ++ [r]) := by rw [hr, hwhole]
  have hanswer : whole.responses = d.responses ++ [r] := hwhole ▸ congrArg State.responses (hr d.responses)
  rw [hsecond, ← hresponses]
  exact ⟨rfl, rfl, rfl, rfl, r, hanswer, List.append_assoc ..⟩

/-! ## Noise and frames (43_receive.md rules R224, R231, R232) -/

theorem rxByte_of_idle_not_syn {b : Byte} (h : b ≠ 0x02#8) (c : Config) (a : Byte) :
    rxByte c a [] b = ⟨[], .discarded, none⟩ :=
  if_neg h

theorem rxByte_of_second_syn (c : Config) (a : Byte) : rxByte c a [0x02#8] 0x02#8 = ⟨[], .lengthOutOfRange, none⟩ := by
  have hshort : ¬ lenLegal c 0x02#8 = true := by simp [lenLegal_iff]
  show rxLength c [0x02#8] 0x02#8 = _
  rw [rxLength, if_neg hshort]

section
variable {s : State} {p : PbIndex} {ch : ChIndex}

theorem drain_cons_of_idle_not_syn {b : Byte} (hparser : s.parser ch = []) (h : b ≠ 0x02#8) (p : PbIndex) (rest : List Byte) :
    drain p ch (b :: rest) s = drain p ch rest (s.emit ch .discarded) := by
  have hbyte := rxByte_of_idle_not_syn h s.cfg s.localAddr
  have hsame : s.setParser ch [] = s := hparser ▸ s.setParser_parser ch
  rw [← hparser] at hbyte
  rw [drain_cons_of_no_packet hbyte, hparser, hsame]

/-- Bytes without a SYN leave a parser in Idle there (R216). -/
theorem drain_noise {noise : List Byte} (hparser : s.parser ch = []) (h : ∀ b ∈ noise, b ≠ 0x02#8) :
    (drain p ch noise s).job = s.job ∧ (drain p ch noise s).parser ch = [] := by
  induction noise generalizing s with
  | nil => exact ⟨rfl, hparser⟩
  | cons b rest ih =>
    obtain ⟨hb, hrest⟩ := List.forall_mem_cons.mp h
    rw [drain_cons_of_idle_not_syn hparser hb]
    exact ih (s := s.emit ch .discarded) hparser hrest

variable {dst src typ y : Byte} {data noise : List Byte}

/-- A RECEIVE accepts a frame behind bytes of which it accepts none and after which its parser is in Idle. -/
theorem receiveAll_noise_wireFrame (hs : s.Inv) (hp : p.toNat < s.cfg.nPb) (hch : ch.toNat < s.cfg.nCh)
    (hd : data.length ≤ s.cfg.maxDataLen) (hpass : Passes s.localAddr dst)
    (hq : s.rxq ch = noise ++ wireFrame s.cfg dst src typ data)
    (hjob : (drain p ch noise (s.started p ch)).job = some (.receive p ch))
    (hparser : (drain p ch noise (s.started p ch)).parser ch = []) :
    (receiveAll p ch s).pb p = ⟨dst, src, typ, data⟩ ∧ Answers (receiveFlag true) s (receiveAll p ch s) := by
  have hinv : (drain p ch noise (s.started p ch)).Inv := (hs.receiving hp hch).drain p ch noise
  have hcfg : (drain p ch noise (s.started p ch)).cfg = s.cfg := drain_cfg p ch noise (s.started p ch)
  have haddr : (drain p ch noise (s.started p ch)).localAddr = s.localAddr := drain_localAddr p ch noise (s.started p ch)
  have hresponses : (drain p ch noise (s.started p ch)).responses = s.responses :=
    drain_responses_of_job (s := s.started p ch) (by simp [hjob])
  have hframe := drain_append (p := p) (ch := ch) (q := noise) (s := s.started p ch) (by simp [hjob])
    (wireFrame s.cfg dst src typ data)
  generalize drain p ch noise (s.started p ch) = d at *
  rw [← hcfg] at hch hd hp hframe
  rw [drain_wireFrame_of_passes hinv hch hparser hd (haddr ▸ passes_iff.mp hpass), hcfg] at hframe
  rw [receiveAll_of_drain_done hq hframe rfl]
  exact ⟨State.pb_setPb_self (s := d.frameTaken ch _ .accepted) (hinv.pb_lt_buffers hp) _,
    congrArg (· ++ _) hresponses, rfl⟩

end

/-- Settles O52: the noise leads to a parser in Idle, from where the frame is accepted. -/
theorem frameAfterNoiseIsReceived : Obligations.FrameAfterNoiseIsReceived := by
  intro s p ch noise dst src typ data hs hp hch hd hpass hq
  refine ⟨receiveAll_noise_wireFrame hs hp hch hd hpass hq, fun hparser hnoise => ?_⟩
  obtain ⟨hjob, hidle⟩ := drain_noise (s := s.started p ch) (p := p) hparser hnoise
  exact receiveAll_noise_wireFrame hs hp hch hd hpass hq hjob hidle

theorem State.setParser_setParser (s : State) (ch : ChIndex) (sc sc' : List Byte) :
    (s.setParser ch sc).setParser ch sc' = s.setParser ch sc' := by
  simp only [State.setParser, List.set_set]

/-- The first SYN is kept, the second empties the parser, and the byte after it finds the parser in Idle (R224). -/
theorem drain_second_syn {s : State} {ch : ChIndex} (hch : ch.toNat < s.parsers.length) (hparser : s.parser ch = [])
    (p : PbIndex) :
    drain p ch [0x02#8, 0x02#8, 0x08#8] s =
      (((s.emit ch .appended).emit ch .lengthOutOfRange).emit ch .discarded).setRxq ch [] := by
  have hsame : s.setParser ch [] = s := hparser ▸ s.setParser_parser ch
  have hfirst : rxByte s.cfg s.localAddr (s.parser ch) 0x02#8 = ⟨[0x02#8], .appended, none⟩ := by
    rw [hparser]
    rfl
  have hsecond : rxByte s.cfg s.localAddr (((s.setParser ch [0x02#8]).emit ch .appended).parser ch) 0x02#8 =
      ⟨[], .lengthOutOfRange, none⟩ := by
    rw [State.parser_emit, State.parser_setParser_self hch]
    exact rxByte_of_second_syn ..
  calc drain p ch [0x02#8, 0x02#8, 0x08#8] s
      = drain p ch [0x02#8, 0x08#8] ((s.setParser ch [0x02#8]).emit ch .appended) := drain_cons_of_no_packet hfirst p
    _ = drain p ch [0x08#8] ((((s.setParser ch [0x02#8]).setParser ch []).emit ch .appended).emit ch .lengthOutOfRange) :=
      drain_cons_of_no_packet hsecond p
    _ = drain p ch [0x08#8] ((s.emit ch .appended).emit ch .lengthOutOfRange) := by rw [State.setParser_setParser, hsame]
    _ = _ := drain_cons_of_idle_not_syn (s := (s.emit ch .appended).emit ch .lengthOutOfRange) hparser (by decide) p []

/-- Settles O42: the three byte steps end in Idle and give no packet. -/
theorem secondSynIsNotReinterpreted : Obligations.SecondSynIsNotReinterpreted := by
  intro s p ch hs hp hch hparser hq
  have hdrain := drain_second_syn (s := s.started p ch) (hs.ch_lt_parsers hch) hparser p
  rw [receiveAll_of_drain_receiving hq hdrain rfl]
  refine ⟨hparser, ?_, rfl, ⟨rfl, rfl⟩, ?_⟩
  · exact State.rxq_setRxq_self (s := State.emit _ ch .discarded) (hs.ch_lt_transports hch) []
  · simp [State.setRxq, State.started]

/-! ### A changed byte (43_receive.md rule R232 a, b) -/

/-- With one byte changed, be it of the bytes summed or the sum itself, the sum is wrong. -/
theorem exists_wrong_sum_of_set {region : List Byte} {j : Nat} {x : Byte} (hj : j < region.length + 1)
    (hne : (region ++ [region.sum])[j]? ≠ some x) :
    ∃ region' y, (region ++ [region.sum]).set j x = region' ++ [y] ∧ region'.length = region.length ∧
      region'.sum ≠ y := by
  rcases Nat.lt_succ_iff_lt_or_eq.mp hj with hlt | rfl
  · refine ⟨region.set j x, region.sum, List.set_append_left _ _ hlt, List.length_set, ?_⟩
    rw [List.getElem?_append_left hlt, List.getElem?_eq_getElem hlt] at hne
    have hsplit : region = region.take j ++ region[j] :: region.drop (j + 1) := by simp
    have hsum : region.sum = (region.take j ++ region[j] :: region.drop (j + 1)).sum := congrArg List.sum hsplit
    rw [List.set_eq_take_append_cons_drop, if_pos hlt, hsum]
    exact sum_append_cons_inj.not.mpr fun h => hne (h ▸ rfl)
  · refine ⟨region, x, by simp, rfl, ?_⟩
    simpa using hne

/-- A frame with a changed byte is a frame with a wrong checksum. -/
theorem exists_wrong_csum_of_wireFrame_set {c : Config} {dst src typ x : Byte} {data : List Byte} {i : Nat}
    (hc : c.csum = .additive) (h2 : 2 ≤ i) (hi : i < data.length + 6) (hne : (wireFrame c dst src typ data)[i]? ≠ some x) :
    ∃ dst' src' typ' data' y, data'.length = data.length ∧
      (wireFrame c dst src typ data).set i x = frameBody dst' src' typ' data' ++ [y] ∧
      csumOf c ([dst', src', typ'] ++ data') ≠ y := by
  obtain ⟨j, rfl⟩ := Nat.exists_eq_add_of_le' h2
  simp only [csumOf_eq_sum hc]
  have hframe : wireFrame c dst src typ data = 0x02#8 :: BitVec.ofNat 8 (data.length + 4) ::
    ([dst, src, typ] ++ data ++ [([dst, src, typ] ++ data).sum]) := by
    rw [← csumOf_eq_sum hc]; rfl
  rw [hframe] at hne ⊢
  obtain ⟨region, y, hset, hlen, hsum⟩ := exists_wrong_sum_of_set (region := [dst, src, typ] ++ data) (j := j) (x := x)
    (by simp; omega) hne
  match region, hlen with
  | dst' :: src' :: typ' :: data', hlen =>
    have hlen' : data'.length = data.length := by simpa using hlen
    refine ⟨dst', src', typ', data', y, hlen', ?_, hsum⟩
    rw [List.set_cons_succ, List.set_cons_succ, hset, frameBody, hlen']
    rfl

/-- The last byte of a frame fails the checksum when it is not the sum of the bytes before it. -/
theorem rxByte_frame_last_of_csum_ne {c : Config} {dst src typ y : Byte} {data : List Byte} (hc : c.Legal)
    (hd : data.length ≤ c.maxDataLen) (h : csumOf c ([dst, src, typ] ++ data) ≠ y) (a : Byte) :
    rxByte c a (frameBody dst src typ data) y = ⟨[], .checksumMismatch, none⟩ := by
  have hlast : (frameBody dst src typ data).length = ((frameBody dst src typ data).getD 1 0).toNat + 1 := by
    rw [length_frameBody]
    exact congrArg (· + 1) (toNat_frameLen hc hd).symm
  rw [rxByte_last (parserWf_frameBody hc hd) _ (by rw [length_frameBody]; omega) hlast]
  exact if_pos h

section
variable {s : State} {p : PbIndex} {ch : ChIndex} {dst src typ y : Byte} {data : List Byte}

/-- The byte steps over a frame with a wrong checksum append every byte and drop them at the last. -/
theorem drain_frameBody_of_csum_ne (hs : s.Inv) (hch : ch.toNat < s.cfg.nCh) (hparser : s.parser ch = [])
    (hd : data.length ≤ s.cfg.maxDataLen) (h : csumOf s.cfg ([dst, src, typ] ++ data) ≠ y) :
    drain p ch (frameBody dst src typ data ++ [y]) s =
      (s.frameTaken ch (data.length + 5) .checksumMismatch).setRxq ch [] := by
  have hbody := drain_frameBody (p := p) (sc := []) (q := [y]) hs hch hd (frameBody dst src typ data) rfl
  have hlast := (rxByte_followed (hs.ch_lt_parsers hch) y).trans (rxByte_frame_last_of_csum_ne hs.cfg_legal hd h s.localAddr)
  rw [followed_nil hparser, List.nil_append] at hbody
  rw [hbody, drain_cons_of_no_packet hlast, followed_done hparser, length_frameBody, drain]

end

/-- Settles O51: the changed frame has a wrong checksum, which its last byte shows. -/
theorem corruptedByteIsCaught : Obligations.CorruptedByteIsCaught := by
  intro s p ch dst src typ data i x hs hp hch hc hd hparser h2 hi hne hq
  obtain ⟨dst', src', typ', data', y, hlen, hset, hsum⟩ := exists_wrong_csum_of_wireFrame_set hc h2 hi hne
  rw [← hlen] at hd
  have hdrain := drain_frameBody_of_csum_ne (s := s.started p ch) (p := p) (hs.receiving hp hch) hch hparser hd hsum
  rw [receiveAll_of_drain_receiving (hq.trans hset) hdrain rfl, hlen]
  exact ⟨rfl, ⟨rfl, rfl⟩, hparser, rfl⟩

end Sys2Proof.Machine
end

section
/-! SUPPORT. The statements of 44_system.md: the commands that write and read `LOCAL_ADDR`, and the reset by command. -/

namespace Sys2Proof.Machine

/-! ## The local address (44_system.md rules R250, R251) -/

theorem exec_cfgWraddr_eq (a : Byte) (s : State) :
    exec (.cfgWraddr a) s = .next (State.respond { s with localAddr := a } { status := .ok }) := rfl

/-- Settles O53: the word is the command's encoding, and only `LOCAL_ADDR` is written. -/
theorem cfgWraddrSetsLocalAddr : Obligations.CfgWraddrSetsLocalAddr := by
  refine ⟨fun a => decode_encode_of_isCommand (i := .cfgWraddr a) rfl rfl, fun s a => ?_⟩
  have hexec := exec_cfgWraddr_eq a s
  exact ⟨_, hexec, rfl, rfl, rfl, rfl, rfl, rfl, exec_sameOutside hexec, ⟨rfl, rfl⟩⟩

theorem exec_cfgRdaddr_outcome (s : State) :
    ReadOutcome { status := .ok, rdata := s.localAddr.zeroExtend 64 } 0 s (exec .cfgRdaddr s) :=
  readOutcome_respond s _ 0

/-- Settles O54: a read of `LOCAL_ADDR`, of which the value after reset is one case. -/
theorem cfgRdaddrReturnsLocalAddr : Obligations.CfgRdaddrReturnsLocalAddr :=
  ⟨decode_encode_of_isCommand (i := .cfgRdaddr) rfl rfl, exec_cfgRdaddr_outcome,
    fun c => exec_cfgRdaddr_outcome (State.initial c)⟩

/-! ## SYS.RESET (44_system.md rule R252) -/

theorem exec_sysReset_eq (s : State) : exec .sysReset s = .next (s.resetCore.respond { status := .ok }) := rfl

/-- Settles O17: the word is the command's encoding, and the command answers from the core that the reset leaves. -/
theorem sysResetGivesResetValues : Obligations.SysResetGivesResetValues := by
  refine ⟨decode_encode_of_isCommand (i := .sysReset) rfl rfl, fun s => ?_⟩
  have hexec := exec_sysReset_eq s
  exact ⟨_, hexec, s.resetCore_buffers, s.resetCore_parsers, s.resetCore_localAddr, s.resetCore_transports,
    s.resetCore_events, s.resetCore_draws, exec_sameOutside hexec, ⟨rfl, rfl⟩⟩

end Sys2Proof.Machine
end

section
/-! SUPPORT. The statement of 60_exceptions.md: the core runs commands only, so no move but a delivery can stop the machine. -/

namespace Sys2Proof.Machine

/-! ## The core runs host commands only (30_encoding.md rule R101) -/

/-- No row of the command words builds a delivery. -/
theorem isCommand_of_buildInstr {o : Op} {w : CmdWord} {d : Scalar} {span : List Byte} {i : Instr}
    (h : buildInstr o w d span = .ok i) : i.isCommand = true := by
  cases o with
  | pbRdhdr | pbWrhdr =>
    -- the rows with a header selector, which builds nothing when it is reserved
    simp only [buildInstr] at h
    split at h <;> cases h
    rfl
  | _ =>
    cases h
    rfl

theorem isCommand_of_decode_command {w : CmdWord} {d : Scalar} {span : List Byte} {i : Instr}
    (h : decode (.command w d span) = .ok i) : i.isCommand = true := by
  obtain ⟨_, -, -, hi⟩ := decode_command_eq_ok_iff.mp h
  exact isCommand_of_buildInstr hi

theorem isCommand_of_takeCommand_run {s u : State} {c : HostCommand} {rest : List HostCommand} {i : Instr}
    (h : takeCommand s c rest = .run i u) : i.isCommand = true := by
  unfold takeCommand at h
  split at h
  · cases h
  · split at h <;> cases h
    exact isCommand_of_decode_command ‹_›

theorem isCommand_of_coreMove_run {s u : State} {i : Instr} (h : coreMove s = .run i u) : i.isCommand = true := by
  unfold coreMove at h
  split at h
  · cases h
    rfl
  · cases h
  · split at h
    · cases h
    · exact isCommand_of_takeCommand_run h

/-! ## The machine never halts by itself (00_scope.md rule R17, 60_exceptions.md rule R280) -/

theorem step_answers_of_core_turn {s : State} (ht : s.turns = [] ∨ ∃ ts, s.turns = .core :: ts) :
    ∃ t, step s = .next t := by
  have hfetch := fetch_of_core_turn ht
  cases hm : coreMove { s with turns := s.turns.tail } with
  | settle u => exact ⟨u, step_of_settle (hfetch.trans hm)⟩
  | run i u =>
    rw [step_of_run (hfetch.trans hm)]
    exact exec_answers_of_isCommand (isCommand_of_coreMove_run hm) u

/-- Settles O15: the core's turn always answers, a delivery does on its channel, and the pin settles. -/
theorem stepStopsOnlyOnAbsentChannel : Obligations.StepStopsOnlyOnAbsentChannel := by
  intro s hch
  cases ht : s.turns with
  | nil => exact step_answers_of_core_turn (.inl ht)
  | cons turn ts =>
    cases turn with
    | core => exact step_answers_of_core_turn (.inr ⟨ts, ht⟩)
    | deliver ch bytes => exact ⟨_, step_of_deliver (hch ch bytes ts ht) ht⟩
    | resetPin => exact ⟨_, step_of_resetPin ht⟩

end Sys2Proof.Machine
end
